-- ==== Sys2Proof/Word.lean ====
section
/-! DEFINITION. The word types of the block (00_scope.md R6, R7: CMD_W = 64, IDX_W = 16, CHAN_W = BRI_W = 8). -/

namespace Sys2Proof

/-- A command word `cmd[63:0]` or a response word `rsp[63:0]` (30_encoding.md R45, R56). -/
abbrev Word := BitVec 64

/-- A pixel index as a command carries it, or a pixel count (D3). -/
abbrev Index := BitVec 16

/-- One channel intensity, or the brightness scalar (10_state.md R15, R16). -/
abbrev Channel := BitVec 8

end Sys2Proof
end

