-- ==== Sys2Proof/Config.lean ====
section
/-! DEFINITION. The elaboration parameters of 00_scope.md R6, and the free values: what the spec leaves open
and every run may draw differently. -/

namespace Sys2Proof

/-- HOST_PENDING_POLICY (R6, D26): what becomes of a host interrupt requested while HostIE = 0. -/
inductive PendingPolicy where
  | keep
  | lose
  deriving DecidableEq, Repr

/-- One row of the platform's pin table, from which RESOLVE_PIN answers (R6, U12). `bit` is the place of the one
bit of PIN_MASK. -/
structure PinRow where
  pin      : Nat
  writable : Bool
  addr     : Nat
  bit      : Nat
  deriving DecidableEq, Repr

/-- The parameters the block is elaborated with (R6). A step reads them and no step changes them; they travel in
State because a step takes nothing but a state (log 1). -/
structure Params where
  n          : Index
  pin        : Nat
  pinTable   : List PinRow
  portW      : Nat
  hasRawRead : Bool
  t1h        : Nat
  t1l        : Nat
  t0h        : Nat
  t0l        : Nat
  tol        : Nat
  tresetMin  : Nat
  /-- `none` is unbounded (D9). -/
  tresetMax  : Option Nat
  clkHz      : Nat
  c1h        : Nat
  c1l        : Nat
  c0h        : Nat
  c0l        : Nat
  crst       : Nat
  lWrite     : Nat
  pending    : PendingPolicy
  deriving DecidableEq, Repr

/-- The elaboration of State.reset. The timing figures, TRESET_MAX_NS and HAS_RAW_READ are the defaults of R6; every
other value is a DESIGN CHOICE of log 2, on which no statement rests. -/
def Params.chosen : Params where
  n          := 1#16
  pin        := 0
  pinTable   := [⟨0, true, 0, 0⟩]
  portW      := 32
  hasRawRead := true
  t1h        := 800
  t1l        := 450
  t0h        := 400
  t0l        := 850
  tol        := 150
  tresetMin  := 50000
  tresetMax  := none
  clkHz      := 20000000
  c1h        := 16
  c1l        := 9
  c0h        := 8
  c0l        := 17
  crst       := 1000
  lWrite     := 0
  pending    := .keep

/-- A source of free values: `nat k` and `bit k` are the k-th number and the k-th bit drawn. -/
structure Free where
  nat : Nat → Nat
  bit : Nat → Bool

/-- Free numbers: the durations the spec leaves open (R9, R75, R79; U7, U8, U13, U15, U16). -/
opaque Config.freeNat : Nat → Nat

/-- Free bits: the line levels the spec leaves open (R30, R60; U2, U14). -/
opaque Config.freeBit : Nat → Bool

/-- The free values the machine draws from. -/
def Config.free : Free := ⟨Config.freeNat, Config.freeBit⟩

end Sys2Proof
end

