-- ==== Sys2Proof/Syntax.lean ====
section
/-! DEFINITION. The command set: one constructor of `Instr` for each row of spec/opcode_table.json. -/

namespace Sys2Proof

/-- "an ordered triple of 8-bit channel intensities (red, green, blue)" (10_state.md R15). -/
structure Pixel where
  r : Channel
  g : Channel
  b : Channel
  deriving DecidableEq, Repr

/-- (0, 0, 0), the reset value of every pixel and what CLEAR writes (10_state.md R13, 41_buffer.md R66). -/
def Pixel.black : Pixel := ⟨0, 0, 0⟩

/-- The eight commands (30_encoding.md R50). SHOW is a second spelling of TRANSMIT (R58), not a ninth. -/
inductive Instr where
  /-- BEGIN (40_setup.md R59). -/
  | beginLine
  /-- SET_PIXEL index, r, g, b (41_buffer.md R64). -/
  | setPixel (index : Index) (r g b : Channel)
  /-- SET_PIXEL_PX index, (r, g, b) (41_buffer.md R65). -/
  | setPixelPx (index : Index) (px : Pixel)
  /-- CLEAR (41_buffer.md R66). -/
  | clear
  /-- SET_BRIGHTNESS value (41_buffer.md R67). -/
  | setBrightness (value : Channel)
  /-- TRANSMIT, alias SHOW (42_transmit.md R71). -/
  | transmit
  /-- GET_COUNT (43_readback.md R91). -/
  | getCount
  /-- GET_PIXEL index (43_readback.md R92), an option of the build: HAS_RAW_READ. -/
  | getPixel (index : Index)
  deriving DecidableEq, Repr

end Sys2Proof
end

