-- ==== Sys2Proof/WellFormed.lean ====
section
/-! DEFINITION. Which instructions a build has. Operand ranges need no check here: the operand types are exactly as
wide as the fields of 30_encoding.md R47-R49 (the range check on written numbers is the assembler's, R57). -/

namespace Sys2Proof

/-- `i` is a command of a build with this HAS_RAW_READ (30_encoding.md R50, R53): GET_PIXEL exists only when it is 1. -/
def Instr.wellFormed (hasRawRead : Bool) : Instr → Bool
  | .beginLine          => true
  | .setPixel _ _ _ _   => true
  | .setPixelPx _ _     => true
  | .clear              => true
  | .setBrightness _    => true
  | .transmit           => true
  | .getCount           => true
  | .getPixel _         => hasRawRead

end Sys2Proof
end

