-- ==== Sys2Proof/Decode.lean ====
section
/-! DEFINITION. The decoder of 30_encoding.md R52, total on 64-bit words, then the encoder from the same formats. -/

namespace Sys2Proof

/-- Why a word is illegal: the three cases of 30_encoding.md R53. -/
inductive Illegal where
  /-- OPC is 0x00 or lies in 0x09 to 0xFF. -/
  | unassignedOpcode
  /-- a bit of the format's RSV field is 1. -/
  | reservedBits
  /-- GET_PIXEL while HAS_RAW_READ = 0. -/
  | rawReadAbsent
  deriving DecidableEq, Repr

/-- OPC, `cmd[63:56]` (R45). -/
def Word.opc (w : Word) : BitVec 8 := w.extractLsb' 56 8

/-- IDX, `cmd[55:40]` (R47, R48). -/
def Word.idx (w : Word) : Index := w.extractLsb' 40 16

/-- R, `cmd[23:16]` (R47). -/
def Word.red (w : Word) : Channel := w.extractLsb' 16 8

/-- G, `cmd[15:8]` (R47). -/
def Word.green (w : Word) : Channel := w.extractLsb' 8 8

/-- B of format P, or V of format V: `cmd[7:0]` (R47, R49). -/
def Word.low (w : Word) : Channel := w.extractLsb' 0 8

/-- RSV of format N is 0: `cmd[55:0]` (R46). -/
def Word.rsvN (w : Word) : Bool := w.extractLsb' 0 56 == 0

/-- RSV of format P is 0: `cmd[39:24]` (R47). -/
def Word.rsvP (w : Word) : Bool := w.extractLsb' 24 16 == 0

/-- RSV of format I is 0: `cmd[39:0]` (R48). -/
def Word.rsvI (w : Word) : Bool := w.extractLsb' 0 40 == 0

/-- RSV of format V is 0: `cmd[55:8]` (R49). -/
def Word.rsvV (w : Word) : Bool := w.extractLsb' 8 48 == 0

/-- `i` if the reserved bits are as the format asks, else the word is illegal (R53). -/
def decodeIf (rsvZero : Bool) (i : Instr) : Except Illegal Instr :=
  if rsvZero then .ok i else .error .reservedBits

/-- The decoder (R52). -/
def decode (hasRawRead : Bool) (w : Word) : Except Illegal Instr :=
  match (Word.opc w).toNat with
  | 0x01 => decodeIf (Word.rsvN w) .beginLine
  | 0x02 => decodeIf (Word.rsvP w) (.setPixel (Word.idx w) (Word.red w) (Word.green w) (Word.low w))
  | 0x03 => decodeIf (Word.rsvP w) (.setPixelPx (Word.idx w) ⟨Word.red w, Word.green w, Word.low w⟩)
  | 0x04 => decodeIf (Word.rsvN w) .clear
  | 0x05 => decodeIf (Word.rsvV w) (.setBrightness (Word.low w))
  | 0x06 => decodeIf (Word.rsvN w) .transmit
  | 0x07 => decodeIf (Word.rsvN w) .getCount
  | 0x08 => if hasRawRead then decodeIf (Word.rsvI w) (.getPixel (Word.idx w)) else .error .rawReadAbsent
  | _    => .error .unassignedOpcode

/-- Format N (R46). -/
def encodeN (opc : BitVec 8) : Word := opc ++ 0#56

/-- Format P (R47). -/
def encodeP (opc : BitVec 8) (index : Index) (px : Pixel) : Word :=
  opc ++ index ++ 0#16 ++ px.r ++ px.g ++ px.b

/-- Format I (R48). -/
def encodeI (opc : BitVec 8) (index : Index) : Word := opc ++ index ++ 0#40

/-- Format V (R49). -/
def encodeV (opc : BitVec 8) (value : Channel) : Word := opc ++ 0#48 ++ value

/-- The opcode of each command (R50). -/
def Instr.opcode : Instr → BitVec 8
  | .beginLine          => 0x01
  | .setPixel _ _ _ _   => 0x02
  | .setPixelPx _ _     => 0x03
  | .clear              => 0x04
  | .setBrightness _    => 0x05
  | .transmit           => 0x06
  | .getCount           => 0x07
  | .getPixel _         => 0x08

/-- The word of a command (R46-R50). -/
def encode (i : Instr) : Word :=
  match i with
  | .beginLine            => encodeN i.opcode
  | .setPixel index r g b => encodeP i.opcode index ⟨r, g, b⟩
  | .setPixelPx index px  => encodeP i.opcode index px
  | .clear                => encodeN i.opcode
  | .setBrightness value  => encodeV i.opcode value
  | .transmit             => encodeN i.opcode
  | .getCount             => encodeN i.opcode
  | .getPixel index       => encodeI i.opcode index

/-- The `match` column of the opcode map (R50). -/
def Instr.matchWord (i : Instr) : Word := encodeN i.opcode

/-- The `mask` column of the opcode map (R50). -/
def Instr.maskWord : Instr → Word
  | .beginLine          => 0xFFFFFFFFFFFFFFFF
  | .setPixel _ _ _ _   => 0xFF0000FFFF000000
  | .setPixelPx _ _     => 0xFF0000FFFF000000
  | .clear              => 0xFFFFFFFFFFFFFFFF
  | .setBrightness _    => 0xFFFFFFFFFFFFFF00
  | .transmit           => 0xFFFFFFFFFFFFFFFF
  | .getCount           => 0xFFFFFFFFFFFFFFFF
  | .getPixel _         => 0xFF0000FFFFFFFFFF

/-- The command word whose bits opcode_table.json numbers as `w`: bit 0 is the word's least significant bit, and the
bits above `nbits` are 0. A command word travels whole and has no byte order (20_memory.md R37). -/
def tableWord (nbits w : Nat) : Word := BitVec.ofNat 64 (w % 2 ^ nbits)

/-- The instruction this decoder reads from the table's bits, in a build with HAS_RAW_READ = 1, the default of
00_scope.md R6. No command is longer than 64 bits (R55). -/
def decodeTableWord (nbits w : Nat) : Option Instr :=
  if 64 < nbits then none
  else match decode true (tableWord nbits w) with
    | .ok i    => some i
    | .error _ => none

end Sys2Proof
end

