-- ==== Sys2Proof/Machine/State.lean ====
section
/-! DEFINITION. The state of the block (10_state.md R13) with its input ports, the platform's port register, the
host's side of the interrupt link, the observation logs and the free-value counter; the reasons a step can stop; the
state after reset. -/

namespace Sys2Proof.Machine

/-- A line level (00_scope.md R9). `undef` is the spec's own value: the line is not driven. -/
inductive Level where
  | low
  | high
  | undef
  deriving DecidableEq, Repr

/-- SEQ.MODE (10_state.md R19). -/
inductive Mode where
  | idle
  | config
  | tx
  | latch
  | halt
  deriving DecidableEq, Repr

/-- SEQ.K, the channel slot: 0 = G, 1 = R, 2 = B (R19). -/
inductive Slot where
  | g
  | r
  | b
  deriving DecidableEq, Repr

/-- SEQ.PH (R19). -/
inductive Phase where
  | hi
  | lo
  deriving DecidableEq, Repr

/-- BIND = (PORT_ADDR, PIN_MASK) (R13, R14). The mask is a PORT_W-bit word kept as its value. -/
structure Binding where
  addr : Nat
  mask : Nat
  deriving DecidableEq, Repr

/-- One segment of the line trace: the line holds `level` for `ns` nanoseconds (00_scope.md R8, R9). -/
structure Segment where
  level : Level
  ns    : Nat
  deriving DecidableEq, Repr

/-- What the outside does between two commands (10_state.md R28, 60_exceptions.md R114). -/
inductive HostMove where
  /-- the host puts a command word on the command port and holds it there. -/
  | present (w : Word)
  /-- the host writes HostIE outside a frame. -/
  | writeHostIE (v : Bool)
  /-- one of the host's maskable sources requests an interrupt. -/
  | requestInterrupt
  /-- the `rst` input takes this level. -/
  | setRst (v : Bool)
  /-- the platform writes the other bits of the port register. -/
  | writePort (v : Nat)
  deriving DecidableEq, Repr

/-- What the outside does at a command's acceptance, or during one segment of BEGIN or TRANSMIT (42_transmit.md R82, R90;
60_exceptions.md R114; 70_reset_and_hazards.md R117, R120). None of these writes the other bits of the port register: the
platform and the host's handlers do so between commands only, also where 42_transmit.md R82 lets handlers run in the latch.
DESIGN CHOICE, log 33. -/
inductive FrameEvent where
  | quiet
  /-- `rst` is asserted within this segment, or after the acceptance and before the command is done. -/
  | rst
  /-- the host writes HostIE: writing 1 during TX breaks its duty. -/
  | writeHostIE (v : Bool)
  /-- a non-maskable host event. -/
  | nonMaskable
  /-- the output write that begins the segment takes longer than its calibrated latency: it prolongs the segment that it
  ends, or the one that it begins, or both. -/
  | lateWrite
  /-- one of the host's maskable sources requests an interrupt. -/
  | requestInterrupt
  deriving DecidableEq, Repr

/-- The state. First the elements of 10_state.md R13 in its order; then the input ports of R28; then the platform's
port register (42_transmit.md R84) and the host's interrupt side (60_exceptions.md R107); then what the outside will do;
then the observation logs (60_exceptions.md R112), newest entry first; then the model's own counter of free values and
the elaboration parameters. -/
structure State where
  count       : Index
  bind        : Option Binding
  buf         : List Pixel
  bri         : Channel
  begun       : Bool
  lineOE      : Bool
  lineLvl     : Level
  mode        : Mode
  seqP        : BitVec 16
  seqK        : Slot
  seqB        : BitVec 3
  seqPh       : Phase
  /-- `none` is the spec's "unwritten" (R13, R21). -/
  savedIE     : Option Bool
  hostIE      : Bool
  fault       : BitVec 8
  rst         : Bool
  /-- `cmd_valid` and `cmd`: the word held on the command port. -/
  cmd         : Option Word
  /-- PORT[PORT_ADDR], a PORT_W-bit word kept as its value. -/
  port        : Nat
  hostPending : Bool
  hostTaken   : Nat
  /-- the host's coming moves, oldest first. -/
  inputs      : List HostMove
  /-- the environment's coming events, oldest first: one at each acceptance of a word, then one a segment of its frame; an
  absent entry is `quiet`. -/
  frameEnv    : List FrameEvent
  /-- the segments emitted on the line, newest first. -/
  trace       : List Segment
  /-- the response words, newest first. -/
  responses   : List Word
  /-- the values the block wrote through `host_ie_we`/`host_ie_out`, newest first. -/
  ieWrites    : List Bool
  draws       : Nat
  params      : Params
  deriving DecidableEq, Repr

/-- Why the machine stops. No state that construction and steps reach stops so (Obligations: the invariant). -/
inductive Fault where
  /-- Raised by the end of the critical section, or by `rst` inside it, when SAVED_IE is unwritten: "A read of an
  unwritten SAVED_IE faults" (10_state.md R30). Safe: it stops where the spec gives no value. -/
  | savedIeUnwritten
  /-- Raised by a read of BUF at a place where it holds no pixel: `buf[i]` is "defined only for 0 <= i < N"
  (00_scope.md R8). Safe: it stops where the spec gives no value. -/
  | pixelUndefined
  /-- Raised by an output write of a block without an output binding: "Every output write uses the cached PORT_ADDR
  and PIN_MASK" (10_state.md R14) and a block whose PIN is unresolved never drives the line (60_exceptions.md R97).
  Safe: it stops where the spec gives no address. -/
  | lineUnbound
  deriving DecidableEq, Repr

/-- Why a step has no meaning. -/
inductive Refusal where
  /-- Raised by an arm of `exec` whose instruction has no meaning yet; no arm does. Safe. -/
  | notModelled (mnemonic : String)
  /-- Raised by `step` on a halted block: "In the model a construction fault is a refused launch: no run exists from
  it" (60_exceptions.md R97). Safe: nothing is claimed of a launch that failed. -/
  | launchRefused
  deriving DecidableEq, Repr

/-- A step's answer. -/
abbrev Result := Host.Outcome State Fault Refusal

/-- The machine right after reset: the construction state of 70_reset_and_hazards.md R116 for `Params.chosen`. The
values that the spec leaves to the host or the platform, and SEQ outside TX, are those of log 3 and log 4. -/
def State.reset : State where
  count       := 1
  bind        := some ⟨0, 1⟩
  buf         := List.replicate 1 Pixel.black
  bri         := 255
  begun       := false
  lineOE      := false
  lineLvl     := .undef
  mode        := .idle
  seqP        := 0
  seqK        := .g
  seqB        := 0
  seqPh       := .hi
  savedIE     := none
  hostIE      := true
  fault       := 0
  rst         := false
  cmd         := none
  port        := 0
  hostPending := false
  hostTaken   := 0
  inputs      := []
  frameEnv    := []
  trace       := []
  responses   := []
  ieWrites    := []
  draws       := 0
  params      := Params.chosen

end Sys2Proof.Machine
end

