-- ==== Sys2Proof/Machine/Operands.lean ====
section
/-! DEFINITION. Operands at execution: the index range, the brightness scaling (the block's only arithmetic), the
channel a slot selects, and packing a pixel into a response. -/

namespace Sys2Proof.Machine

/-- "An index i is in range when 0 <= i < N", compared unsigned (20_memory.md R32, 30_encoding.md R51). -/
def inRange (index : Index) (s : State) : Bool := decide (index.toNat < s.count.toNat)

/-- scale(c, br) = (c * br) >> 8 on the exact product (41_buffer.md R62). -/
def scale (c br : Channel) : Channel := BitVec.ofNat 8 ((c.toNat * br.toNat) >>> 8)

/-- The three channels, each scaled (41_buffer.md R64). -/
def scalePixel (px : Pixel) (br : Channel) : Pixel := ⟨scale px.r br, scale px.g br, scale px.b br⟩

/-- The channel selected by SEQ.K (42_transmit.md R85). -/
def channel (px : Pixel) : Slot → Channel
  | .g => px.g
  | .r => px.r
  | .b => px.b

/-- zext_64({R, G, B}) (30_encoding.md R56). -/
def packPixel (px : Pixel) : Word := 0#40 ++ px.r ++ px.g ++ px.b

/-- zext_64(N) (30_encoding.md R56). -/
def packCount (n : Index) : Word := n.zeroExtend 64

end Sys2Proof.Machine
end

