-- ==== Sys2Proof/Machine/Flags.lean ====
section
/-! DEFINITION. The flag-like bits (10_state.md R25): FAULT with its codes, and the interrupt-enable link with
SAVED_IE. -/

namespace Sys2Proof.Machine

/-- The fault reasons of 60_exceptions.md R96. -/
inductive FaultReason where
  | configCountZero
  | configPinUnresolved
  | illegalCommand
  | notBegun
  | readOutOfRange
  | timingViolation
  deriving DecidableEq, Repr

/-- code(reason): the FAULT bit (R96). -/
def FaultReason.code : FaultReason → Nat
  | .configCountZero     => 0
  | .configPinUnresolved => 1
  | .illegalCommand      => 2
  | .notBegun            => 3
  | .readOutOfRange      => 4
  | .timingViolation     => 5

/-- The FAULT word in which only the reason's bit is 1. -/
def FaultReason.bit (reason : FaultReason) : BitVec 8 := 1#8 <<< reason.code

/-- FAULT[code(reason)] <- 1; the other bits keep their values (R95). -/
def recordFault (reason : FaultReason) (s : State) : State := { s with fault := s.fault ||| reason.bit }

/-- The host takes a pending interrupt as soon as HostIE is 1 (60_exceptions.md R107, D26). -/
def hostTakesPending (s : State) : State :=
  if s.hostIE && s.hostPending then { s with hostPending := false, hostTaken := s.hostTaken + 1 } else s

/-- The host writes HostIE. -/
def hostWritesIE (v : Bool) (s : State) : State := hostTakesPending { s with hostIE := v }

/-- A maskable host source requests an interrupt: taken at once while HostIE = 1, else kept or lost as
HOST_PENDING_POLICY says (R107). -/
def hostRequests (s : State) : State :=
  if s.hostIE then { s with hostTaken := s.hostTaken + 1 }
  else match s.params.pending with
    | .keep => { s with hostPending := true }
    | .lose => s

/-- The block writes HostIE through `host_ie_we` and `host_ie_out` (10_state.md R28). -/
def blockWritesIE (v : Bool) (s : State) : State :=
  hostTakesPending { s with hostIE := v, ieWrites := v :: s.ieWrites }

/-- Critical-section entry: (SAVED_IE, HostIE) <- (HostIE, 0), one atomic action (42_transmit.md R72, R78). -/
def enterCritical (s : State) : State := blockWritesIE false { s with savedIE := some s.hostIE }

/-- Critical-section exit: HostIE <- SAVED_IE (R81). A read of an unwritten SAVED_IE faults (10_state.md R30). -/
def exitCritical (s : State) : Result :=
  match s.savedIE with
  | some v => .next (blockWritesIE v s)
  | none   => .fault .savedIeUnwritten

end Sys2Proof.Machine
end

