-- ==== Sys2Proof/Machine/Ops.lean ====
section
/-! DEFINITION. The shared operations: the pixel buffer, the response, raising a fault, the output write, the line
trace with its free durations, and construction. -/

namespace Sys2Proof.Machine

/-- Go on with the next state; a stop stays a stop. -/
def andThen (r : Result) (f : State → Result) : Result :=
  match r with
  | .next s    => f s
  | .fault x   => .fault x
  | .refused x => .refused x

/-! ## The pixel buffer (00_scope.md R8, 10_state.md R15)

The memory of the block: N pixels reached only by index, with no byte addresses and no storage order
(20_memory.md R36, R38; log 20). Its canonical form: exactly N entries. -/

/-- The buffer holds exactly N pixels. -/
def Memory.wf (n : Index) (buf : List Pixel) : Bool := buf.length == n.toNat

/-- `buf[i]`: MemRead(i, 3) as a triple. -/
def Memory.read (buf : List Pixel) (i : Nat) : Option Pixel := buf[i]?

/-- `buf[i] <- px`: all three channels at once; MemWrite(i, 3, v). -/
def Memory.write (buf : List Pixel) (i : Nat) (px : Pixel) : List Pixel := buf.set i px

/-- Every pixel <- (0, 0, 0). -/
def Memory.clear (buf : List Pixel) : List Pixel := buf.map fun _ => Pixel.black

/-- N black pixels, the buffer of a constructed block (70_reset_and_hazards.md R116). -/
def Memory.fresh (n : Index) : List Pixel := List.replicate n.toNat Pixel.black

/-! ## Completion and faults -/

/-- `respond(v)`: the command completes with response word v (00_scope.md R8). -/
def respond (v : Word) (s : State) : State := { s with responses := v :: s.responses }

/-- `raise Fault(reason)`: FAULT[code(reason)] <- 1, response 0, every other element unchanged (60_exceptions.md R95).
There is no trap entry, no handler and no return (R104, R105): the block goes on with the next command. -/
def raiseFault (reason : FaultReason) (s : State) : Result := .next (respond 0 (recordFault reason s))

/-! ## The output port (42_transmit.md R84) -/

/-- PORT[PORT_ADDR] OR PIN_MASK, on PORT_W bits. -/
def portHigh (w port mask : Nat) : Nat := (BitVec.ofNat w port ||| BitVec.ofNat w mask).toNat

/-- PORT[PORT_ADDR] AND NOT PIN_MASK, on PORT_W bits. -/
def portLow (w port mask : Nat) : Nat := (BitVec.ofNat w port &&& ~~~BitVec.ofNat w mask).toNat

/-- The port register after the write of a level. -/
def portSet (w port mask : Nat) : Level → Nat
  | .high  => portHigh w port mask
  | .low   => portLow w port mask
  | .undef => port

/-- `Port(level)` through a binding. The level shows on the line while the line is an output (10_state.md R18). -/
def portWrite (b : Binding) (level : Level) (s : State) : State :=
  { s with port    := portSet s.params.portW s.port b.mask level
           lineLvl := if s.lineOE then level else .undef }

/-- The platform writes the port register: every bit takes the platform's value but the bound one, which is the
block's (60_exceptions.md R114, R115; log 15). -/
def platformWritesPort (v : Nat) (s : State) : State :=
  match s.bind with
  | none   => { s with port := (BitVec.ofNat s.params.portW v).toNat }
  | some b =>
    let w := s.params.portW
    let mask := BitVec.ofNat w b.mask
    { s with port := ((BitVec.ofNat w s.port &&& mask) ||| (BitVec.ofNat w v &&& ~~~mask)).toNat }

/-! ## The line trace (00_scope.md R8, R9) -/

/-- A natural number of ns in [lo, hi], any of them, as the free number x has it; `none` is no upper bound. An interval
with hi < lo, which a build with TRESET_MAX_NS < TRESET_MIN_NS asks for and for which the spec states no duration, gives
lo: DESIGN CHOICE, log 31. -/
def drawIn (x lo : Nat) (hi : Option Nat) : Nat :=
  match hi with
  | none   => lo + x
  | some h => lo + x % (h - lo + 1)

/-- `Emit(level, lo, hi)`: append one segment whose duration is a free value within the bounds. -/
def emit (φ : Free) (level : Level) (lo : Nat) (hi : Option Nat) (s : State) : State :=
  { s with trace := ⟨level, drawIn (φ.nat s.draws) lo hi⟩ :: s.trace, draws := s.draws + 1 }

/-- How long the line has been LOW at the end of a trace (newest segment first). -/
def lowRun : List Segment → Nat
  | ⟨.low, ns⟩ :: rest => ns + lowRun rest
  | _ => 0

/-! ## Construction (60_exceptions.md R97, 70_reset_and_hazards.md R116) -/

/-- RESOLVE_PIN: the pin's first row, if it is a writable output whose bit lies in the port register
(00_scope.md R6, U12). -/
def resolvePin (p : Params) : Option Binding :=
  match p.pinTable.find? (fun row => row.pin == p.pin) with
  | some row => if row.writable && decide (row.bit < p.portW) then some ⟨row.addr, 2 ^ row.bit⟩ else none
  | none     => none

/-- FAULT after the two construction checks; both are made (R97, R103). -/
def constructionFaults (p : Params) : BitVec 8 :=
  (if p.n = 0#16 then FaultReason.configCountZero.bit else 0#8) |||
  (if resolvePin p = none then FaultReason.configPinUnresolved.bit else 0#8)

/-- Construction, and what `rst` establishes: every element of R13 at its reset value, HALT after a failed check;
HostIE, the port register, the ports, the logs and the parameters are not the block's to reset. -/
def construct (s : State) : State :=
  { s with
    count   := s.params.n
    bind    := resolvePin s.params
    buf     := Memory.fresh s.params.n
    bri     := 255
    begun   := false
    lineOE  := false
    lineLvl := .undef
    mode    := if constructionFaults s.params = 0#8 then .idle else .halt
    seqP    := 0
    seqK    := .g
    seqB    := 0
    seqPh   := .hi
    savedIE := none
    fault   := constructionFaults s.params }

/-- Assert `rst`: honoured in every MODE. With the critical section open, the block first writes HostIE <- SAVED_IE
(R117). -/
def assertRst (s : State) : Result :=
  match s.mode with
  | .tx => andThen (exitCritical s) fun s' => .next { construct s' with rst := true }
  | _   => .next { construct s with rst := true }

end Sys2Proof.Machine
end

