-- ==== Sys2Proof/Machine/Wave.lean ====
section
/-! DEFINITION. The waveform: bands, the bit stream of a frame, the traces that 42_transmit.md R75 admits, and the
receiver's (test harness's) decoding of a trace (R87, R88). Traces here run oldest segment first. -/

namespace Sys2Proof.Machine

/-- The lower edge of band(F) (00_scope.md R10). -/
def bandLo (p : Params) (f : Nat) : Nat := f - p.tol

/-- The upper edge of band(F) (R10). -/
def bandHi (p : Params) (f : Nat) : Nat := f + p.tol

/-- d lies in band(F), edges included (R10, D8). -/
def inBand (p : Params) (f d : Nat) : Bool := decide (bandLo p f ≤ d) && decide (d ≤ bandHi p f)

/-- The nominal high time of a bit (42_transmit.md R74). -/
def highNs (p : Params) (bit : Bool) : Nat := if bit then p.t1h else p.t0h

/-- The nominal low time of a bit (R74). -/
def lowNs (p : Params) (bit : Bool) : Nat := if bit then p.t1l else p.t0l

/-- bits8(x): bit 7 first (R73, 20_memory.md R35). -/
def bits8 (x : Channel) : List Bool :=
  [x.getLsbD 7, x.getLsbD 6, x.getLsbD 5, x.getLsbD 4, x.getLsbD 3, x.getLsbD 2, x.getLsbD 1, x.getLsbD 0]

/-- pixelBits(px): green, red, blue (R73, 20_memory.md R34). -/
def pixelBits (px : Pixel) : List Bool := bits8 px.g ++ bits8 px.r ++ bits8 px.b

/-- FrameBits(BUF): the pixels in index order (R73, 20_memory.md R33). -/
def frameBits (buf : List Pixel) : List Bool := buf.flatMap pixelBits

/-- Adjacent segments of the same level merge (R75). -/
def mergeSegments : List Segment → List Segment
  | [] => []
  | s :: rest =>
    match mergeSegments rest with
    | [] => [s]
    | t :: rest' => if s.level = t.level then ⟨s.level, s.ns + t.ns⟩ :: rest' else s :: t :: rest'

/-- The latch hold: l_last >= TRESET_MIN_NS, and at most TRESET_MAX_NS where that is bounded (R79). -/
def inLatch (p : Params) (d : Nat) : Bool :=
  decide (p.tresetMin ≤ d) && (match p.tresetMax with | none => true | some m => decide (d ≤ m))

/-- The build's latch bounds leave some length: TRESET_MIN_NS <= TRESET_MAX_NS (R79). -/
def latchPossible (p : Params) : Bool := match p.tresetMax with | none => true | some m => decide (p.tresetMin ≤ m)

/-- The segments of R75 after the idle low, for a bit stream: one HIGH and one LOW a bit, the last LOW being the latch. -/
def admitsBits (p : Params) : List Bool → List Segment → Bool
  | [bit], [⟨.high, h⟩, ⟨.low, l⟩] => inBand p (highNs p bit) h && inLatch p l
  | bit :: bit' :: bits, ⟨.high, h⟩ :: ⟨.low, l⟩ :: rest =>
    inBand p (highNs p bit) h && inBand p (lowNs p bit) l && admitsBits p (bit' :: bits) rest
  | _, _ => false

/-- The frame traces that R75 admits for a bit stream: an idle LOW of any length, then the bits. -/
def admitsFrame (p : Params) (bits : List Bool) : List Segment → Bool
  | ⟨.low, _⟩ :: rest => admitsBits p bits rest
  | _ => false

/-- decodeBit(h): 1, 0, or `none` where R87 says undefined. -/
def decodeBit (p : Params) (h : Nat) : Option Bool :=
  if inBand p p.t1h h then some true else if inBand p p.t0h h then some false else none

/-- decodeFrame(trace): the bit of each HIGH segment, in order (R87). -/
def decodeFrame (p : Params) : List Segment → List (Option Bool)
  | [] => []
  | ⟨.high, h⟩ :: rest => decodeBit p h :: decodeFrame p rest
  | _ :: rest => decodeFrame p rest

/-- The two HIGH bands do not overlap: "T1H_NS − T0H_NS > 2 × TOL_NS" (R87). -/
def decodable (p : Params) : Bool := decide (p.t0h + 2 * p.tol < p.t1h)

/-- A byte from its eight bits, the most significant first. -/
def byteOfBits (bits : List Bool) : Channel :=
  BitVec.ofNat 8 (bits.foldl (fun acc bit => 2 * acc + (if bit then 1 else 0)) 0)

/-- "Regrouping the bits in 8s as G, R, B per pixel" (R88), for n pixels. -/
def regroup : Nat → List Bool → List Pixel
  | 0, _ => []
  | n + 1, bits =>
    ⟨byteOfBits ((bits.drop 8).take 8), byteOfBits (bits.take 8), byteOfBits ((bits.drop 16).take 8)⟩
      :: regroup n (bits.drop 24)

/-- The total length of a list of segments. -/
def totalNs (segs : List Segment) : Nat := (segs.map Segment.ns).sum

/-- How many HIGH segments: the number of rising edges of a merged trace that begins LOW (R75). -/
def risingEdges (segs : List Segment) : Nat := segs.countP fun s => decide (s.level = .high)

end Sys2Proof.Machine
end

