-- ==== Sys2Proof/Machine/Frame.lean ====
section
/-! DEFINITION. The frame: BEGIN's configure step, the critical section, the sequencer of 10_state.md R20 sending the
bits, and the latch (40_setup.md R60, 42_transmit.md R72-R86). `tick` is one segment of the line; `runTicks` runs them
to the frame's end. -/

namespace Sys2Proof.Machine

/-- A command is being executed: MODE is CONFIG, TX or LATCH. -/
def busy (s : State) : Bool :=
  match s.mode with
  | .config | .tx | .latch => true
  | .idle | .halt => false

/-- The bit at SEQ's position: bit SEQ.B of channel SEQ.K of BUF[SEQ.P] (42_transmit.md R85). -/
def currentBit (s : State) : Option Bool :=
  (Memory.read s.buf s.seqP.toNat).map fun px => (channel px s.seqK).getLsbD s.seqB.toNat

/-- SEQ is at the last bit of the frame: bit 0 of channel B of pixel N-1 (10_state.md R20). -/
def atLastBit (s : State) : Bool :=
  s.seqB == 0#3 && s.seqK == .b && !decide (s.seqP.toNat + 1 < s.count.toNat)

/-- The slot after this one; B is followed by the next pixel's G. -/
def Slot.next : Slot → Slot
  | .g => .r
  | .r => .b
  | .b => .g

/-- The level of a bit's phase: HI is HIGH, LO is LOW (10_state.md R19). -/
def Phase.level : Phase → Level
  | .hi => .high
  | .lo => .low

/-- SEQ.K as the number of 10_state.md R19. -/
def Slot.num : Slot → Nat
  | .g => 0
  | .r => 1
  | .b => 2

/-- `next(P, K, B, PH)` of R20, but for its last case, which goes to LATCH. -/
def advance (s : State) : State :=
  match s.seqPh with
  | .hi => { s with seqPh := .lo }
  | .lo =>
    if s.seqB ≠ 0#3 then { s with seqB := s.seqB - 1, seqPh := .hi }
    else if s.seqK ≠ .b then { s with seqK := s.seqK.next, seqB := 7, seqPh := .hi }
    else { s with seqP := s.seqP + 1, seqK := .g, seqB := 7, seqPh := .hi }

/-- TransmitFrame up to the first rising edge: MODE <- TX, the critical section entered at a free instant of the idle
low (42_transmit.md R72, R75, R78), SEQ at (0, 0, 7, HI) (R20). -/
def startFrame (φ : Free) (s : State) : State :=
  let s1 := emit φ .low 0 none { s with mode := .tx }
  let s2 := emit φ .low 0 none (enterCritical s1)
  { s2 with seqP := 0, seqK := .g, seqB := 7, seqPh := .hi }

/-- ConfigureLine, then the frame's start (40_setup.md R59, R60): the line becomes an output, a transient of free level
and length, then LOW. -/
def tickConfig (φ : Free) (s : State) : Result :=
  match s.bind with
  | none   => .fault .lineUnbound
  | some b =>
    let level := if φ.bit s.draws then Level.high else Level.low
    let s1 := emit φ level 0 none { s with lineOE := true, lineLvl := level }
    .next (startFrame φ (portWrite b .low s1))

/-- The event breaks the critical section of a frame at its segment (42_transmit.md R90): HostIE set to 1, a non-maskable
event or a late write at the segment's beginning. -/
def FrameEvent.interferes : FrameEvent → Bool
  | .writeHostIE v => v
  | .nonMaskable   => true
  | .lateWrite     => true
  | .quiet | .rst | .requestInterrupt => false

/-- What an event does to the host's side. -/
def hostEvent : FrameEvent → State → State
  | .writeHostIE v    => hostWritesIE v
  | .requestInterrupt => hostRequests
  | .quiet | .rst | .nonMaskable | .lateWrite => id

/-- One segment of a bit, in band, or of any length when the frame is disturbed (R74, R76, R90). -/
def emitBit (φ : Free) (disturbed : Bool) (level : Level) (f : Nat) (s : State) : State :=
  if disturbed then emit φ level 0 none s
  else emit φ level (bandLo s.params f) (some (bandHi s.params f)) s

/-- The output write that ends the segment under way is late, and so prolongs it (R90): it is the write that begins the
next segment. The last LOW is ended by no write. `s` is the state whose next event is the next segment's. -/
def endsLate (s : State) : Bool :=
  !(s.seqPh == .lo && atLastBit s) && s.frameEnv.headD .quiet == .lateWrite

/-- How long the LOW may last up to the restore of HostIE: to TRESET_MAX_NS (R79), or without bound when it is disturbed
(R90). -/
def lastLowMax (disturbed : Bool) (p : Params) : Option Nat := if disturbed then none else p.tresetMax

/-- The end of the last bit: the last falling edge, the restore of HostIE at a free instant of the low that follows,
then MODE <- LATCH (R72, R81). -/
def endFrame (φ : Free) (disturbed : Bool) (b : Binding) (s : State) : Result :=
  andThen (exitCritical (emit φ .low 0 (lastLowMax disturbed s.params) (portWrite b .low s)))
    fun s' => .next { s' with mode := .latch }

/-- One segment of the frame at SEQ's position (R74, R85). -/
def tickTx (φ : Free) (disturbed : Bool) (s : State) : Result :=
  match s.bind, currentBit s with
  | none, _ => .fault .lineUnbound
  | some _, none => .fault .pixelUndefined
  | some b, some bit =>
    match s.seqPh with
    | .hi => .next (advance (emitBit φ disturbed .high (highNs s.params bit) (portWrite b .high s)))
    | .lo =>
      if atLastBit s then endFrame φ disturbed b s
      else .next (advance (emitBit φ disturbed .low (lowNs s.params bit) (portWrite b .low s)))

/-- The rest of the latch hold, so that the line is LOW for at least TRESET_MIN_NS since the last falling edge; then the
command completes (R72, R79). It tops the LOW up to TRESET_MIN_NS after a disturbed last LOW too, where R90 may be read to
allow less: DESIGN CHOICE, log 34. -/
def tickLatch (φ : Free) (s : State) : Result :=
  let low := lowRun s.trace
  let s1 := emit φ .low (s.params.tresetMin - low) (s.params.tresetMax.map (· - low)) s
  .next (respond 0 { s1 with mode := .idle })

/-- What `rst` cuts short: the segments under way, of any length, or nothing yet of them. In the configure step that is
the transient, or the transient and the LOW after it (70_reset_and_hazards.md R117). -/
def cutSegment (φ : Free) (s : State) : State :=
  match s.mode, s.bind with
  | .config, some b =>
    let s0 := { s with draws := s.draws + 1 }
    if φ.bit s.draws then s0
    else
      let s1 := emit φ (if φ.bit s0.draws then .high else .low) 0 none s0
      if φ.bit s1.draws then s1 else emit φ .low 0 none (portWrite b .low s1)
  | .tx, some b =>
    if φ.bit s.draws then emit φ s.seqPh.level 0 none (portWrite b s.seqPh.level s)
    else { s with draws := s.draws + 1 }
  | .latch, _ => emit φ .low 0 none s
  | _, _ => s

/-- What the block does in its MODE for one segment. A frame segment is disturbed by an interference or by HostIE = 1; the
model then records TIMING_VIOLATION (42_transmit.md R90, 60_exceptions.md R101). -/
def blockTick (φ : Free) (interferes : Bool) (s : State) : Result :=
  match s.mode with
  | .config => tickConfig φ s
  | .tx =>
    if interferes || s.hostIE then tickTx φ true (recordFault .timingViolation s) else tickTx φ false s
  | .latch => tickLatch φ s
  | .idle | .halt => .next s

/-- One segment's time: the environment's event, then the block. An interference is an event of this segment or a late
write at its end. -/
def tick (φ : Free) (s : State) : Result :=
  let event := s.frameEnv.headD .quiet
  let s1 := { s with frameEnv := s.frameEnv.tail }
  if event = .rst then assertRst (cutSegment φ s1)
  else blockTick φ (event.interferes || endsLate s1) (hostEvent event s1)

/-- Up to k segments, until the block is no longer busy. -/
def runTicks (φ : Free) : Nat → State → Result
  | 0, s => .next s
  | k + 1, s => if busy s then andThen (tick φ s) (runTicks φ k) else .next s

/-- Enough segments for a whole command, with a pixel's worth to spare: the configure step, two for each of the 24N
bits, the latch. -/
def frameFuel (s : State) : Nat := 48 * (s.count.toNat + 1) + 2

/-- TransmitFrame (R72), to its end. -/
def transmitFrame (φ : Free) (s : State) : Result := runTicks φ (frameFuel s) (startFrame φ s)

/-- BEGIN's body (40_setup.md R59), to its end. -/
def beginFrame (φ : Free) (s : State) : Result :=
  runTicks φ (frameFuel s) { s with mode := .config, begun := true }

end Sys2Proof.Machine
end

