-- ==== Sys2Proof/Machine/Buffer.lean ====
section
/-! DEFINITION. The buffer commands (41_buffer.md). None touches the line (R69). -/

namespace Sys2Proof.Machine

/-- The write that SET_PIXEL and SET_PIXEL_PX share: out of range a no-op and no fault, else the pixel scaled by the
current brightness (41_buffer.md R64, 60_exceptions.md R102). -/
def storePixel (index : Index) (px : Pixel) (s : State) : Result :=
  .next (respond 0
    (if inRange index s then { s with buf := Memory.write s.buf index.toNat (scalePixel px s.bri) } else s))

/-- SET_PIXEL (R64). -/
def execSetPixel (index : Index) (r g b : Channel) (s : State) : Result := storePixel index ⟨r, g, b⟩ s

/-- SET_PIXEL_PX (R65): "identical in every effect". -/
def execSetPixelPx (index : Index) (px : Pixel) (s : State) : Result := storePixel index px s

/-- CLEAR (R66): every pixel (0, 0, 0), no scaling. -/
def execClear (s : State) : Result := .next (respond 0 { s with buf := Memory.clear s.buf })

/-- SET_BRIGHTNESS (R67): the buffer is not touched. -/
def execSetBrightness (value : Channel) (s : State) : Result := .next (respond 0 { s with bri := value })

end Sys2Proof.Machine
end

