-- ==== Sys2Proof/Machine/Readback.lean ====
section
/-! DEFINITION. The read accessors (43_readback.md). -/

namespace Sys2Proof.Machine

/-- GET_COUNT (43_readback.md R91). -/
def execGetCount (s : State) : Result := .next (respond (packCount s.count) s)

/-- GET_PIXEL (43_readback.md R92): the stored pixel, READ_OUT_OF_RANGE at index >= N, ILLEGAL_COMMAND in a build
without the raw read (which its decoder already refuses, 30_encoding.md R53). -/
def execGetPixel (index : Index) (s : State) : Result :=
  if !s.params.hasRawRead then raiseFault .illegalCommand s
  else if inRange index s then
    match Memory.read s.buf index.toNat with
    | some px => .next (respond (packPixel px) s)
    | none    => .fault .pixelUndefined
  else raiseFault .readOutOfRange s

end Sys2Proof.Machine
end

