-- ==== Sys2Proof/Machine/Setup.lean ====
section
/-! DEFINITION. Line setup: BEGIN (40_setup.md). -/

namespace Sys2Proof.Machine

/-- BEGIN (40_setup.md R59): BEGUN <- 1, configure the line, send the buffer as it stands, hold the latch, respond 0. -/
def execBegin (s : State) : Result := beginFrame Config.free s

end Sys2Proof.Machine
end

