-- ==== Sys2Proof/Machine/Transmit.lean ====
section
/-! DEFINITION. Frame transmission: TRANSMIT, alias SHOW (42_transmit.md). -/

namespace Sys2Proof.Machine

/-- TRANSMIT (42_transmit.md R71): NOT_BEGUN while BEGUN = 0, with no segment and no HostIE change (60_exceptions.md
R99); else one frame and its latch, then response 0. -/
def execTransmit (s : State) : Result :=
  if s.begun then transmitFrame Config.free s else raiseFault .notBegun s

end Sys2Proof.Machine
end

