-- ==== Sys2Proof/Machine/Dispatch.lean ====
section
/-! DEFINITION. The meaning of each command: one arm per constructor of `Instr`. -/

namespace Sys2Proof.Machine

def exec (i : Instr) (s : State) : Host.Outcome State Fault Refusal :=
  match i with
  | .beginLine => Sys2Proof.Machine.execBegin s
  | .setPixel index r g b => Sys2Proof.Machine.execSetPixel index r g b s
  | .setPixelPx index px => Sys2Proof.Machine.execSetPixelPx index px s
  | .clear => Sys2Proof.Machine.execClear s
  | .setBrightness value => Sys2Proof.Machine.execSetBrightness value s
  | .transmit => Sys2Proof.Machine.execTransmit s
  | .getCount => Sys2Proof.Machine.execGetCount s
  | .getPixel index => Sys2Proof.Machine.execGetPixel index s

end Sys2Proof.Machine
end

