-- ==== Sys2Proof/Machine/CommandPort.lean ====
section
/-! DEFINITION. The command port and the host's moves between commands (10_state.md R29, 60_exceptions.md R114,
70_reset_and_hazards.md R117); `Step.lean` only calls them. -/

namespace Sys2Proof.Machine

/-- An accepted word: its command, or ILLEGAL_COMMAND (30_encoding.md R53, 60_exceptions.md R98). Decode runs first
(R103). -/
def runWord (w : Word) (s : State) : Result :=
  match decode s.params.hasRawRead w with
  | .ok i    => exec i s
  | .error _ => raiseFault .illegalCommand s

/-- One move of the outside. A word is put on the command port when the port is free: the host holds one word at a time,
until it is accepted (R114). -/
def hostMove (move : HostMove) (rest : List HostMove) (s : State) : Result :=
  match move with
  | .present w        => if s.cmd = none then .next { s with cmd := some w, inputs := rest } else .next s
  | .writeHostIE v    => .next (hostWritesIE v { s with inputs := rest })
  | .requestInterrupt => .next (hostRequests { s with inputs := rest })
  | .setRst true      => assertRst { s with inputs := rest }
  | .setRst false     => .next { s with rst := false, inputs := rest }
  | .writePort v      => .next (platformWritesPort v { s with inputs := rest })

/-- The next move of the outside, if there is one; else the block waits, and all state survives (60_exceptions.md
R113). -/
def nextMove (s : State) : Result :=
  match s.inputs with
  | move :: rest => hostMove move rest s
  | [] => .next s

/-- An accepted word, with the event that lands at its acceptance. `rst` abandons the command there without a response
and, in a TRANSMIT, before the critical section is entered (R117); it leaves the construction state, so the command's own
effect up to then does not show (log 12). Any other event happens, and then the command runs. -/
def acceptWord (w : Word) (s : State) : Result :=
  let event := s.frameEnv.headD .quiet
  let s1 := { s with frameEnv := s.frameEnv.tail }
  if event = .rst then assertRst s1 else runWord w (hostEvent event s1)

/-- IDLE with `rst` = 0: `cmd_ready` is 1, so a presented word is accepted and run (R29). -/
def stepIdle (s : State) : Result :=
  match s.cmd with
  | some w => acceptWord w { s with cmd := none }
  | none   => nextMove s

/-- HALT: the block accepts no command; only `rst` is honoured (10_state.md R19). Else the launch is refused
(60_exceptions.md R97). -/
def stepHalted (s : State) : Result :=
  match s.inputs with
  | .setRst true :: _ => nextMove s
  | _ => .refused .launchRefused

/-- While `rst` = 1 the block holds the construction state, and a presented word stays on the port (R117). -/
def stepInReset (s : State) : Result := nextMove (construct s)

/-- A word put on the command port (what `withFetchWord` does). -/
def presentWord (w : Word) (s : State) : State := { s with cmd := some w }

end Sys2Proof.Machine
end

