-- ==== Sys2Proof/Machine/Step.lean ====
section
/-! DEFINITION. One step: a command from acceptance to completion, or one move of the outside while no command is
presented, or one segment of a frame already under way. -/

namespace Sys2Proof.Machine

def step (s : State) : Host.Outcome State Fault Refusal :=
  if s.rst then stepInReset s
  else match s.mode with
    | .idle => stepIdle s
    | .halt => stepHalted s
    | .config | .tx | .latch => tick Config.free s

/-- The word that opcode_table.json numbers as `w`, put on the command port: the block stores no program, commands come
one by one from the host (20_memory.md R43, D37). -/
def State.withFetchWord (s : State) (nbits w : Nat) : State := presentWord (tableWord nbits w) s

end Sys2Proof.Machine
end

