-- ==== Sys2Proof/Machine/Assembler.lean ====
section
/-! DEFINITION. The assembler syntax of 30_encoding.md R57 with the spellings of R58: one line of text to one command
word. It is no part of the machine; it says which word a written command is. -/

namespace Sys2Proof

/-- A token of an assembler line. -/
inductive Token where
  | word (name : List Char)
  | num (n : Nat)
  | comma
  | lpar
  | rpar
  deriving DecidableEq, Repr

namespace Assembler

/-- Everything from `;` on is a comment (R57). -/
def dropComment (line : List Char) : List Char := line.takeWhile (· ≠ ';')

/-- The value of a decimal digit. -/
def decDigit (c : Char) : Option Nat :=
  if '0' ≤ c ∧ c ≤ '9' then some (c.toNat - '0'.toNat) else none

/-- The value of a hexadecimal digit. -/
def hexDigit (c : Char) : Option Nat :=
  if '0' ≤ c ∧ c ≤ '9' then some (c.toNat - '0'.toNat)
  else if 'a' ≤ c ∧ c ≤ 'f' then some (c.toNat - 'a'.toNat + 10)
  else if 'A' ≤ c ∧ c ≤ 'F' then some (c.toNat - 'A'.toNat + 10)
  else none

/-- Digits in a base, most significant first; `none` at a character that is no digit. -/
def digits (digit : Char → Option Nat) (base : Nat) : Nat → List Char → Option Nat
  | acc, [] => some acc
  | acc, c :: cs =>
    match digit c with
    | some d => digits digit base (base * acc + d) cs
    | none   => none

/-- A number: decimal, or `0x` and hexadecimal (R57). -/
def number : List Char → Option Nat
  | '0' :: 'x' :: c :: cs => digits hexDigit 16 0 (c :: cs)
  | c :: cs => digits decDigit 10 0 (c :: cs)
  | [] => none

/-- A character of a name or a number. -/
def isWordChar (c : Char) : Bool :=
  ('a' ≤ c && c ≤ 'z') || ('A' ≤ c && c ≤ 'Z') || ('0' ≤ c && c ≤ '9') || c == '_'

/-- The token of a run of word characters: a number if it reads as one, else a name. -/
def wordToken (cs : List Char) : Token :=
  match number cs with
  | some n => .num n
  | none   => .word cs

/-- Close the run of word characters read so far (`run` is newest first). -/
def flushRun (run : List Char) (rest : List Token) : List Token :=
  if run.isEmpty then rest else wordToken run.reverse :: rest

/-- The tokens of a line without its comment; `none` at a character that no line holds. -/
def tokens : List Char → List Char → Option (List Token)
  | run, [] => some (flushRun run [])
  | run, c :: cs =>
    if isWordChar c then tokens (c :: run) cs
    else
      match tokens [] cs with
      | none => none
      | some ts =>
        if c = ' ' ∨ c = '\t' then some (flushRun run ts)
        else if c = ',' then some (flushRun run (.comma :: ts))
        else if c = '(' then some (flushRun run (.lpar :: ts))
        else if c = ')' then some (flushRun run (.rpar :: ts))
        else none

/-- A written number as an operand of w bits; an operand that does not fit its field is refused (R57). -/
def operand (w : Nat) (n : Nat) : Option (BitVec w) :=
  if n < 2 ^ w then some (BitVec.ofNat w n) else none

/-- The operands of format P. -/
def pixelOperands (index r g b : Nat) (mk : Index → Channel → Channel → Channel → Instr) : Option Instr :=
  match operand 16 index, operand 8 r, operand 8 g, operand 8 b with
  | some index, some r, some g, some b => some (mk index r g b)
  | _, _, _, _ => none

/-- The commands without operands, by every spelling of R57 and R58: SHOW is TRANSMIT. -/
def plainCommand (name : List Char) : Option Instr :=
  if name = ['B', 'E', 'G', 'I', 'N'] then some .beginLine
  else if name = ['C', 'L', 'E', 'A', 'R'] then some .clear
  else if name = ['T', 'R', 'A', 'N', 'S', 'M', 'I', 'T'] then some .transmit
  else if name = ['S', 'H', 'O', 'W'] then some .transmit
  else if name = ['G', 'E', 'T', '_', 'C', 'O', 'U', 'N', 'T'] then some .getCount
  else none

/-- The operations of the document without operands, `begin()`, `clear()`, `transmit()` (R58). -/
def plainCall (name : List Char) : Option Instr :=
  if name = ['b', 'e', 'g', 'i', 'n'] then some .beginLine
  else if name = ['c', 'l', 'e', 'a', 'r'] then some .clear
  else if name = ['t', 'r', 'a', 'n', 's', 'm', 'i', 't'] then some .transmit
  else none

/-- The commands with one number: SET_BRIGHTNESS and GET_PIXEL (R57). -/
def numberCommand (name : List Char) (n : Nat) : Option Instr :=
  if name = ['S', 'E', 'T', '_', 'B', 'R', 'I', 'G', 'H', 'T', 'N', 'E', 'S', 'S'] then
    (operand 8 n).map .setBrightness
  else if name = ['G', 'E', 'T', '_', 'P', 'I', 'X', 'E', 'L'] then (operand 16 n).map .getPixel
  else none

/-- `setBrightness(value)` (R58). -/
def numberCall (name : List Char) (n : Nat) : Option Instr :=
  if name = ['s', 'e', 't', 'B', 'r', 'i', 'g', 'h', 't', 'n', 'e', 's', 's'] then (operand 8 n).map .setBrightness
  else none

/-- `setPixel` of the document (R58). -/
def isSetPixelCall (name : List Char) : Bool := name = ['s', 'e', 't', 'P', 'i', 'x', 'e', 'l']

/-- One line's tokens as a command. -/
def parse : List Token → Option Instr
  | [.word name] => plainCommand name
  | [.word name, .lpar, .rpar] => plainCall name
  | [.word name, .num n] => numberCommand name n
  | [.word name, .lpar, .num n, .rpar] => numberCall name n
  | [.word name, .num i, .comma, .num r, .comma, .num g, .comma, .num b] =>
    if name = ['S', 'E', 'T', '_', 'P', 'I', 'X', 'E', 'L'] then pixelOperands i r g b .setPixel else none
  | [.word name, .num i, .comma, .lpar, .num r, .comma, .num g, .comma, .num b, .rpar] =>
    if name = ['S', 'E', 'T', '_', 'P', 'I', 'X', 'E', 'L', '_', 'P', 'X'] then
      pixelOperands i r g b (fun i r g b => .setPixelPx i ⟨r, g, b⟩)
    else none
  | [.word name, .lpar, .num i, .comma, .num r, .comma, .num g, .comma, .num b, .rpar] =>
    if isSetPixelCall name then pixelOperands i r g b .setPixel else none
  | [.word name, .lpar, .num i, .comma, .lpar, .num r, .comma, .num g, .comma, .num b, .rpar, .rpar] =>
    if isSetPixelCall name then pixelOperands i r g b (fun i r g b => .setPixelPx i ⟨r, g, b⟩) else none
  | _ => none

end Assembler

/-- The command of an assembler line, if the line is one. -/
def assembleInstr (line : List Char) : Option Instr :=
  (Assembler.tokens [] (Assembler.dropComment line)).bind Assembler.parse

/-- The word of an assembler line (R57, R58). -/
def assemble (line : List Char) : Option Word := (assembleInstr line).map encode

end Sys2Proof
end

