-- ==== Sys2Proof/Machine/Cycle.lean ====
section
/-! DEFINITION. The cycle-level view of a frame (42_transmit.md R80, R85): the calibrated counts, the constraint a build
must meet, and the waveform the sequencer then makes. The machine itself is at nanosecond level and uses no count.

A cycle is 10^9 / CLK_HZ ns, seldom a whole number. Times here are exact: they are counted in units of 1 / CLK_HZ ns, in
which t(C) = C × 10^9 / CLK_HZ ns and every whole number of ns are both whole. -/

namespace Sys2Proof.Machine

/-- t(C) of R80, in units of 1 / CLK_HZ ns: C × 10^9 of them, with nothing rounded. -/
def cyclesTime (c : Nat) : Nat := c * 1000000000

/-- The parameters with every time in units of 1 / CLK_HZ ns. -/
def inCycleUnits (p : Params) : Params :=
  { p with
    t1h       := p.t1h * p.clkHz
    t1l       := p.t1l * p.clkHz
    t0h       := p.t0h * p.clkHz
    t0l       := p.t0l * p.clkHz
    tol       := p.tol * p.clkHz
    tresetMin := p.tresetMin * p.clkHz
    tresetMax := p.tresetMax.map (· * p.clkHz)
    lWrite    := p.lWrite * p.clkHz }

/-- The count of a bit's HIGH (R85). -/
def highCycles (p : Params) (bit : Bool) : Nat := if bit then p.c1h else p.c0h

/-- The count of a bit's LOW (R85). -/
def lowCycles (p : Params) (bit : Bool) : Nat := if bit then p.c1l else p.c0l

/-- Every duration from t(C) to t(C) plus the write latency and the overhead lies in band(F), edges included; all times in
the one unit of `q`. -/
def calibratedSegment (q : Params) (overhead c f : Nat) : Bool :=
  inBand q f (cyclesTime c) && inBand q f (cyclesTime c + q.lWrite + overhead)

/-- The calibration constraint (R80, 70_reset_and_hazards.md R125), for a build whose per-bit overhead is at most
`overhead` units of 1 / CLK_HZ ns. How latency and overhead enter is log 22. -/
def calibrated (p : Params) (overhead : Nat) : Bool :=
  let q := inCycleUnits p
  decide (p.clkHz ≠ 0) &&
  calibratedSegment q overhead q.c1h q.t1h && calibratedSegment q overhead q.c1l q.t1l &&
  calibratedSegment q overhead q.c0h q.t0h && calibratedSegment q overhead q.c0l q.t0l &&
  decide (q.tresetMin ≤ cyclesTime q.crst)

/-- The segments of the bits at cycle level, oldest first, in units of 1 / CLK_HZ ns: `extra k` is what latency and
overhead add to the k-th segment. The last LOW is the last bit's own low and then the latch, "for at least CRST cycles":
`hold` is how much longer than that (R85, R82). -/
def cycleBits (p : Params) (extra : Nat → Nat) (hold : Nat) : Nat → List Bool → List Segment
  | _, [] => []
  | k, [bit] =>
    [⟨.high, cyclesTime (highCycles p bit) + extra k⟩,
     ⟨.low, cyclesTime (lowCycles p bit) + extra (k + 1) + cyclesTime p.crst + hold⟩]
  | k, bit :: bit' :: bits =>
    ⟨.high, cyclesTime (highCycles p bit) + extra k⟩ ::
    ⟨.low, cyclesTime (lowCycles p bit) + extra (k + 1)⟩ :: cycleBits p extra hold (k + 2) (bit' :: bits)

/-- The frame at cycle level, after an idle low of `pre`, in units of 1 / CLK_HZ ns. -/
def cycleFrame (p : Params) (extra : Nat → Nat) (hold pre : Nat) (buf : List Pixel) : List Segment :=
  ⟨.low, pre⟩ :: cycleBits p extra hold 0 (frameBits buf)

/-- The longest last LOW that a build with this overhead makes, for a hold of `hold` beyond CRST, is within TRESET_MAX_NS
where that is bounded (R79). -/
def holdFits (p : Params) (overhead hold : Nat) : Prop :=
  ∀ m, p.tresetMax = some m → ∀ bit,
    cyclesTime (lowCycles p bit) + (p.lWrite * p.clkHz + overhead) + cyclesTime p.crst + hold ≤ m * p.clkHz

/-- A trace in whole ns (00_scope.md R9) reads a cycle-level one: the same levels, each duration less than one ns from the
exact one, above it or below. -/
def readsInNs (p : Params) : List Segment → List Segment → Bool
  | [], [] => true
  | exact :: rest, whole :: rest' =>
    exact.level == whole.level && decide (whole.ns * p.clkHz < exact.ns + p.clkHz) &&
    decide (exact.ns < (whole.ns + 1) * p.clkHz) && readsInNs p rest rest'
  | _, _ => false

end Sys2Proof.Machine
end

