-- ==== Sys2Proof/Machine/Ports.lean ====
section
/-! DEFINITION. The output ports as functions of the state (10_state.md R28), and what a run shows (60_exceptions.md
R112). -/

namespace Sys2Proof.Machine

/-- `cmd_ready`: "1 exactly when SEQ.MODE = IDLE and `rst` = 0". -/
def cmdReady (s : State) : Bool := s.mode == .idle && !s.rst

/-- `dout_oe`: LINE.OE. -/
def doutOe (s : State) : Bool := s.lineOE

/-- `dout`: LINE.LVL, each observation of UNDEF being a free draw (R30). -/
def dout (φ : Free) (observation : Nat) (s : State) : Level :=
  match s.lineLvl with
  | .undef => if φ.bit observation then .high else .low
  | level  => level

/-- `host_ie_in`: the current value of HostIE. -/
def hostIeIn (s : State) : Bool := s.hostIE

/-- `fault[7:0]`. The block drives 0 on the model-only bit 5 (R24, 60_exceptions.md R101) and on the reserved bits. -/
def faultOut (s : State) : BitVec 8 := s.fault &&& 0x1F

/-- `rsp` with `rsp_valid` over one step: the response words that the step added, oldest first (R29). -/
def newResponses (s t : State) : List Word := (t.responses.take (t.responses.length - s.responses.length)).reverse

/-- `host_ie_out` with `host_ie_we` over one step: the values the step wrote, oldest first. -/
def newIeWrites (s t : State) : List Bool := (t.ieWrites.take (t.ieWrites.length - s.ieWrites.length)).reverse

/-- The line trace, oldest segment first, adjacent segments of one level merged (42_transmit.md R75). Time in which the
line is not driven, and idle time between commands, adds no segment, and `rst` keeps the trace: what the spec leaves
unsaid here is a DESIGN CHOICE, log 32. -/
def lineTrace (s : State) : List Segment := mergeSegments s.trace.reverse

end Sys2Proof.Machine
end

