-- ==== Sys2Proof/Safety.lean ====
section
/-! DEFINITION. What counts as safe: the invariant of the machine, a good final state, and the conditions on a state
under which a frame is sent. -/

namespace Sys2Proof.Machine

/-- "a faulted state is never a good final state" (60_exceptions.md R95). -/
def State.Good (s : State) : Prop := s.fault = 0#8

/-- What the outside may do during TX without breaking a duty (60_exceptions.md R114): a masked interrupt request or a host
write of 0 to HostIE. `rst` keeps the duties, but no frame is whole that it cuts. -/
def FrameEvent.keepsDuties : FrameEvent → Bool
  | .quiet | .requestInterrupt => true
  | .writeHostIE v => !v
  | .rst | .nonMaskable | .lateWrite => false

/-- The coming events keep the host's duties for k segments of TX, and `rst` stays 0 through the latch after them. In the
latch the host may take interrupts and write HostIE as it likes (42_transmit.md R82). -/
def dutifulFor : Nat → List FrameEvent → Bool
  | 0, env     => decide (env.headD .quiet ≠ .rst)
  | k + 1, env => (env.headD .quiet).keepsDuties && dutifulFor k env.tail

/-- How many segments the N pixels of a frame have, its latch not counted. -/
def frameSegments (s : State) : Nat := 48 * s.count.toNat

/-- The environment keeps its duties in the frame that comes next, and lets it end. -/
def State.Dutiful (s : State) : Prop := dutifulFor (frameSegments s) s.frameEnv = true

/-- The event during the latch of the frame that comes next. -/
def latchEvent (s : State) : FrameEvent := (s.frameEnv.drop (frameSegments s)).headD .quiet

/-- HostIE = v after an event. -/
def ieAfter (v : Bool) : FrameEvent → Bool
  | .writeHostIE new => new
  | .quiet | .rst | .nonMaskable | .lateWrite | .requestInterrupt => v

/-- The block was constructed with legal parameters: an output binding, and N > 0 pixels (R97, R116). -/
structure State.Ready (s : State) : Prop where
  bound   : ∃ b, s.bind = some b
  buf_wf  : Memory.wf s.count s.buf = true
  nonzero : s.count ≠ 0#16

/-- The invariant that construction establishes and every step keeps. -/
structure State.Inv (s : State) : Prop where
  /-- N and BIND are the elaboration's, "both fixed for the driver's lifetime" (10_state.md R14). -/
  count_eq    : s.count = s.params.n
  bind_eq     : s.bind = resolvePin s.params
  /-- BUF holds N pixels (R15). -/
  buf_wf      : Memory.wf s.count s.buf = true
  /-- "no stored value written by SET_PIXEL or SET_PIXEL_PX is ever 255" (41_buffer.md R63 law 5). -/
  never_full  : ∀ px ∈ s.buf, px.r ≠ 255#8 ∧ px.g ≠ 255#8 ∧ px.b ≠ 255#8
  /-- FAULT bits 7:6 are hardwired 0 (R24). -/
  reserved    : s.fault.getLsbD 6 = false ∧ s.fault.getLsbD 7 = false
  /-- HALT means that construction failed (R19, R97). -/
  halt_iff    : s.mode = .halt ↔ constructionFaults s.params ≠ 0#8
  /-- The port register is PORT_W bits wide. -/
  port_lt     : s.port < 2 ^ s.params.portW
  /-- "While LINE.OE = 0 the level is UNDEF" (R18). -/
  undriven    : s.lineOE = false → s.lineLvl = .undef
  /-- "From the end of BEGIN's configure step the level is always LOW or HIGH" (R18). -/
  driven      : s.lineOE = true → s.lineLvl ≠ .undef
  /-- "it is LOW whenever the block is in MODE IDLE or LATCH" (R18). -/
  rest_low    : s.mode = .idle ∨ s.mode = .latch → s.lineOE = true → s.lineLvl = .low
  /-- The bound bit of the port register is the line (20_memory.md R31, R39; 42_transmit.md R84). That no write of the
  platform changes it is the model's choice (log 15). -/
  line_port   : ∀ b, s.bind = some b → s.lineOE = true → (s.port &&& b.mask ≠ 0 ↔ s.lineLvl = .high)
  /-- The line is an output once BEGIN has configured it, and only then (R17, R18). -/
  begun_oe    : s.begun = true → s.mode ≠ .config → s.lineOE = true
  oe_begun    : s.lineOE = true → s.begun = true
  /-- Only BEGIN and TRANSMIT make the block busy, and TRANSMIT needs BEGUN (60_exceptions.md R99). -/
  busy_begun  : busy s = true → s.begun = true
  /-- SAVED_IE is written before any rule reads it (R21). -/
  tx_saved    : s.mode = .tx → s.savedIE ≠ none
  /-- SEQ.P names a pixel during TX (R19). -/
  tx_pixel    : s.mode = .tx → s.seqP.toNat < s.count.toNat
  /-- HostIE = 0 during TX, or the breach is recorded (42_transmit.md R78, R90). -/
  tx_masked   : s.mode = .tx → s.hostIE = true → s.fault.getLsbD 5 = true
  /-- While `rst` = 1 the block is in its construction state (70_reset_and_hazards.md R117). -/
  rst_held    : s.rst = true → construct s = s

end Sys2Proof.Machine
end

