-- ==== Sys2Proof/Certificates/Slice0/Obligations.lean ====
section
/-! DEFINITION. The statements for the provers, each `def Obligations.<Name> : Prop`. A statement about a value that the
spec leaves free holds for every source of free values. -/

open Sys2Proof Sys2Proof.Machine

/-! ## Construction and reset -/

/-- R116: after the construction checks pass, every element takes its reset value, and HostIE is not touched. -/
def Obligations.ConstructionSetsResetValues : Prop :=
  ∀ s : Machine.State, constructionFaults s.params = 0#8 →
    (construct s).count = s.params.n ∧ (construct s).bind = resolvePin s.params ∧
    (construct s).buf = List.replicate s.params.n.toNat ⟨0, 0, 0⟩ ∧ (construct s).bri = 255#8 ∧
    (construct s).begun = false ∧ (construct s).lineOE = false ∧ (construct s).lineLvl = .undef ∧
    (construct s).mode = .idle ∧ (construct s).savedIE = none ∧ (construct s).fault = 0#8 ∧
    (construct s).hostIE = s.hostIE

/-- State.reset is what construction leaves (R116) for the elaboration of log 2; that HostIE = 1 and SEQ is (0, G, 0, HI)
there is the model's choice (logs 3 and 4), and no clause is about them. -/
def Obligations.ResetStateIsConstructed : Prop :=
  construct Machine.State.reset = Machine.State.reset ∧ cmdReady Machine.State.reset = true ∧
  Machine.State.reset.bri = 255#8 ∧ Machine.State.reset.begun = false ∧ Machine.State.reset.lineOE = false ∧
  Machine.State.reset.lineLvl = .undef ∧ Machine.State.reset.savedIE = none ∧ Machine.State.reset.fault = 0#8 ∧
  (∀ px ∈ Machine.State.reset.buf, px = Pixel.black) ∧
  Machine.State.reset.buf.length = Machine.State.reset.count.toNat

/-- R97: both checks are made, each failing one sets its bit, and any failure halts the block: the line is undriven and
`cmd_ready` is 0. The last clause is the model's reading (log 13): R97's refused launch is the refusal of each step, but for
the one that asserts `rst`, which R19 lets leave HALT. -/
def Obligations.ConstructionChecksBothFaults : Prop :=
  ∀ s : Machine.State,
    (construct s).fault.getLsbD 0 = decide (s.params.n = 0#16) ∧
    (construct s).fault.getLsbD 1 = decide (resolvePin s.params = none) ∧
    (∀ k, 2 ≤ k → (construct s).fault.getLsbD k = false) ∧
    ((construct s).mode = .halt ↔ s.params.n = 0#16 ∨ resolvePin s.params = none) ∧
    ((construct s).mode = .halt → (construct s).lineOE = false ∧ cmdReady (construct s) = false) ∧
    ((construct s).mode = .halt → s.rst = false → (∀ rest, s.inputs ≠ .setRst true :: rest) →
      step (construct s) = .refused .launchRefused)

/-- A halted block refuses every step but an `rst`, and `rst` brings it to IDLE exactly when the parameters are valid
(R19, R97). That the step itself is where the launch is refused is the model's reading (log 13). -/
def Obligations.HaltedBlockOnlyHonoursRst : Prop :=
  ∀ s : Machine.State, s.rst = false → s.mode = .halt →
    ((∀ rest, s.inputs ≠ .setRst true :: rest) → step s = .refused .launchRefused) ∧
    (∀ rest, s.inputs = .setRst true :: rest →
      ∃ t, step s = .next t ∧ t.rst = true ∧ (t.mode = .idle ↔ s.params.n ≠ 0#16 ∧ resolvePin s.params ≠ none))

/-- R117: while `rst` = 1 the block holds the construction state and accepts nothing; asserted in any MODE it abandons
the running command without a response, and with the critical section open it first writes HostIE <- SAVED_IE: at a
command's acceptance, in the middle of a frame or its configure step or latch, and between commands. How much of a segment
`rst` cuts is the model's choice (log 12), and no clause is about it. -/
def Obligations.RstAbandonsAndRestores : Prop :=
  (∀ s t : Machine.State, s.rst = true → step s = .next t →
    cmdReady s = false ∧ construct t = t ∧ t.responses = s.responses ∧ (∀ w, s.cmd = some w → t.cmd = some w)) ∧
  (∀ (s : Machine.State) (rest : List FrameEvent) (v : Bool), s.rst = false → busy s = true →
    s.frameEnv = .rst :: rest → (s.mode = .tx → s.savedIE = some v) →
    ∃ t, step s = .next t ∧ t.rst = true ∧ construct t = t ∧ t.responses = s.responses ∧ t.lineOE = false ∧
      t.hostIE = (if s.mode = .tx then v else s.hostIE) ∧
      t.ieWrites = (if s.mode = .tx then v :: s.ieWrites else s.ieWrites)) ∧
  (∀ (s : Machine.State) (rest : List FrameEvent) (w : Word), s.rst = false → s.mode = .idle → s.cmd = some w →
    s.frameEnv = .rst :: rest →
    ∃ t, step s = .next t ∧ t.rst = true ∧ construct t = t ∧ t.cmd = none ∧ t.responses = s.responses ∧
      t.lineOE = false ∧ t.hostIE = s.hostIE ∧ t.ieWrites = s.ieWrites ∧ t.port = s.port) ∧
  (∀ (s : Machine.State) (rest : List HostMove), s.rst = false → (s.mode = .idle ∧ s.cmd = none ∨ s.mode = .halt) →
    s.inputs = .setRst true :: rest →
    ∃ t, step s = .next t ∧ t.rst = true ∧ construct t = t ∧ t.responses = s.responses ∧ t.hostIE = s.hostIE)

/-! ## Encoding -/

/-- Words written out from the formats of R46-R49, and what R52 and R53 make of them. -/
def Obligations.SampleWordsDecode : Prop :=
  decode true 0x0100000000000000 = .ok .beginLine ∧
  decode true 0x0200000000FF0000 = .ok (.setPixel 0 255 0 0) ∧
  decode true 0x02FFFF0000090909 = .ok (.setPixel 65535 9 9 9) ∧
  decode true 0x0300010000C86403 = .ok (.setPixelPx 1 ⟨200, 100, 3⟩) ∧
  decode true 0x0400000000000000 = .ok .clear ∧
  decode true 0x0500000000000080 = .ok (.setBrightness 128) ∧
  decode true 0x0600000000000000 = .ok .transmit ∧
  decode true 0x0700000000000000 = .ok .getCount ∧
  decode true 0x0800010000000000 = .ok (.getPixel 1) ∧
  decode false 0x0800010000000000 = .error .rawReadAbsent ∧
  decode true 0x0200008000000000 = .error .reservedBits ∧
  decode true 0x0900000000000000 = .error .unassignedOpcode

/-- Decoding the word of a command gives the command back, with every operand, exactly in the builds that have it. -/
def Obligations.DecodeOfEncodeIsTheCommand : Prop :=
  ∀ (hasRawRead : Bool) (i : Instr),
    (i.wellFormed hasRawRead = true → decode hasRawRead (encode i) = .ok i) ∧
    (i.wellFormed hasRawRead = false → decode hasRawRead (encode i) = .error .rawReadAbsent)

/-- A word has at most one meaning: whatever a word decodes to is a command of the build, and is written by that word
alone. -/
def Obligations.EncodeOfDecodeIsTheWord : Prop :=
  ∀ (hasRawRead : Bool) (w : Word) (i : Instr), decode hasRawRead w = .ok i →
    encode i = w ∧ i.wellFormed hasRawRead = true

/-- R50: "a word w is the command when (w AND mask) = match", for every row of the opcode map; GET_PIXEL exists only when
HAS_RAW_READ = 1. The rows are the table's, by opcode. -/
def Obligations.OpcodeMapSelectsTheCommand : Prop :=
  ([.beginLine, .setPixel 0 0 0 0, .setPixelPx 0 ⟨0, 0, 0⟩, .clear, .setBrightness 0, .transmit, .getCount,
      .getPixel 0] : List Instr).map (fun i => (i.opcode, i.matchWord, i.maskWord)) =
    [(0x01#8, 0x0100000000000000#64, 0xFFFFFFFFFFFFFFFF#64), (0x02#8, 0x0200000000000000#64, 0xFF0000FFFF000000#64),
     (0x03#8, 0x0300000000000000#64, 0xFF0000FFFF000000#64), (0x04#8, 0x0400000000000000#64, 0xFFFFFFFFFFFFFFFF#64),
     (0x05#8, 0x0500000000000000#64, 0xFFFFFFFFFFFFFF00#64), (0x06#8, 0x0600000000000000#64, 0xFFFFFFFFFFFFFFFF#64),
     (0x07#8, 0x0700000000000000#64, 0xFFFFFFFFFFFFFFFF#64), (0x08#8, 0x0800000000000000#64, 0xFF0000FFFFFFFFFF#64)] ∧
  (∀ (hasRawRead : Bool) (w : Word) (i : Instr), i.wellFormed hasRawRead = true →
    (w &&& i.maskWord = i.matchWord ↔ ∃ j, decode hasRawRead w = .ok j ∧ j.opcode = i.opcode)) ∧
  (∀ (hasRawRead : Bool) (w : Word) (index : Index), decode hasRawRead w = .ok (.getPixel index) → hasRawRead = true)

/-- R53: a word is illegal exactly when its opcode is unassigned, a reserved bit of its format is 1, or it is GET_PIXEL in
a build without the raw read. -/
def Obligations.IllegalWordsAreExactlyThese : Prop :=
  ∀ (hasRawRead : Bool) (w : Word),
    (∃ e, decode hasRawRead w = .error e) ↔
      ((w.extractLsb' 56 8 = 0x00#8 ∨ 0x09#8 ≤ w.extractLsb' 56 8) ∨
       ((w.extractLsb' 56 8 = 0x01#8 ∨ w.extractLsb' 56 8 = 0x04#8 ∨ w.extractLsb' 56 8 = 0x06#8 ∨
         w.extractLsb' 56 8 = 0x07#8) ∧ w.extractLsb' 0 56 ≠ 0#56) ∨
       ((w.extractLsb' 56 8 = 0x02#8 ∨ w.extractLsb' 56 8 = 0x03#8) ∧ w.extractLsb' 24 16 ≠ 0#16) ∨
       (w.extractLsb' 56 8 = 0x05#8 ∧ w.extractLsb' 8 48 ≠ 0#48) ∨
       (w.extractLsb' 56 8 = 0x08#8 ∧ (w.extractLsb' 0 40 ≠ 0#40 ∨ hasRawRead = false)))

/-- R57 and R58: in every form that has operands, a command or a call of the document, a line's tokens are the command of
those operands when each fits its field, and are refused otherwise: an index over 65535, a channel or value over 255. The
forms without operands are their commands, and SHOW is the word of TRANSMIT. -/
def Obligations.AssemblerRefusesWhatDoesNotFit : Prop :=
  (∀ i r g b : Nat,
    let set := if i ≤ 65535 ∧ r ≤ 255 ∧ g ≤ 255 ∧ b ≤ 255 then
      some (Instr.setPixel (BitVec.ofNat 16 i) (BitVec.ofNat 8 r) (BitVec.ofNat 8 g) (BitVec.ofNat 8 b)) else none
    let setPx := if i ≤ 65535 ∧ r ≤ 255 ∧ g ≤ 255 ∧ b ≤ 255 then
      some (Instr.setPixelPx (BitVec.ofNat 16 i) ⟨BitVec.ofNat 8 r, BitVec.ofNat 8 g, BitVec.ofNat 8 b⟩) else none
    Assembler.parse [.word "SET_PIXEL".toList, .num i, .comma, .num r, .comma, .num g, .comma, .num b] = set ∧
    Assembler.parse [.word "setPixel".toList, .lpar, .num i, .comma, .num r, .comma, .num g, .comma, .num b, .rpar] =
      set ∧
    Assembler.parse [.word "SET_PIXEL_PX".toList, .num i, .comma, .lpar, .num r, .comma, .num g, .comma, .num b, .rpar] =
      setPx ∧
    Assembler.parse [.word "setPixel".toList, .lpar, .num i, .comma, .lpar, .num r, .comma, .num g, .comma, .num b,
      .rpar, .rpar] = setPx) ∧
  (∀ v : Nat,
    let set := if v ≤ 255 then some (Instr.setBrightness (BitVec.ofNat 8 v)) else none
    Assembler.parse [.word "SET_BRIGHTNESS".toList, .num v] = set ∧
    Assembler.parse [.word "setBrightness".toList, .lpar, .num v, .rpar] = set) ∧
  (∀ i : Nat, Assembler.parse [.word "GET_PIXEL".toList, .num i] =
    if i ≤ 65535 then some (Instr.getPixel (BitVec.ofNat 16 i)) else none) ∧
  (["BEGIN", "CLEAR", "TRANSMIT", "SHOW", "GET_COUNT"].map fun line => assembleInstr line.toList) =
    [some .beginLine, some .clear, some .transmit, some .transmit, some .getCount] ∧
  (["begin()", "clear()", "transmit()"].map fun line => assembleInstr line.toList) =
    [some .beginLine, some .clear, some .transmit] ∧
  assemble "SHOW".toList = some 0x0600000000000000 ∧ assemble "SHOW".toList = assemble "TRANSMIT".toList

/-! ## The command port -/

/-- A presented word that decodes to a command is accepted by an idle block and run to completion: with the word taken off
the port (R29), the step is `exec` of the decoded command, after the event that lands at the acceptance (none, when the
environment does nothing), or `rst` abandons the command (R117, log 12). -/
def Obligations.AcceptedCommandIsExecuted : Prop :=
  ∀ (s : Machine.State) (w : Word) (i : Instr), s.rst = false → s.mode = .idle → s.cmd = some w →
    decode s.params.hasRawRead w = .ok i →
    cmdReady s = true ∧ (s.frameEnv = [] → step s = exec i { s with cmd := none }) ∧
    (s.frameEnv.headD .quiet ≠ .rst →
      step s = exec i (hostEvent (s.frameEnv.headD .quiet) { s with cmd := none, frameEnv := s.frameEnv.tail })) ∧
    (s.frameEnv.headD .quiet = .rst → step s = assertRst { s with cmd := none, frameEnv := s.frameEnv.tail })

/-- R98: an accepted illegal word sets FAULT bit 2, responds 0, changes nothing else, and the block stays ready; an event
of the host's at the acceptance changes HostIE and the host's own side as it does anyway. -/
def Obligations.IllegalWordRaisesIllegalCommand : Prop :=
  ∀ (s : Machine.State) (w : Word) (e : Illegal), s.rst = false → s.mode = .idle → s.cmd = some w →
    decode s.params.hasRawRead w = .error e → s.frameEnv.headD .quiet ≠ .rst →
    ∃ t, step s = .next t ∧ cmdReady t = true ∧
      t = { s with cmd := none, fault := s.fault ||| 0x04#8, responses := 0 :: s.responses,
                   frameEnv := s.frameEnv.tail, hostIE := ieAfter s.hostIE (s.frameEnv.headD .quiet),
                   hostPending := t.hostPending, hostTaken := t.hostTaken } ∧
      (s.frameEnv.headD .quiet = .quiet → t.hostPending = s.hostPending ∧ t.hostTaken = s.hostTaken)

/-- R124, R29: while BEGIN or TRANSMIT runs, `cmd_ready` is 0 and a presented word stays on the port. -/
def Obligations.BusyBlockHoldsTheCommand : Prop :=
  ∀ s t : Machine.State, s.rst = false → busy s = true → step s = .next t →
    cmdReady s = false ∧ t.cmd = s.cmd ∧ t.inputs = s.inputs

/-- R29, R56: a command that is not cut by `rst` completes with exactly one response. -/
def Obligations.OneResponsePerCommand : Prop :=
  ∀ (i : Instr) (s t : Machine.State), s.rst = false → exec i s = .next t → t.rst = false →
    ∃ w, t.responses = w :: s.responses ∧ (w ≠ 0 → i = .getCount ∨ ∃ index, i = .getPixel index)

/-- R113: with no command and no move of the outside, an idle block keeps all its state. The list of moves is the model's
own (log 14). -/
def Obligations.IdleBlockWaits : Prop :=
  ∀ s : Machine.State, s.rst = false → s.mode = .idle → s.cmd = none → s.inputs = [] → step s = .next s

/-! ## Scaling and the buffer commands -/

/-- R62: the exact product, at most 65025, shifted right by 8. -/
def Obligations.ScaleTruncatesTheProduct : Prop :=
  ∀ c br : Channel, c.toNat * br.toNat ≤ 65025 ∧ (scale c br).toNat = c.toNat * br.toNat / 256

/-- The nine laws of R63; law 5 also of every channel that SET_PIXEL and SET_PIXEL_PX store. -/
def Obligations.ScaleLawsHold : Prop :=
  (∀ c br : Channel, scale 0 br = 0 ∧ scale c 0 = 0) ∧
  (∀ c br : Channel, scale c br = scale br c) ∧
  (∀ c c' br br' : Channel, c ≤ c' → br ≤ br' → scale c br ≤ scale c' br') ∧
  (∀ c br : Channel, scale c br ≤ c ∧ scale c br ≤ br ∧ (0 < c → 0 < br → scale c br < c ∧ scale c br < br)) ∧
  (∀ c br : Channel, scale c br ≤ 254 ∧ scale c br ≠ 255) ∧ scale 255 255 = 254 ∧
  (∀ (px : Pixel) (br : Channel),
    (scalePixel px br).r ≠ 255 ∧ (scalePixel px br).g ≠ 255 ∧ (scalePixel px br).b ≠ 255) ∧
  (∀ c : Channel, 1 ≤ c → scale c 255 = c - 1) ∧ scale 0 255 = 0 ∧
  (∀ c : Channel, scale c 128 = c >>> 1) ∧
  (∀ c : Channel, scale c 1 = 0) ∧
  (∀ c br : Channel, 1 ≤ scale c br ↔ 256 ≤ c.toNat * br.toNat)

/-- R64, R65: in range, either form stores the three channels scaled by the current brightness, responds 0, and changes
nothing else. -/
def Obligations.SetPixelStoresTheScaledPixel : Prop :=
  ∀ (s : Machine.State) (index : Index) (r g b : Channel), index.toNat < s.count.toNat →
    exec (.setPixel index r g b) s = .next { s with
      buf := s.buf.set index.toNat ⟨scale r s.bri, scale g s.bri, scale b s.bri⟩, responses := 0 :: s.responses } ∧
    exec (.setPixelPx index ⟨r, g, b⟩) s = .next { s with
      buf := s.buf.set index.toNat ⟨scale r s.bri, scale g s.bri, scale b s.bri⟩, responses := 0 :: s.responses }

/-- R102: out of range, either form is a no-op: it sets no FAULT bit and responds 0, the same response as an in-range
write. -/
def Obligations.SetPixelOutOfRangeIsIgnored : Prop :=
  ∀ (i : Instr) (s : Machine.State) (index : Index) (px : Pixel),
    (i = .setPixel index px.r px.g px.b ∨ i = .setPixelPx index px) →
    (s.count.toNat ≤ index.toNat → exec i s = .next { s with responses := 0 :: s.responses }) ∧
    ∃ t, exec i s = .next t ∧ t.responses = 0 :: s.responses ∧ t.fault = s.fault

/-- R70: a write at an in-range index changes that pixel only, a second write replaces the first entirely, and an
out-of-range write leaves the whole buffer as it was; in either form, the two in any combination. -/
def Obligations.SetPixelIsLocal : Prop :=
  ∀ (i j : Instr) (s t u : Machine.State) (index : Index) (px px' : Pixel), Memory.wf s.count s.buf = true →
    (i = .setPixel index px.r px.g px.b ∨ i = .setPixelPx index px) →
    (j = .setPixel index px'.r px'.g px'.b ∨ j = .setPixelPx index px') →
    exec i s = .next t → exec j t = .next u →
    (∀ k, k ≠ index.toNat → Memory.read t.buf k = Memory.read s.buf k ∧ Memory.read u.buf k = Memory.read s.buf k) ∧
    (index.toNat < s.count.toNat → Memory.read t.buf index.toNat = some (scalePixel px s.bri) ∧
      Memory.read u.buf index.toNat = some (scalePixel px' s.bri)) ∧
    (s.count.toNat ≤ index.toNat → t.buf = s.buf ∧ u.buf = s.buf)

/-- R66: CLEAR sets all N pixels to (0, 0, 0) whatever the brightness, responds 0, and changes nothing else. -/
def Obligations.ClearBlackensEveryPixel : Prop :=
  ∀ s : Machine.State, Memory.wf s.count s.buf = true →
    exec .clear s = .next { s with
      buf := List.replicate s.count.toNat ⟨0, 0, 0⟩, responses := 0 :: s.responses }

/-- R67: SET_BRIGHTNESS replaces the brightness, responds 0, and changes nothing else: the buffer is not touched. -/
def Obligations.SetBrightnessReplacesTheScalar : Prop :=
  ∀ (s : Machine.State) (value : Channel),
    exec (.setBrightness value) s = .next { s with bri := value, responses := 0 :: s.responses }

/-- R68: a stored pixel changes only by SET_PIXEL or SET_PIXEL_PX at its index, or by CLEAR (and by construction, when
`rst` cuts the command). -/
def Obligations.PixelsChangeOnlyByWrites : Prop :=
  ∀ (i : Instr) (s t : Machine.State) (j : Nat), s.rst = false → exec i s = .next t → t.rst = false →
    Memory.read t.buf j = Memory.read s.buf j ∨ i = .clear ∨
    (∃ index r g b, i = .setPixel index r g b ∧ j = index.toNat) ∨
    (∃ index px, i = .setPixelPx index px ∧ j = index.toNat)

/-- R69: the buffer commands complete, with no wire activity: LINE, HostIE, SAVED_IE, BEGUN, MODE, the port register, the
trace and FAULT keep their values. -/
def Obligations.BufferCommandsTouchNoWire : Prop :=
  ∀ (i : Instr) (s : Machine.State),
    ((∃ index r g b, i = .setPixel index r g b) ∨ (∃ index px, i = .setPixelPx index px) ∨ i = .clear ∨
      ∃ value, i = .setBrightness value) →
    ∃ t, exec i s = .next t ∧ t.lineOE = s.lineOE ∧ t.lineLvl = s.lineLvl ∧ t.port = s.port ∧ t.trace = s.trace ∧
      t.hostIE = s.hostIE ∧ t.savedIE = s.savedIE ∧ t.ieWrites = s.ieWrites ∧ t.begun = s.begun ∧
      t.mode = s.mode ∧ t.fault = s.fault ∧ t.count = s.count ∧ t.bind = s.bind ∧ t.params = s.params

/-! ## The read accessors -/

/-- R91: the response is N, zero-extended, and nothing else changes. -/
def Obligations.GetCountAnswersN : Prop :=
  ∀ s : Machine.State,
    exec .getCount s = .next { s with responses := BitVec.ofNat 64 s.count.toNat :: s.responses }

/-- R92: in range, the response is the stored pixel as R in 23:16, G in 15:8, B in 7:0 and zeros above; nothing else
changes. -/
def Obligations.GetPixelAnswersTheStoredPixel : Prop :=
  ∀ (s : Machine.State) (index : Index) (px : Pixel), s.params.hasRawRead = true → index.toNat < s.count.toNat →
    Memory.read s.buf index.toNat = some px →
    exec (.getPixel index) s = .next { s with
      responses := BitVec.ofNat 64 (65536 * px.r.toNat + 256 * px.g.toNat + px.b.toNat) :: s.responses }

/-- R100: out of range, GET_PIXEL sets FAULT bit 4, responds 0, and changes nothing else. -/
def Obligations.GetPixelOutOfRangeFaults : Prop :=
  ∀ (s : Machine.State) (index : Index), s.params.hasRawRead = true → s.count.toNat ≤ index.toNat →
    exec (.getPixel index) s = .next { s with fault := s.fault ||| 0x10#8, responses := 0 :: s.responses }

/-- R93: the read accessors complete and change nothing but the response, and FAULT bit 4 for a read out of range, which
returns 0; a read in any later state with the same buffer returns the same value. -/
def Obligations.ReadsHaveNoSideEffect : Prop :=
  ∀ (i : Instr) (s : Machine.State), Memory.wf s.count s.buf = true → s.params.hasRawRead = true →
    (i = .getCount ∨ ∃ index, i = .getPixel index) →
    ∃ w f, exec i s = .next { s with responses := w :: s.responses, fault := s.fault ||| f } ∧
      (∀ u : Machine.State, u.buf = s.buf → u.count = s.count → u.params = s.params →
        exec i u = .next { u with responses := w :: u.responses, fault := u.fault ||| f }) ∧
      (f = 0 ∨ (w = 0 ∧ f = 0x10#8 ∧ ∃ index, i = .getPixel index ∧ s.count.toNat ≤ index.toNat))

/-- R41: "a GET_PIXEL returns the value of the last SET_PIXEL, SET_PIXEL_PX or CLEAR before it that wrote that index". -/
def Obligations.ReadReturnsTheLastWrite : Prop :=
  ∀ (s t : Machine.State) (index : Index) (px : Pixel), Memory.wf s.count s.buf = true →
    s.params.hasRawRead = true → index.toNat < s.count.toNat →
    (exec (.setPixelPx index px) s = .next t ∨ exec (.setPixel index px.r px.g px.b) s = .next t →
      exec (.getPixel index) t = .next (respond (packPixel (scalePixel px s.bri)) t)) ∧
    (exec .clear s = .next t → exec (.getPixel index) t = .next (respond 0 t))

/-! ## Faults -/

/-- R95: raising a fault sets its bit, keeps the other bits, responds 0, and leaves every other element unchanged. -/
def Obligations.RaiseSetsOneBitAndResponds : Prop :=
  ∀ (reason : FaultReason) (s : Machine.State),
    ∃ f, raiseFault reason s = .next { s with fault := f, responses := 0 :: s.responses } ∧
      f.getLsbD reason.code = true ∧ ∀ k, k ≠ reason.code → f.getLsbD k = s.fault.getLsbD k

/-- R99: TRANSMIT while BEGUN = 0 sets FAULT bit 3, responds 0, and changes nothing else: no segment, no HostIE change;
the line is undriven. -/
def Obligations.TransmitBeforeBeginFaults : Prop :=
  ∀ s : Machine.State, s.begun = false →
    exec .transmit s = .next { s with fault := s.fault ||| 0x08#8, responses := 0 :: s.responses } ∧
    (s.Inv → s.lineOE = false)

/-- R23: FAULT has one bit per reason, and a bit, once set, stays set through every step until `rst`. (What the `fault`
output shows of it is `FaultOutputHidesModelOnlyBit`.) -/
def Obligations.FaultBitsAreSticky : Prop :=
  (∀ a b : FaultReason, a.code = b.code → a = b) ∧
  (∀ (s t : Machine.State) (k : Nat), s.rst = false → step s = .next t → t.rst = false →
    s.fault.getLsbD k = true → t.fault.getLsbD k = true)

/-- R24, R101: `fault[5]` is always 0, the reserved bits read 0, and the other bits show FAULT. -/
def Obligations.FaultOutputHidesModelOnlyBit : Prop :=
  ∀ (s : Machine.State) (k : Nat), (faultOut s).getLsbD k = (decide (k < 5) && s.fault.getLsbD k)

/-- R90, R101: a segment of TX that the environment disturbs (HostIE set or left at 1, a non-maskable event, a late
write that begins it or ends it) records TIMING_VIOLATION, shows nothing on `fault[5]`, and the frame goes on; the
segment may have any length, the last LOW too (the latch then tops that up: log 34). That a disturbance reaches these
segments and no later ones is the model's reading (log 11). -/
def Obligations.DisturbedSegmentRecordsViolation : Prop :=
  ∀ (φ : Free) (s : Machine.State) (event : FrameEvent) (rest : List FrameEvent), s.Ready → s.mode = .tx →
    s.savedIE ≠ none → s.seqP.toNat < s.count.toNat → s.frameEnv = event :: rest → event ≠ .rst →
    (event.interferes = true ∨ endsLate { s with frameEnv := rest } = true ∨ ieAfter s.hostIE event = true) →
    (∃ t, tick φ s = .next t ∧ t.fault.getLsbD 5 = true ∧ (faultOut t).getLsbD 5 = false ∧
      (t.mode = .tx ∨ t.mode = .latch)) ∧
    ∀ ns, ∃ (ψ : Free) (t : Machine.State) (level : Level), tick ψ s = .next t ∧ t.trace = ⟨level, ns⟩ :: s.trace

/-! ## The output port and the interrupt link -/

/-- R84: set-high ORs PIN_MASK into the port register, set-low clears its bit, and every other bit is preserved. -/
def Obligations.OutputWriteChangesOneBit : Prop :=
  ∀ (s : Machine.State) (b : Binding) (k : Nat), s.port < 2 ^ s.params.portW → k < s.params.portW → b.mask = 2 ^ k →
    (portWrite b .high s).port = s.port ||| b.mask ∧
    (∀ j, (portWrite b .low s).port.testBit j = (decide (j ≠ k) && s.port.testBit j)) ∧
    (s.lineOE = true → (portWrite b .high s).lineLvl = .high ∧ (portWrite b .low s).lineLvl = .low)

/-- R115: no command, whatever the environment's events meanwhile, changes a port bit outside PIN_MASK. That the platform
itself writes no port bit while a command is under way is the model's choice (log 33). -/
def Obligations.NoCommandWritesAnotherPortBit : Prop :=
  ∀ (i : Instr) (s t : Machine.State) (b : Binding) (j : Nat), s.bind = some b → s.port < 2 ^ s.params.portW →
    exec i s = .next t → b.mask.testBit j = false → t.port.testBit j = s.port.testBit j

/-- R78: before the first rising edge HostIE is saved and cleared with no host interrupt taken; and in a frame whose
environment keeps its duties (it may request interrupts and write 0) HostIE stays 0 to the restore, no request is taken
before it, and no fault is recorded. -/
def Obligations.CriticalSectionMasksTheHost : Prop :=
  ∀ (φ : Free) (s t : Machine.State) (k : Nat),
    (startFrame φ s).savedIE = some s.hostIE ∧ (startFrame φ s).hostIE = false ∧
    (startFrame φ s).hostTaken = s.hostTaken ∧
    (∃ d d', (startFrame φ s).trace = ⟨.low, d'⟩ :: ⟨.low, d⟩ :: s.trace) ∧
    (s.count ≠ 0#16 → s.Dutiful → runTicks φ k (startFrame φ s) = .next t → t.mode = .tx →
      t.hostIE = false ∧ t.savedIE = some s.hostIE ∧ t.hostTaken = s.hostTaken ∧ t.fault = s.fault)

/-- R81, R115: BEGIN and TRANSMIT leave HostIE as it was at entry, on every path to their end, a frame cut by `rst` and a
disturbed one among them, unless the host itself writes HostIE meanwhile. -/
def Obligations.HostIERestoredOnAllPaths : Prop :=
  ∀ (i : Instr) (s t : Machine.State), (∀ v, FrameEvent.writeHostIE v ∉ s.frameEnv) → exec i s = .next t →
    t.hostIE = s.hostIE

/-- R107: outside BEGIN's and TRANSMIT's frames the block never writes HostIE. -/
def Obligations.OnlyFramesWriteHostIE : Prop :=
  ∀ (i : Instr) (s t : Machine.State), exec i s = .next t → t.ieWrites ≠ s.ieWrites →
    i = .beginLine ∨ (i = .transmit ∧ s.begun = true)

/-- R107 leaves a request made while HostIE = 0 to HOST_PENDING_POLICY: it is kept and taken at the restoration, or lost.
The pending bit and the count of interrupts taken, of which the clauses speak, are the model's choice (log 16). -/
def Obligations.MaskedRequestIsKeptOrLost : Prop :=
  ∀ s : Machine.State, s.hostIE = false →
    (s.params.pending = .lose → hostRequests s = s) ∧
    (s.params.pending = .keep →
      (hostRequests s).hostPending = true ∧ (hostRequests s).hostTaken = s.hostTaken ∧
      (blockWritesIE true (hostRequests s)).hostPending = false ∧
      (blockWritesIE true (hostRequests s)).hostTaken = s.hostTaken + 1)

/-! ## The waveform -/

/-- R73: the stream has 24 bits a pixel, the pixels in index order, each as G, R, B, each byte from bit 7 to bit 0. -/
def Obligations.FrameBitsAreInWireOrder : Prop :=
  ∀ buf : List Pixel, (frameBits buf).length = 24 * buf.length ∧
    ∀ (i : Nat) (px : Pixel) (b : Nat), buf[i]? = some px → b < 8 →
      (frameBits buf)[24 * i + (7 - b)]? = some (px.g.getLsbD b) ∧
      (frameBits buf)[24 * i + 8 + (7 - b)]? = some (px.r.getLsbD b) ∧
      (frameBits buf)[24 * i + 16 + (7 - b)]? = some (px.b.getLsbD b)

/-- R20: from (0, 0, 7, HI) the sequencer visits the 24N bit positions, each once, high segment then low segment: pixels
ascending, channels G, R, B, bits 7 to 0; the last of them is where it goes to LATCH. -/
def Obligations.SequencerVisitsEveryBitOnce : Prop :=
  ∀ (φ : Free) (s : Machine.State) (k : Nat), k < 24 * s.count.toNat →
    (advance^[2 * k] (startFrame φ s)).seqP.toNat = k / 24 ∧
    (advance^[2 * k] (startFrame φ s)).seqK.num = k / 8 % 3 ∧
    (advance^[2 * k] (startFrame φ s)).seqB.toNat = 7 - k % 8 ∧
    (advance^[2 * k] (startFrame φ s)).seqPh = .hi ∧
    advance^[2 * k + 1] (startFrame φ s) = { advance^[2 * k] (startFrame φ s) with seqPh := .lo } ∧
    (atLastBit (advance^[2 * k] (startFrame φ s)) = true ↔ k + 1 = 24 * s.count.toNat)

/-- R87: the two HIGH bands are disjoint exactly when T1H_NS − T0H_NS > 2 × TOL_NS. -/
def Obligations.HighBandsDisjointExactlyWhenDecodable : Prop :=
  ∀ p : Params, p.t0h ≤ p.t1h →
    (decodable p = true ↔ ∀ h, ¬ (inBand p p.t1h h = true ∧ inBand p p.t0h h = true))

/-- R88: every trace that R75 admits for a buffer decodes to the buffer's bits, and the bits regroup to the buffer. -/
def Obligations.AdmittedTraceDecodesToTheBuffer : Prop :=
  ∀ (p : Params) (buf : List Pixel) (segs : List Segment), decodable p = true →
    admitsFrame p (frameBits buf) segs = true →
    decodeFrame p segs = (frameBits buf).map some ∧ regroup buf.length (frameBits buf) = buf ∧
    risingEdges segs = 24 * buf.length

/-- R83's span, from the first rising edge to the last falling edge, under the default timing. -/
def Obligations.CriticalSpanIsBounded : Prop :=
  ∀ (p : Params) (buf : List Pixel) (pre last : Segment) (span : List Segment),
    p.t1h = 800 → p.t1l = 450 → p.t0h = 400 → p.t0l = 850 → p.tol = 150 →
    admitsFrame p (frameBits buf) (pre :: span ++ [last]) = true →
    (24 * buf.length - 1) * 950 + 250 ≤ totalNs span ∧ totalNs span ≤ (24 * buf.length - 1) * 1550 + 950

/-- R89: under the default timing a frame lasts at least (24N-1) × 950 + 250 + TRESET_MIN_NS, with no upper bound. -/
def Obligations.FrameDurationIsBoundedBelow : Prop :=
  ∀ (p : Params) (buf : List Pixel), p.t1h = 800 → p.t1l = 450 → p.t0h = 400 → p.t0l = 850 → p.tol = 150 →
    p.tresetMax = none → buf ≠ [] →
    (∀ segs, admitsFrame p (frameBits buf) segs = true →
      (24 * buf.length - 1) * 950 + 250 + p.tresetMin ≤ totalNs segs) ∧
    (∀ bound, ∃ segs, admitsFrame p (frameBits buf) segs = true ∧ bound ≤ totalNs segs)

/-- R85: under the calibration constraint of R80 the cycle-level sequencer's waveform is a trace that R75 admits, exactly
in units of 1 / CLK_HZ ns, and so is every reading of it in whole ns: for every idle low and every latch of at least CRST
cycles, as long as a bounded TRESET_MAX_NS allows. How latency and overhead enter a segment, and the reading in whole ns,
are the model's choice (log 22). -/
def Obligations.CalibratedCycleFrameIsAdmitted : Prop :=
  ∀ (p : Params) (overhead hold pre : Nat) (extra : Nat → Nat) (buf : List Pixel), buf ≠ [] →
    calibrated p overhead = true → (∀ k, extra k ≤ p.lWrite * p.clkHz + overhead) → holdFits p overhead hold →
    admitsFrame (inCycleUnits p) (frameBits buf) (cycleFrame p extra hold pre buf) = true ∧
    ∀ segs, readsInNs p (cycleFrame p extra hold pre buf) segs = true → admitsFrame p (frameBits buf) segs = true

/-! ## The frame commands -/

/-- TRANSMIT after BEGIN (R71, R72): in an environment that keeps its duties (it may request interrupts and write 0 to
HostIE in TX, and do in the latch as it likes but assert `rst`) it completes with response 0; its new part of the line
trace, merged, is a trace that R75 admits for the buffer as it stands; HostIE is cleared and restored, SAVED_IE keeps the
value at entry, and HostIE is that value at the end unless the host writes it in the latch; the line ends LOW for at least
TRESET_MIN_NS; nothing else changes but SEQ, the host's interrupt side, and the model's own counter and event list. That
the port's other bits stay is as the block leaves them: the platform writes none meanwhile, the model's choice (log 33). -/
def Obligations.TransmitSendsTheBuffer : Prop :=
  ∀ (s : Machine.State) (b : Binding), s.Ready → s.bind = some b → s.Dutiful → s.begun = true →
    latchPossible s.params = true →
    ∃ (t : Machine.State) (new : List Segment), exec .transmit s = .next t ∧ t.trace = new ++ s.trace ∧
      admitsFrame s.params (frameBits s.buf) (mergeSegments new.reverse) = true ∧
      s.params.tresetMin ≤ lowRun t.trace ∧ t.responses = 0 :: s.responses ∧ t.mode = .idle ∧
      t.hostIE = ieAfter s.hostIE (latchEvent s) ∧ t.savedIE = some s.hostIE ∧
      t.ieWrites = s.hostIE :: false :: s.ieWrites ∧
      t.lineLvl = (if s.lineOE then .low else .undef) ∧ t.port = portLow s.params.portW s.port b.mask ∧
      t.count = s.count ∧ t.bind = s.bind ∧ t.buf = s.buf ∧ t.bri = s.bri ∧ t.begun = s.begun ∧
      t.lineOE = s.lineOE ∧ t.fault = s.fault ∧ t.rst = s.rst ∧ t.cmd = s.cmd ∧ t.inputs = s.inputs ∧
      t.params = s.params

/-- BEGIN (R59, R60): BEGUN and LINE.OE become 1, one transient segment of either level is emitted, then one frame as
TRANSMIT's of the buffer as it stands, in an environment that does as it likes in the configure step but assert `rst`, and
then keeps its duties; it completes with response 0; nothing else changes but SEQ, the host's interrupt side, and the
model's own counter and event list. That the port's other bits stay is as the block leaves them: the platform writes none
meanwhile, the model's choice (log 33). -/
def Obligations.BeginConfiguresAndSendsTheBuffer : Prop :=
  ∀ (s u : Machine.State) (b : Binding) (ie : Bool), s.Ready → s.bind = some b → s.frameEnv.headD .quiet ≠ .rst →
    ie = ieAfter s.hostIE (s.frameEnv.headD .quiet) → u = { s with frameEnv := s.frameEnv.tail } → u.Dutiful →
    latchPossible s.params = true →
    ∃ (t : Machine.State) (new : List Segment) (transient : Segment), exec .beginLine s = .next t ∧
      t.trace = new ++ transient :: s.trace ∧ (transient.level = .low ∨ transient.level = .high) ∧
      admitsFrame s.params (frameBits s.buf) (mergeSegments new.reverse) = true ∧
      t.responses = 0 :: s.responses ∧ t.mode = .idle ∧ t.begun = true ∧ t.lineOE = true ∧ t.lineLvl = .low ∧
      t.hostIE = ieAfter ie (latchEvent u) ∧ t.savedIE = some ie ∧ t.ieWrites = ie :: false :: s.ieWrites ∧
      t.port = portLow s.params.portW s.port b.mask ∧
      t.count = s.count ∧ t.bind = s.bind ∧ t.buf = s.buf ∧ t.bri = s.bri ∧ t.fault = s.fault ∧ t.rst = s.rst ∧
      t.cmd = s.cmd ∧ t.inputs = s.inputs ∧ t.params = s.params

/-- R61: after BEGIN completes, LINE.OE = 1, LINE.LVL = LOW for at least TRESET_MIN_NS already, and BEGUN = 1, whatever
the environment did meanwhile short of `rst`; so a TRANSMIT's first rising edge comes after at least TRESET_MIN_NS of
LOW. That the hold is whole after a disturbed last LOW too is the model's choice (log 34). -/
def Obligations.AfterBeginTheLineIsLow : Prop :=
  ∀ s t : Machine.State, s.rst = false → exec .beginLine s = .next t → t.rst = false →
    t.lineOE = true ∧ t.lineLvl = .low ∧ s.params.tresetMin ≤ lowRun t.trace ∧ t.begun = true ∧
    ∀ φ : Free, s.params.tresetMin ≤ lowRun (startFrame φ t).trace

/-- R122: BEGIN, and every TRANSMIT that sends a frame, ends with a LOW hold of at least TRESET_MIN_NS before it
responds, whatever the environment did meanwhile short of `rst`. That the hold is whole after a disturbed last LOW too is
the model's choice (log 34). -/
def Obligations.EveryFrameEndsWithTheLatchHold : Prop :=
  ∀ (i : Instr) (s t : Machine.State), s.rst = false → (i = .beginLine ∨ (i = .transmit ∧ s.begun = true)) →
    exec i s = .next t → t.rst = false →
    s.params.tresetMin ≤ lowRun t.trace ∧ t.mode = .idle ∧ t.responses = 0 :: s.responses

/-- R115: every command of a constructed block completes, whatever the environment does meanwhile: it never stops in a
fault or a refusal, and the block is ready again or in reset. That one step runs a whole command is the model's choice
(log 6). -/
def Obligations.EveryCommandCompletes : Prop :=
  ∀ (i : Instr) (s : Machine.State), s.Ready → s.mode = .idle →
    ∃ t, exec i s = .next t ∧ (t.mode = .idle ∨ t.rst = true)

/-- R85: TRANSMIT in one step is the sequencer's segments one after the other: from the frame's start, single steps of
the busy block reach the very outcome. The two views of a step are the model's choice (log 6). -/
def Obligations.TransmitIsItsSegmentsOneByOne : Prop :=
  ∀ s : Machine.State, s.rst = false → s.begun = true →
    ∃ k, Host.Core.run Sys2Proof.core k (startFrame Config.free s) = exec .transmit s

/-- R9, R75: every trace that R75 admits is made by the frame procedure for some choice of the free durations, in every
environment that keeps its duties. -/
def Obligations.EveryAdmittedTraceIsPossible : Prop :=
  ∀ (s : Machine.State) (segs : List Segment), s.Ready → s.Dutiful →
    admitsFrame s.params (frameBits s.buf) segs = true →
    ∃ (φ : Free) (t : Machine.State) (new : List Segment), transmitFrame φ s = .next t ∧
      t.trace = new ++ s.trace ∧ mergeSegments new.reverse = segs

/-! ## The whole machine -/

/-- R14: no step changes N, BIND or the elaboration parameters. -/
def Obligations.CountAndBindingAreConstant : Prop :=
  ∀ s t : Machine.State, s.Inv → step s = .next t → t.count = s.count ∧ t.bind = s.bind ∧ t.params = s.params

/-- The invariant holds after reset. -/
def Obligations.ResetMeetsTheInvariant : Prop := Machine.State.reset.Inv

/-- Every step keeps the invariant: N and BIND the elaboration's (R14), N pixels (R15) none of which is 255 in a channel
(R63), FAULT's reserved bits 0 (R24), HALT exactly after a failed construction (R19, R97), the line LOW at rest, UNDEF only
while undriven (R18) and driven once BEGIN has configured it (R17), only a begun block busy (R99), the bound port bit equal
to the line (R31, R39, R84), SAVED_IE written and SEQ.P in range in TX (R21, R19), HostIE = 0 there or the breach recorded
(R78, R90), the construction state under `rst` (R117). That the bound port bit stays the line's through the platform's own
writes, which keep it, is the model's choice (log 15). -/
def Obligations.StepKeepsTheInvariant : Prop :=
  ∀ s t : Machine.State, s.Inv → step s = .next t → t.Inv

/-- R21, R30: under the invariant no step reads an unwritten SAVED_IE, a missing pixel or a missing binding, and only a
failed launch is refused. -/
def Obligations.NoStepFaults : Prop :=
  ∀ s : Machine.State, s.Inv →
    (∃ t, step s = .next t) ∨ (s.mode = .halt ∧ s.rst = false ∧ step s = .refused .launchRefused)
end

