-- ==== Sys2Proof/Laws/State.lean ====
section
/-! SUPPORT. The fields of a state after each update: one lemma per field per update, so that later proofs never unfold
a record update. -/

namespace Sys2Proof.Machine

/-! ## `respond` adds a response word -/

@[simp] theorem respond_count (v : Word) (s : State) :
    (respond v s).count = s.count := rfl
@[simp] theorem respond_bind (v : Word) (s : State) :
    (respond v s).bind = s.bind := rfl
@[simp] theorem respond_buf (v : Word) (s : State) :
    (respond v s).buf = s.buf := rfl
@[simp] theorem respond_bri (v : Word) (s : State) :
    (respond v s).bri = s.bri := rfl
@[simp] theorem respond_begun (v : Word) (s : State) :
    (respond v s).begun = s.begun := rfl
@[simp] theorem respond_lineOE (v : Word) (s : State) :
    (respond v s).lineOE = s.lineOE := rfl
@[simp] theorem respond_lineLvl (v : Word) (s : State) :
    (respond v s).lineLvl = s.lineLvl := rfl
@[simp] theorem respond_mode (v : Word) (s : State) :
    (respond v s).mode = s.mode := rfl
@[simp] theorem respond_seqP (v : Word) (s : State) :
    (respond v s).seqP = s.seqP := rfl
@[simp] theorem respond_seqK (v : Word) (s : State) :
    (respond v s).seqK = s.seqK := rfl
@[simp] theorem respond_seqB (v : Word) (s : State) :
    (respond v s).seqB = s.seqB := rfl
@[simp] theorem respond_seqPh (v : Word) (s : State) :
    (respond v s).seqPh = s.seqPh := rfl
@[simp] theorem respond_savedIE (v : Word) (s : State) :
    (respond v s).savedIE = s.savedIE := rfl
@[simp] theorem respond_hostIE (v : Word) (s : State) :
    (respond v s).hostIE = s.hostIE := rfl
@[simp] theorem respond_fault (v : Word) (s : State) :
    (respond v s).fault = s.fault := rfl
@[simp] theorem respond_rst (v : Word) (s : State) :
    (respond v s).rst = s.rst := rfl
@[simp] theorem respond_cmd (v : Word) (s : State) :
    (respond v s).cmd = s.cmd := rfl
@[simp] theorem respond_port (v : Word) (s : State) :
    (respond v s).port = s.port := rfl
@[simp] theorem respond_hostPending (v : Word) (s : State) :
    (respond v s).hostPending = s.hostPending := rfl
@[simp] theorem respond_hostTaken (v : Word) (s : State) :
    (respond v s).hostTaken = s.hostTaken := rfl
@[simp] theorem respond_inputs (v : Word) (s : State) :
    (respond v s).inputs = s.inputs := rfl
@[simp] theorem respond_frameEnv (v : Word) (s : State) :
    (respond v s).frameEnv = s.frameEnv := rfl
@[simp] theorem respond_trace (v : Word) (s : State) :
    (respond v s).trace = s.trace := rfl
@[simp] theorem respond_responses (v : Word) (s : State) :
    (respond v s).responses = v :: s.responses := rfl
@[simp] theorem respond_ieWrites (v : Word) (s : State) :
    (respond v s).ieWrites = s.ieWrites := rfl
@[simp] theorem respond_draws (v : Word) (s : State) :
    (respond v s).draws = s.draws := rfl
@[simp] theorem respond_params (v : Word) (s : State) :
    (respond v s).params = s.params := rfl

/-! ## `recordFault` sets one FAULT bit -/

@[simp] theorem recordFault_count (reason : FaultReason) (s : State) :
    (recordFault reason s).count = s.count := rfl
@[simp] theorem recordFault_bind (reason : FaultReason) (s : State) :
    (recordFault reason s).bind = s.bind := rfl
@[simp] theorem recordFault_buf (reason : FaultReason) (s : State) :
    (recordFault reason s).buf = s.buf := rfl
@[simp] theorem recordFault_bri (reason : FaultReason) (s : State) :
    (recordFault reason s).bri = s.bri := rfl
@[simp] theorem recordFault_begun (reason : FaultReason) (s : State) :
    (recordFault reason s).begun = s.begun := rfl
@[simp] theorem recordFault_lineOE (reason : FaultReason) (s : State) :
    (recordFault reason s).lineOE = s.lineOE := rfl
@[simp] theorem recordFault_lineLvl (reason : FaultReason) (s : State) :
    (recordFault reason s).lineLvl = s.lineLvl := rfl
@[simp] theorem recordFault_mode (reason : FaultReason) (s : State) :
    (recordFault reason s).mode = s.mode := rfl
@[simp] theorem recordFault_seqP (reason : FaultReason) (s : State) :
    (recordFault reason s).seqP = s.seqP := rfl
@[simp] theorem recordFault_seqK (reason : FaultReason) (s : State) :
    (recordFault reason s).seqK = s.seqK := rfl
@[simp] theorem recordFault_seqB (reason : FaultReason) (s : State) :
    (recordFault reason s).seqB = s.seqB := rfl
@[simp] theorem recordFault_seqPh (reason : FaultReason) (s : State) :
    (recordFault reason s).seqPh = s.seqPh := rfl
@[simp] theorem recordFault_savedIE (reason : FaultReason) (s : State) :
    (recordFault reason s).savedIE = s.savedIE := rfl
@[simp] theorem recordFault_hostIE (reason : FaultReason) (s : State) :
    (recordFault reason s).hostIE = s.hostIE := rfl
@[simp] theorem recordFault_fault (reason : FaultReason) (s : State) :
    (recordFault reason s).fault = s.fault ||| reason.bit := rfl
@[simp] theorem recordFault_rst (reason : FaultReason) (s : State) :
    (recordFault reason s).rst = s.rst := rfl
@[simp] theorem recordFault_cmd (reason : FaultReason) (s : State) :
    (recordFault reason s).cmd = s.cmd := rfl
@[simp] theorem recordFault_port (reason : FaultReason) (s : State) :
    (recordFault reason s).port = s.port := rfl
@[simp] theorem recordFault_hostPending (reason : FaultReason) (s : State) :
    (recordFault reason s).hostPending = s.hostPending := rfl
@[simp] theorem recordFault_hostTaken (reason : FaultReason) (s : State) :
    (recordFault reason s).hostTaken = s.hostTaken := rfl
@[simp] theorem recordFault_inputs (reason : FaultReason) (s : State) :
    (recordFault reason s).inputs = s.inputs := rfl
@[simp] theorem recordFault_frameEnv (reason : FaultReason) (s : State) :
    (recordFault reason s).frameEnv = s.frameEnv := rfl
@[simp] theorem recordFault_trace (reason : FaultReason) (s : State) :
    (recordFault reason s).trace = s.trace := rfl
@[simp] theorem recordFault_responses (reason : FaultReason) (s : State) :
    (recordFault reason s).responses = s.responses := rfl
@[simp] theorem recordFault_ieWrites (reason : FaultReason) (s : State) :
    (recordFault reason s).ieWrites = s.ieWrites := rfl
@[simp] theorem recordFault_draws (reason : FaultReason) (s : State) :
    (recordFault reason s).draws = s.draws := rfl
@[simp] theorem recordFault_params (reason : FaultReason) (s : State) :
    (recordFault reason s).params = s.params := rfl

/-! ## `emit` appends a segment and uses one free value -/

@[simp] theorem emit_count (φ : Free) (level : Level) (lo : Nat) (hi : Option Nat) (s : State) :
    (emit φ level lo hi s).count = s.count := rfl
@[simp] theorem emit_bind (φ : Free) (level : Level) (lo : Nat) (hi : Option Nat) (s : State) :
    (emit φ level lo hi s).bind = s.bind := rfl
@[simp] theorem emit_buf (φ : Free) (level : Level) (lo : Nat) (hi : Option Nat) (s : State) :
    (emit φ level lo hi s).buf = s.buf := rfl
@[simp] theorem emit_bri (φ : Free) (level : Level) (lo : Nat) (hi : Option Nat) (s : State) :
    (emit φ level lo hi s).bri = s.bri := rfl
@[simp] theorem emit_begun (φ : Free) (level : Level) (lo : Nat) (hi : Option Nat) (s : State) :
    (emit φ level lo hi s).begun = s.begun := rfl
@[simp] theorem emit_lineOE (φ : Free) (level : Level) (lo : Nat) (hi : Option Nat) (s : State) :
    (emit φ level lo hi s).lineOE = s.lineOE := rfl
@[simp] theorem emit_lineLvl (φ : Free) (level : Level) (lo : Nat) (hi : Option Nat) (s : State) :
    (emit φ level lo hi s).lineLvl = s.lineLvl := rfl
@[simp] theorem emit_mode (φ : Free) (level : Level) (lo : Nat) (hi : Option Nat) (s : State) :
    (emit φ level lo hi s).mode = s.mode := rfl
@[simp] theorem emit_seqP (φ : Free) (level : Level) (lo : Nat) (hi : Option Nat) (s : State) :
    (emit φ level lo hi s).seqP = s.seqP := rfl
@[simp] theorem emit_seqK (φ : Free) (level : Level) (lo : Nat) (hi : Option Nat) (s : State) :
    (emit φ level lo hi s).seqK = s.seqK := rfl
@[simp] theorem emit_seqB (φ : Free) (level : Level) (lo : Nat) (hi : Option Nat) (s : State) :
    (emit φ level lo hi s).seqB = s.seqB := rfl
@[simp] theorem emit_seqPh (φ : Free) (level : Level) (lo : Nat) (hi : Option Nat) (s : State) :
    (emit φ level lo hi s).seqPh = s.seqPh := rfl
@[simp] theorem emit_savedIE (φ : Free) (level : Level) (lo : Nat) (hi : Option Nat) (s : State) :
    (emit φ level lo hi s).savedIE = s.savedIE := rfl
@[simp] theorem emit_hostIE (φ : Free) (level : Level) (lo : Nat) (hi : Option Nat) (s : State) :
    (emit φ level lo hi s).hostIE = s.hostIE := rfl
@[simp] theorem emit_fault (φ : Free) (level : Level) (lo : Nat) (hi : Option Nat) (s : State) :
    (emit φ level lo hi s).fault = s.fault := rfl
@[simp] theorem emit_rst (φ : Free) (level : Level) (lo : Nat) (hi : Option Nat) (s : State) :
    (emit φ level lo hi s).rst = s.rst := rfl
@[simp] theorem emit_cmd (φ : Free) (level : Level) (lo : Nat) (hi : Option Nat) (s : State) :
    (emit φ level lo hi s).cmd = s.cmd := rfl
@[simp] theorem emit_port (φ : Free) (level : Level) (lo : Nat) (hi : Option Nat) (s : State) :
    (emit φ level lo hi s).port = s.port := rfl
@[simp] theorem emit_hostPending (φ : Free) (level : Level) (lo : Nat) (hi : Option Nat) (s : State) :
    (emit φ level lo hi s).hostPending = s.hostPending := rfl
@[simp] theorem emit_hostTaken (φ : Free) (level : Level) (lo : Nat) (hi : Option Nat) (s : State) :
    (emit φ level lo hi s).hostTaken = s.hostTaken := rfl
@[simp] theorem emit_inputs (φ : Free) (level : Level) (lo : Nat) (hi : Option Nat) (s : State) :
    (emit φ level lo hi s).inputs = s.inputs := rfl
@[simp] theorem emit_frameEnv (φ : Free) (level : Level) (lo : Nat) (hi : Option Nat) (s : State) :
    (emit φ level lo hi s).frameEnv = s.frameEnv := rfl
@[simp] theorem emit_trace (φ : Free) (level : Level) (lo : Nat) (hi : Option Nat) (s : State) :
    (emit φ level lo hi s).trace = ⟨level, drawIn (φ.nat s.draws) lo hi⟩ :: s.trace := rfl
@[simp] theorem emit_responses (φ : Free) (level : Level) (lo : Nat) (hi : Option Nat) (s : State) :
    (emit φ level lo hi s).responses = s.responses := rfl
@[simp] theorem emit_ieWrites (φ : Free) (level : Level) (lo : Nat) (hi : Option Nat) (s : State) :
    (emit φ level lo hi s).ieWrites = s.ieWrites := rfl
@[simp] theorem emit_draws (φ : Free) (level : Level) (lo : Nat) (hi : Option Nat) (s : State) :
    (emit φ level lo hi s).draws = s.draws + 1 := rfl
@[simp] theorem emit_params (φ : Free) (level : Level) (lo : Nat) (hi : Option Nat) (s : State) :
    (emit φ level lo hi s).params = s.params := rfl

/-! ## `portWrite` writes the port register and the line level -/

@[simp] theorem portWrite_count (b : Binding) (level : Level) (s : State) :
    (portWrite b level s).count = s.count := rfl
@[simp] theorem portWrite_bind (b : Binding) (level : Level) (s : State) :
    (portWrite b level s).bind = s.bind := rfl
@[simp] theorem portWrite_buf (b : Binding) (level : Level) (s : State) :
    (portWrite b level s).buf = s.buf := rfl
@[simp] theorem portWrite_bri (b : Binding) (level : Level) (s : State) :
    (portWrite b level s).bri = s.bri := rfl
@[simp] theorem portWrite_begun (b : Binding) (level : Level) (s : State) :
    (portWrite b level s).begun = s.begun := rfl
@[simp] theorem portWrite_lineOE (b : Binding) (level : Level) (s : State) :
    (portWrite b level s).lineOE = s.lineOE := rfl
@[simp] theorem portWrite_lineLvl (b : Binding) (level : Level) (s : State) :
    (portWrite b level s).lineLvl = if s.lineOE then level else .undef := rfl
@[simp] theorem portWrite_mode (b : Binding) (level : Level) (s : State) :
    (portWrite b level s).mode = s.mode := rfl
@[simp] theorem portWrite_seqP (b : Binding) (level : Level) (s : State) :
    (portWrite b level s).seqP = s.seqP := rfl
@[simp] theorem portWrite_seqK (b : Binding) (level : Level) (s : State) :
    (portWrite b level s).seqK = s.seqK := rfl
@[simp] theorem portWrite_seqB (b : Binding) (level : Level) (s : State) :
    (portWrite b level s).seqB = s.seqB := rfl
@[simp] theorem portWrite_seqPh (b : Binding) (level : Level) (s : State) :
    (portWrite b level s).seqPh = s.seqPh := rfl
@[simp] theorem portWrite_savedIE (b : Binding) (level : Level) (s : State) :
    (portWrite b level s).savedIE = s.savedIE := rfl
@[simp] theorem portWrite_hostIE (b : Binding) (level : Level) (s : State) :
    (portWrite b level s).hostIE = s.hostIE := rfl
@[simp] theorem portWrite_fault (b : Binding) (level : Level) (s : State) :
    (portWrite b level s).fault = s.fault := rfl
@[simp] theorem portWrite_rst (b : Binding) (level : Level) (s : State) :
    (portWrite b level s).rst = s.rst := rfl
@[simp] theorem portWrite_cmd (b : Binding) (level : Level) (s : State) :
    (portWrite b level s).cmd = s.cmd := rfl
@[simp] theorem portWrite_port (b : Binding) (level : Level) (s : State) :
    (portWrite b level s).port = portSet s.params.portW s.port b.mask level := rfl
@[simp] theorem portWrite_hostPending (b : Binding) (level : Level) (s : State) :
    (portWrite b level s).hostPending = s.hostPending := rfl
@[simp] theorem portWrite_hostTaken (b : Binding) (level : Level) (s : State) :
    (portWrite b level s).hostTaken = s.hostTaken := rfl
@[simp] theorem portWrite_inputs (b : Binding) (level : Level) (s : State) :
    (portWrite b level s).inputs = s.inputs := rfl
@[simp] theorem portWrite_frameEnv (b : Binding) (level : Level) (s : State) :
    (portWrite b level s).frameEnv = s.frameEnv := rfl
@[simp] theorem portWrite_trace (b : Binding) (level : Level) (s : State) :
    (portWrite b level s).trace = s.trace := rfl
@[simp] theorem portWrite_responses (b : Binding) (level : Level) (s : State) :
    (portWrite b level s).responses = s.responses := rfl
@[simp] theorem portWrite_ieWrites (b : Binding) (level : Level) (s : State) :
    (portWrite b level s).ieWrites = s.ieWrites := rfl
@[simp] theorem portWrite_draws (b : Binding) (level : Level) (s : State) :
    (portWrite b level s).draws = s.draws := rfl
@[simp] theorem portWrite_params (b : Binding) (level : Level) (s : State) :
    (portWrite b level s).params = s.params := rfl

/-! ## `construct` gives every element of R13 its reset value -/

@[simp] theorem construct_count (s : State) :
    (construct s).count = s.params.n := rfl
@[simp] theorem construct_bind (s : State) :
    (construct s).bind = resolvePin s.params := rfl
@[simp] theorem construct_buf (s : State) :
    (construct s).buf = Memory.fresh s.params.n := rfl
@[simp] theorem construct_bri (s : State) :
    (construct s).bri = 255 := rfl
@[simp] theorem construct_begun (s : State) :
    (construct s).begun = false := rfl
@[simp] theorem construct_lineOE (s : State) :
    (construct s).lineOE = false := rfl
@[simp] theorem construct_lineLvl (s : State) :
    (construct s).lineLvl = .undef := rfl
@[simp] theorem construct_mode (s : State) :
    (construct s).mode = if constructionFaults s.params = 0#8 then .idle else .halt := rfl
@[simp] theorem construct_seqP (s : State) :
    (construct s).seqP = 0 := rfl
@[simp] theorem construct_seqK (s : State) :
    (construct s).seqK = .g := rfl
@[simp] theorem construct_seqB (s : State) :
    (construct s).seqB = 0 := rfl
@[simp] theorem construct_seqPh (s : State) :
    (construct s).seqPh = .hi := rfl
@[simp] theorem construct_savedIE (s : State) :
    (construct s).savedIE = none := rfl
@[simp] theorem construct_hostIE (s : State) :
    (construct s).hostIE = s.hostIE := rfl
@[simp] theorem construct_fault (s : State) :
    (construct s).fault = constructionFaults s.params := rfl
@[simp] theorem construct_rst (s : State) :
    (construct s).rst = s.rst := rfl
@[simp] theorem construct_cmd (s : State) :
    (construct s).cmd = s.cmd := rfl
@[simp] theorem construct_port (s : State) :
    (construct s).port = s.port := rfl
@[simp] theorem construct_hostPending (s : State) :
    (construct s).hostPending = s.hostPending := rfl
@[simp] theorem construct_hostTaken (s : State) :
    (construct s).hostTaken = s.hostTaken := rfl
@[simp] theorem construct_inputs (s : State) :
    (construct s).inputs = s.inputs := rfl
@[simp] theorem construct_frameEnv (s : State) :
    (construct s).frameEnv = s.frameEnv := rfl
@[simp] theorem construct_trace (s : State) :
    (construct s).trace = s.trace := rfl
@[simp] theorem construct_responses (s : State) :
    (construct s).responses = s.responses := rfl
@[simp] theorem construct_ieWrites (s : State) :
    (construct s).ieWrites = s.ieWrites := rfl
@[simp] theorem construct_draws (s : State) :
    (construct s).draws = s.draws := rfl
@[simp] theorem construct_params (s : State) :
    (construct s).params = s.params := rfl

/-! ## `hostTakesPending` touches only the host's own pending bit and count -/

@[simp] theorem hostTakesPending_count (s : State) :
    (hostTakesPending s).count = s.count := by unfold hostTakesPending; split <;> rfl
@[simp] theorem hostTakesPending_bind (s : State) :
    (hostTakesPending s).bind = s.bind := by unfold hostTakesPending; split <;> rfl
@[simp] theorem hostTakesPending_buf (s : State) :
    (hostTakesPending s).buf = s.buf := by unfold hostTakesPending; split <;> rfl
@[simp] theorem hostTakesPending_bri (s : State) :
    (hostTakesPending s).bri = s.bri := by unfold hostTakesPending; split <;> rfl
@[simp] theorem hostTakesPending_begun (s : State) :
    (hostTakesPending s).begun = s.begun := by unfold hostTakesPending; split <;> rfl
@[simp] theorem hostTakesPending_lineOE (s : State) :
    (hostTakesPending s).lineOE = s.lineOE := by unfold hostTakesPending; split <;> rfl
@[simp] theorem hostTakesPending_lineLvl (s : State) :
    (hostTakesPending s).lineLvl = s.lineLvl := by unfold hostTakesPending; split <;> rfl
@[simp] theorem hostTakesPending_mode (s : State) :
    (hostTakesPending s).mode = s.mode := by unfold hostTakesPending; split <;> rfl
@[simp] theorem hostTakesPending_seqP (s : State) :
    (hostTakesPending s).seqP = s.seqP := by unfold hostTakesPending; split <;> rfl
@[simp] theorem hostTakesPending_seqK (s : State) :
    (hostTakesPending s).seqK = s.seqK := by unfold hostTakesPending; split <;> rfl
@[simp] theorem hostTakesPending_seqB (s : State) :
    (hostTakesPending s).seqB = s.seqB := by unfold hostTakesPending; split <;> rfl
@[simp] theorem hostTakesPending_seqPh (s : State) :
    (hostTakesPending s).seqPh = s.seqPh := by unfold hostTakesPending; split <;> rfl
@[simp] theorem hostTakesPending_savedIE (s : State) :
    (hostTakesPending s).savedIE = s.savedIE := by unfold hostTakesPending; split <;> rfl
@[simp] theorem hostTakesPending_hostIE (s : State) :
    (hostTakesPending s).hostIE = s.hostIE := by unfold hostTakesPending; split <;> rfl
@[simp] theorem hostTakesPending_fault (s : State) :
    (hostTakesPending s).fault = s.fault := by unfold hostTakesPending; split <;> rfl
@[simp] theorem hostTakesPending_rst (s : State) :
    (hostTakesPending s).rst = s.rst := by unfold hostTakesPending; split <;> rfl
@[simp] theorem hostTakesPending_cmd (s : State) :
    (hostTakesPending s).cmd = s.cmd := by unfold hostTakesPending; split <;> rfl
@[simp] theorem hostTakesPending_port (s : State) :
    (hostTakesPending s).port = s.port := by unfold hostTakesPending; split <;> rfl
@[simp] theorem hostTakesPending_inputs (s : State) :
    (hostTakesPending s).inputs = s.inputs := by unfold hostTakesPending; split <;> rfl
@[simp] theorem hostTakesPending_frameEnv (s : State) :
    (hostTakesPending s).frameEnv = s.frameEnv := by unfold hostTakesPending; split <;> rfl
@[simp] theorem hostTakesPending_trace (s : State) :
    (hostTakesPending s).trace = s.trace := by unfold hostTakesPending; split <;> rfl
@[simp] theorem hostTakesPending_responses (s : State) :
    (hostTakesPending s).responses = s.responses := by unfold hostTakesPending; split <;> rfl
@[simp] theorem hostTakesPending_ieWrites (s : State) :
    (hostTakesPending s).ieWrites = s.ieWrites := by unfold hostTakesPending; split <;> rfl
@[simp] theorem hostTakesPending_draws (s : State) :
    (hostTakesPending s).draws = s.draws := by unfold hostTakesPending; split <;> rfl
@[simp] theorem hostTakesPending_params (s : State) :
    (hostTakesPending s).params = s.params := by unfold hostTakesPending; split <;> rfl

/-! ## `hostWritesIE` writes HostIE -/

@[simp] theorem hostWritesIE_count (v : Bool) (s : State) :
    (hostWritesIE v s).count = s.count := by simp [hostWritesIE]
@[simp] theorem hostWritesIE_bind (v : Bool) (s : State) :
    (hostWritesIE v s).bind = s.bind := by simp [hostWritesIE]
@[simp] theorem hostWritesIE_buf (v : Bool) (s : State) :
    (hostWritesIE v s).buf = s.buf := by simp [hostWritesIE]
@[simp] theorem hostWritesIE_bri (v : Bool) (s : State) :
    (hostWritesIE v s).bri = s.bri := by simp [hostWritesIE]
@[simp] theorem hostWritesIE_begun (v : Bool) (s : State) :
    (hostWritesIE v s).begun = s.begun := by simp [hostWritesIE]
@[simp] theorem hostWritesIE_lineOE (v : Bool) (s : State) :
    (hostWritesIE v s).lineOE = s.lineOE := by simp [hostWritesIE]
@[simp] theorem hostWritesIE_lineLvl (v : Bool) (s : State) :
    (hostWritesIE v s).lineLvl = s.lineLvl := by simp [hostWritesIE]
@[simp] theorem hostWritesIE_mode (v : Bool) (s : State) :
    (hostWritesIE v s).mode = s.mode := by simp [hostWritesIE]
@[simp] theorem hostWritesIE_seqP (v : Bool) (s : State) :
    (hostWritesIE v s).seqP = s.seqP := by simp [hostWritesIE]
@[simp] theorem hostWritesIE_seqK (v : Bool) (s : State) :
    (hostWritesIE v s).seqK = s.seqK := by simp [hostWritesIE]
@[simp] theorem hostWritesIE_seqB (v : Bool) (s : State) :
    (hostWritesIE v s).seqB = s.seqB := by simp [hostWritesIE]
@[simp] theorem hostWritesIE_seqPh (v : Bool) (s : State) :
    (hostWritesIE v s).seqPh = s.seqPh := by simp [hostWritesIE]
@[simp] theorem hostWritesIE_savedIE (v : Bool) (s : State) :
    (hostWritesIE v s).savedIE = s.savedIE := by simp [hostWritesIE]
@[simp] theorem hostWritesIE_hostIE (v : Bool) (s : State) :
    (hostWritesIE v s).hostIE = v := by simp [hostWritesIE]
@[simp] theorem hostWritesIE_fault (v : Bool) (s : State) :
    (hostWritesIE v s).fault = s.fault := by simp [hostWritesIE]
@[simp] theorem hostWritesIE_rst (v : Bool) (s : State) :
    (hostWritesIE v s).rst = s.rst := by simp [hostWritesIE]
@[simp] theorem hostWritesIE_cmd (v : Bool) (s : State) :
    (hostWritesIE v s).cmd = s.cmd := by simp [hostWritesIE]
@[simp] theorem hostWritesIE_port (v : Bool) (s : State) :
    (hostWritesIE v s).port = s.port := by simp [hostWritesIE]
@[simp] theorem hostWritesIE_inputs (v : Bool) (s : State) :
    (hostWritesIE v s).inputs = s.inputs := by simp [hostWritesIE]
@[simp] theorem hostWritesIE_frameEnv (v : Bool) (s : State) :
    (hostWritesIE v s).frameEnv = s.frameEnv := by simp [hostWritesIE]
@[simp] theorem hostWritesIE_trace (v : Bool) (s : State) :
    (hostWritesIE v s).trace = s.trace := by simp [hostWritesIE]
@[simp] theorem hostWritesIE_responses (v : Bool) (s : State) :
    (hostWritesIE v s).responses = s.responses := by simp [hostWritesIE]
@[simp] theorem hostWritesIE_ieWrites (v : Bool) (s : State) :
    (hostWritesIE v s).ieWrites = s.ieWrites := by simp [hostWritesIE]
@[simp] theorem hostWritesIE_draws (v : Bool) (s : State) :
    (hostWritesIE v s).draws = s.draws := by simp [hostWritesIE]
@[simp] theorem hostWritesIE_params (v : Bool) (s : State) :
    (hostWritesIE v s).params = s.params := by simp [hostWritesIE]

/-! ## `hostRequests` touches only the host's own pending bit and count -/

@[simp] theorem hostRequests_count (s : State) :
    (hostRequests s).count = s.count := by unfold hostRequests; split <;> [rfl; split] <;> rfl
@[simp] theorem hostRequests_bind (s : State) :
    (hostRequests s).bind = s.bind := by unfold hostRequests; split <;> [rfl; split] <;> rfl
@[simp] theorem hostRequests_buf (s : State) :
    (hostRequests s).buf = s.buf := by unfold hostRequests; split <;> [rfl; split] <;> rfl
@[simp] theorem hostRequests_bri (s : State) :
    (hostRequests s).bri = s.bri := by unfold hostRequests; split <;> [rfl; split] <;> rfl
@[simp] theorem hostRequests_begun (s : State) :
    (hostRequests s).begun = s.begun := by unfold hostRequests; split <;> [rfl; split] <;> rfl
@[simp] theorem hostRequests_lineOE (s : State) :
    (hostRequests s).lineOE = s.lineOE := by unfold hostRequests; split <;> [rfl; split] <;> rfl
@[simp] theorem hostRequests_lineLvl (s : State) :
    (hostRequests s).lineLvl = s.lineLvl := by unfold hostRequests; split <;> [rfl; split] <;> rfl
@[simp] theorem hostRequests_mode (s : State) :
    (hostRequests s).mode = s.mode := by unfold hostRequests; split <;> [rfl; split] <;> rfl
@[simp] theorem hostRequests_seqP (s : State) :
    (hostRequests s).seqP = s.seqP := by unfold hostRequests; split <;> [rfl; split] <;> rfl
@[simp] theorem hostRequests_seqK (s : State) :
    (hostRequests s).seqK = s.seqK := by unfold hostRequests; split <;> [rfl; split] <;> rfl
@[simp] theorem hostRequests_seqB (s : State) :
    (hostRequests s).seqB = s.seqB := by unfold hostRequests; split <;> [rfl; split] <;> rfl
@[simp] theorem hostRequests_seqPh (s : State) :
    (hostRequests s).seqPh = s.seqPh := by unfold hostRequests; split <;> [rfl; split] <;> rfl
@[simp] theorem hostRequests_savedIE (s : State) :
    (hostRequests s).savedIE = s.savedIE := by unfold hostRequests; split <;> [rfl; split] <;> rfl
@[simp] theorem hostRequests_hostIE (s : State) :
    (hostRequests s).hostIE = s.hostIE := by unfold hostRequests; split <;> [rfl; split] <;> rfl
@[simp] theorem hostRequests_fault (s : State) :
    (hostRequests s).fault = s.fault := by unfold hostRequests; split <;> [rfl; split] <;> rfl
@[simp] theorem hostRequests_rst (s : State) :
    (hostRequests s).rst = s.rst := by unfold hostRequests; split <;> [rfl; split] <;> rfl
@[simp] theorem hostRequests_cmd (s : State) :
    (hostRequests s).cmd = s.cmd := by unfold hostRequests; split <;> [rfl; split] <;> rfl
@[simp] theorem hostRequests_port (s : State) :
    (hostRequests s).port = s.port := by unfold hostRequests; split <;> [rfl; split] <;> rfl
@[simp] theorem hostRequests_inputs (s : State) :
    (hostRequests s).inputs = s.inputs := by unfold hostRequests; split <;> [rfl; split] <;> rfl
@[simp] theorem hostRequests_frameEnv (s : State) :
    (hostRequests s).frameEnv = s.frameEnv := by unfold hostRequests; split <;> [rfl; split] <;> rfl
@[simp] theorem hostRequests_trace (s : State) :
    (hostRequests s).trace = s.trace := by unfold hostRequests; split <;> [rfl; split] <;> rfl
@[simp] theorem hostRequests_responses (s : State) :
    (hostRequests s).responses = s.responses := by unfold hostRequests; split <;> [rfl; split] <;> rfl
@[simp] theorem hostRequests_ieWrites (s : State) :
    (hostRequests s).ieWrites = s.ieWrites := by unfold hostRequests; split <;> [rfl; split] <;> rfl
@[simp] theorem hostRequests_draws (s : State) :
    (hostRequests s).draws = s.draws := by unfold hostRequests; split <;> [rfl; split] <;> rfl
@[simp] theorem hostRequests_params (s : State) :
    (hostRequests s).params = s.params := by unfold hostRequests; split <;> [rfl; split] <;> rfl

/-! ## `blockWritesIE` writes HostIE and logs the write -/

@[simp] theorem blockWritesIE_count (v : Bool) (s : State) :
    (blockWritesIE v s).count = s.count := by simp [blockWritesIE]
@[simp] theorem blockWritesIE_bind (v : Bool) (s : State) :
    (blockWritesIE v s).bind = s.bind := by simp [blockWritesIE]
@[simp] theorem blockWritesIE_buf (v : Bool) (s : State) :
    (blockWritesIE v s).buf = s.buf := by simp [blockWritesIE]
@[simp] theorem blockWritesIE_bri (v : Bool) (s : State) :
    (blockWritesIE v s).bri = s.bri := by simp [blockWritesIE]
@[simp] theorem blockWritesIE_begun (v : Bool) (s : State) :
    (blockWritesIE v s).begun = s.begun := by simp [blockWritesIE]
@[simp] theorem blockWritesIE_lineOE (v : Bool) (s : State) :
    (blockWritesIE v s).lineOE = s.lineOE := by simp [blockWritesIE]
@[simp] theorem blockWritesIE_lineLvl (v : Bool) (s : State) :
    (blockWritesIE v s).lineLvl = s.lineLvl := by simp [blockWritesIE]
@[simp] theorem blockWritesIE_mode (v : Bool) (s : State) :
    (blockWritesIE v s).mode = s.mode := by simp [blockWritesIE]
@[simp] theorem blockWritesIE_seqP (v : Bool) (s : State) :
    (blockWritesIE v s).seqP = s.seqP := by simp [blockWritesIE]
@[simp] theorem blockWritesIE_seqK (v : Bool) (s : State) :
    (blockWritesIE v s).seqK = s.seqK := by simp [blockWritesIE]
@[simp] theorem blockWritesIE_seqB (v : Bool) (s : State) :
    (blockWritesIE v s).seqB = s.seqB := by simp [blockWritesIE]
@[simp] theorem blockWritesIE_seqPh (v : Bool) (s : State) :
    (blockWritesIE v s).seqPh = s.seqPh := by simp [blockWritesIE]
@[simp] theorem blockWritesIE_savedIE (v : Bool) (s : State) :
    (blockWritesIE v s).savedIE = s.savedIE := by simp [blockWritesIE]
@[simp] theorem blockWritesIE_hostIE (v : Bool) (s : State) :
    (blockWritesIE v s).hostIE = v := by simp [blockWritesIE]
@[simp] theorem blockWritesIE_fault (v : Bool) (s : State) :
    (blockWritesIE v s).fault = s.fault := by simp [blockWritesIE]
@[simp] theorem blockWritesIE_rst (v : Bool) (s : State) :
    (blockWritesIE v s).rst = s.rst := by simp [blockWritesIE]
@[simp] theorem blockWritesIE_cmd (v : Bool) (s : State) :
    (blockWritesIE v s).cmd = s.cmd := by simp [blockWritesIE]
@[simp] theorem blockWritesIE_port (v : Bool) (s : State) :
    (blockWritesIE v s).port = s.port := by simp [blockWritesIE]
@[simp] theorem blockWritesIE_inputs (v : Bool) (s : State) :
    (blockWritesIE v s).inputs = s.inputs := by simp [blockWritesIE]
@[simp] theorem blockWritesIE_frameEnv (v : Bool) (s : State) :
    (blockWritesIE v s).frameEnv = s.frameEnv := by simp [blockWritesIE]
@[simp] theorem blockWritesIE_trace (v : Bool) (s : State) :
    (blockWritesIE v s).trace = s.trace := by simp [blockWritesIE]
@[simp] theorem blockWritesIE_responses (v : Bool) (s : State) :
    (blockWritesIE v s).responses = s.responses := by simp [blockWritesIE]
@[simp] theorem blockWritesIE_ieWrites (v : Bool) (s : State) :
    (blockWritesIE v s).ieWrites = v :: s.ieWrites := by simp [blockWritesIE]
@[simp] theorem blockWritesIE_draws (v : Bool) (s : State) :
    (blockWritesIE v s).draws = s.draws := by simp [blockWritesIE]
@[simp] theorem blockWritesIE_params (v : Bool) (s : State) :
    (blockWritesIE v s).params = s.params := by simp [blockWritesIE]

/-! ## `enterCritical` saves HostIE and clears it -/

@[simp] theorem enterCritical_count (s : State) :
    (enterCritical s).count = s.count := by simp [enterCritical]
@[simp] theorem enterCritical_bind (s : State) :
    (enterCritical s).bind = s.bind := by simp [enterCritical]
@[simp] theorem enterCritical_buf (s : State) :
    (enterCritical s).buf = s.buf := by simp [enterCritical]
@[simp] theorem enterCritical_bri (s : State) :
    (enterCritical s).bri = s.bri := by simp [enterCritical]
@[simp] theorem enterCritical_begun (s : State) :
    (enterCritical s).begun = s.begun := by simp [enterCritical]
@[simp] theorem enterCritical_lineOE (s : State) :
    (enterCritical s).lineOE = s.lineOE := by simp [enterCritical]
@[simp] theorem enterCritical_lineLvl (s : State) :
    (enterCritical s).lineLvl = s.lineLvl := by simp [enterCritical]
@[simp] theorem enterCritical_mode (s : State) :
    (enterCritical s).mode = s.mode := by simp [enterCritical]
@[simp] theorem enterCritical_seqP (s : State) :
    (enterCritical s).seqP = s.seqP := by simp [enterCritical]
@[simp] theorem enterCritical_seqK (s : State) :
    (enterCritical s).seqK = s.seqK := by simp [enterCritical]
@[simp] theorem enterCritical_seqB (s : State) :
    (enterCritical s).seqB = s.seqB := by simp [enterCritical]
@[simp] theorem enterCritical_seqPh (s : State) :
    (enterCritical s).seqPh = s.seqPh := by simp [enterCritical]
@[simp] theorem enterCritical_savedIE (s : State) :
    (enterCritical s).savedIE = some s.hostIE := by simp [enterCritical]
@[simp] theorem enterCritical_hostIE (s : State) :
    (enterCritical s).hostIE = false := by simp [enterCritical]
@[simp] theorem enterCritical_fault (s : State) :
    (enterCritical s).fault = s.fault := by simp [enterCritical]
@[simp] theorem enterCritical_rst (s : State) :
    (enterCritical s).rst = s.rst := by simp [enterCritical]
@[simp] theorem enterCritical_cmd (s : State) :
    (enterCritical s).cmd = s.cmd := by simp [enterCritical]
@[simp] theorem enterCritical_port (s : State) :
    (enterCritical s).port = s.port := by simp [enterCritical]
@[simp] theorem enterCritical_inputs (s : State) :
    (enterCritical s).inputs = s.inputs := by simp [enterCritical]
@[simp] theorem enterCritical_frameEnv (s : State) :
    (enterCritical s).frameEnv = s.frameEnv := by simp [enterCritical]
@[simp] theorem enterCritical_trace (s : State) :
    (enterCritical s).trace = s.trace := by simp [enterCritical]
@[simp] theorem enterCritical_responses (s : State) :
    (enterCritical s).responses = s.responses := by simp [enterCritical]
@[simp] theorem enterCritical_ieWrites (s : State) :
    (enterCritical s).ieWrites = false :: s.ieWrites := by simp [enterCritical]
@[simp] theorem enterCritical_draws (s : State) :
    (enterCritical s).draws = s.draws := by simp [enterCritical]
@[simp] theorem enterCritical_params (s : State) :
    (enterCritical s).params = s.params := by simp [enterCritical]

/-! ## `advance` moves SEQ's position only -/

@[simp] theorem advance_count (s : State) :
    (advance s).count = s.count := by unfold advance; (repeat' split) <;> rfl
@[simp] theorem advance_bind (s : State) :
    (advance s).bind = s.bind := by unfold advance; (repeat' split) <;> rfl
@[simp] theorem advance_buf (s : State) :
    (advance s).buf = s.buf := by unfold advance; (repeat' split) <;> rfl
@[simp] theorem advance_bri (s : State) :
    (advance s).bri = s.bri := by unfold advance; (repeat' split) <;> rfl
@[simp] theorem advance_begun (s : State) :
    (advance s).begun = s.begun := by unfold advance; (repeat' split) <;> rfl
@[simp] theorem advance_lineOE (s : State) :
    (advance s).lineOE = s.lineOE := by unfold advance; (repeat' split) <;> rfl
@[simp] theorem advance_lineLvl (s : State) :
    (advance s).lineLvl = s.lineLvl := by unfold advance; (repeat' split) <;> rfl
@[simp] theorem advance_mode (s : State) :
    (advance s).mode = s.mode := by unfold advance; (repeat' split) <;> rfl
@[simp] theorem advance_savedIE (s : State) :
    (advance s).savedIE = s.savedIE := by unfold advance; (repeat' split) <;> rfl
@[simp] theorem advance_hostIE (s : State) :
    (advance s).hostIE = s.hostIE := by unfold advance; (repeat' split) <;> rfl
@[simp] theorem advance_fault (s : State) :
    (advance s).fault = s.fault := by unfold advance; (repeat' split) <;> rfl
@[simp] theorem advance_rst (s : State) :
    (advance s).rst = s.rst := by unfold advance; (repeat' split) <;> rfl
@[simp] theorem advance_cmd (s : State) :
    (advance s).cmd = s.cmd := by unfold advance; (repeat' split) <;> rfl
@[simp] theorem advance_port (s : State) :
    (advance s).port = s.port := by unfold advance; (repeat' split) <;> rfl
@[simp] theorem advance_hostPending (s : State) :
    (advance s).hostPending = s.hostPending := by unfold advance; (repeat' split) <;> rfl
@[simp] theorem advance_hostTaken (s : State) :
    (advance s).hostTaken = s.hostTaken := by unfold advance; (repeat' split) <;> rfl
@[simp] theorem advance_inputs (s : State) :
    (advance s).inputs = s.inputs := by unfold advance; (repeat' split) <;> rfl
@[simp] theorem advance_frameEnv (s : State) :
    (advance s).frameEnv = s.frameEnv := by unfold advance; (repeat' split) <;> rfl
@[simp] theorem advance_trace (s : State) :
    (advance s).trace = s.trace := by unfold advance; (repeat' split) <;> rfl
@[simp] theorem advance_responses (s : State) :
    (advance s).responses = s.responses := by unfold advance; (repeat' split) <;> rfl
@[simp] theorem advance_ieWrites (s : State) :
    (advance s).ieWrites = s.ieWrites := by unfold advance; (repeat' split) <;> rfl
@[simp] theorem advance_draws (s : State) :
    (advance s).draws = s.draws := by unfold advance; (repeat' split) <;> rfl
@[simp] theorem advance_params (s : State) :
    (advance s).params = s.params := by unfold advance; (repeat' split) <;> rfl

/-! ## `emitBit` appends a segment -/

@[simp] theorem emitBit_count (φ : Free) (d : Bool) (level : Level) (f : Nat) (s : State) :
    (emitBit φ d level f s).count = s.count := by cases d <;> rfl
@[simp] theorem emitBit_bind (φ : Free) (d : Bool) (level : Level) (f : Nat) (s : State) :
    (emitBit φ d level f s).bind = s.bind := by cases d <;> rfl
@[simp] theorem emitBit_buf (φ : Free) (d : Bool) (level : Level) (f : Nat) (s : State) :
    (emitBit φ d level f s).buf = s.buf := by cases d <;> rfl
@[simp] theorem emitBit_bri (φ : Free) (d : Bool) (level : Level) (f : Nat) (s : State) :
    (emitBit φ d level f s).bri = s.bri := by cases d <;> rfl
@[simp] theorem emitBit_begun (φ : Free) (d : Bool) (level : Level) (f : Nat) (s : State) :
    (emitBit φ d level f s).begun = s.begun := by cases d <;> rfl
@[simp] theorem emitBit_lineOE (φ : Free) (d : Bool) (level : Level) (f : Nat) (s : State) :
    (emitBit φ d level f s).lineOE = s.lineOE := by cases d <;> rfl
@[simp] theorem emitBit_lineLvl (φ : Free) (d : Bool) (level : Level) (f : Nat) (s : State) :
    (emitBit φ d level f s).lineLvl = s.lineLvl := by cases d <;> rfl
@[simp] theorem emitBit_mode (φ : Free) (d : Bool) (level : Level) (f : Nat) (s : State) :
    (emitBit φ d level f s).mode = s.mode := by cases d <;> rfl
@[simp] theorem emitBit_seqP (φ : Free) (d : Bool) (level : Level) (f : Nat) (s : State) :
    (emitBit φ d level f s).seqP = s.seqP := by cases d <;> rfl
@[simp] theorem emitBit_seqK (φ : Free) (d : Bool) (level : Level) (f : Nat) (s : State) :
    (emitBit φ d level f s).seqK = s.seqK := by cases d <;> rfl
@[simp] theorem emitBit_seqB (φ : Free) (d : Bool) (level : Level) (f : Nat) (s : State) :
    (emitBit φ d level f s).seqB = s.seqB := by cases d <;> rfl
@[simp] theorem emitBit_seqPh (φ : Free) (d : Bool) (level : Level) (f : Nat) (s : State) :
    (emitBit φ d level f s).seqPh = s.seqPh := by cases d <;> rfl
@[simp] theorem emitBit_savedIE (φ : Free) (d : Bool) (level : Level) (f : Nat) (s : State) :
    (emitBit φ d level f s).savedIE = s.savedIE := by cases d <;> rfl
@[simp] theorem emitBit_hostIE (φ : Free) (d : Bool) (level : Level) (f : Nat) (s : State) :
    (emitBit φ d level f s).hostIE = s.hostIE := by cases d <;> rfl
@[simp] theorem emitBit_fault (φ : Free) (d : Bool) (level : Level) (f : Nat) (s : State) :
    (emitBit φ d level f s).fault = s.fault := by cases d <;> rfl
@[simp] theorem emitBit_rst (φ : Free) (d : Bool) (level : Level) (f : Nat) (s : State) :
    (emitBit φ d level f s).rst = s.rst := by cases d <;> rfl
@[simp] theorem emitBit_cmd (φ : Free) (d : Bool) (level : Level) (f : Nat) (s : State) :
    (emitBit φ d level f s).cmd = s.cmd := by cases d <;> rfl
@[simp] theorem emitBit_port (φ : Free) (d : Bool) (level : Level) (f : Nat) (s : State) :
    (emitBit φ d level f s).port = s.port := by cases d <;> rfl
@[simp] theorem emitBit_hostPending (φ : Free) (d : Bool) (level : Level) (f : Nat) (s : State) :
    (emitBit φ d level f s).hostPending = s.hostPending := by cases d <;> rfl
@[simp] theorem emitBit_hostTaken (φ : Free) (d : Bool) (level : Level) (f : Nat) (s : State) :
    (emitBit φ d level f s).hostTaken = s.hostTaken := by cases d <;> rfl
@[simp] theorem emitBit_inputs (φ : Free) (d : Bool) (level : Level) (f : Nat) (s : State) :
    (emitBit φ d level f s).inputs = s.inputs := by cases d <;> rfl
@[simp] theorem emitBit_frameEnv (φ : Free) (d : Bool) (level : Level) (f : Nat) (s : State) :
    (emitBit φ d level f s).frameEnv = s.frameEnv := by cases d <;> rfl
@[simp] theorem emitBit_responses (φ : Free) (d : Bool) (level : Level) (f : Nat) (s : State) :
    (emitBit φ d level f s).responses = s.responses := by cases d <;> rfl
@[simp] theorem emitBit_ieWrites (φ : Free) (d : Bool) (level : Level) (f : Nat) (s : State) :
    (emitBit φ d level f s).ieWrites = s.ieWrites := by cases d <;> rfl
@[simp] theorem emitBit_draws (φ : Free) (d : Bool) (level : Level) (f : Nat) (s : State) :
    (emitBit φ d level f s).draws = s.draws + 1 := by cases d <;> rfl
@[simp] theorem emitBit_params (φ : Free) (d : Bool) (level : Level) (f : Nat) (s : State) :
    (emitBit φ d level f s).params = s.params := by cases d <;> rfl

/-! ## `presentWord` puts a word on the command port -/

@[simp] theorem presentWord_count (w : Word) (s : State) :
    (presentWord w s).count = s.count := rfl
@[simp] theorem presentWord_bind (w : Word) (s : State) :
    (presentWord w s).bind = s.bind := rfl
@[simp] theorem presentWord_buf (w : Word) (s : State) :
    (presentWord w s).buf = s.buf := rfl
@[simp] theorem presentWord_bri (w : Word) (s : State) :
    (presentWord w s).bri = s.bri := rfl
@[simp] theorem presentWord_begun (w : Word) (s : State) :
    (presentWord w s).begun = s.begun := rfl
@[simp] theorem presentWord_lineOE (w : Word) (s : State) :
    (presentWord w s).lineOE = s.lineOE := rfl
@[simp] theorem presentWord_lineLvl (w : Word) (s : State) :
    (presentWord w s).lineLvl = s.lineLvl := rfl
@[simp] theorem presentWord_mode (w : Word) (s : State) :
    (presentWord w s).mode = s.mode := rfl
@[simp] theorem presentWord_seqP (w : Word) (s : State) :
    (presentWord w s).seqP = s.seqP := rfl
@[simp] theorem presentWord_seqK (w : Word) (s : State) :
    (presentWord w s).seqK = s.seqK := rfl
@[simp] theorem presentWord_seqB (w : Word) (s : State) :
    (presentWord w s).seqB = s.seqB := rfl
@[simp] theorem presentWord_seqPh (w : Word) (s : State) :
    (presentWord w s).seqPh = s.seqPh := rfl
@[simp] theorem presentWord_savedIE (w : Word) (s : State) :
    (presentWord w s).savedIE = s.savedIE := rfl
@[simp] theorem presentWord_hostIE (w : Word) (s : State) :
    (presentWord w s).hostIE = s.hostIE := rfl
@[simp] theorem presentWord_fault (w : Word) (s : State) :
    (presentWord w s).fault = s.fault := rfl
@[simp] theorem presentWord_rst (w : Word) (s : State) :
    (presentWord w s).rst = s.rst := rfl
@[simp] theorem presentWord_cmd (w : Word) (s : State) :
    (presentWord w s).cmd = some w := rfl
@[simp] theorem presentWord_port (w : Word) (s : State) :
    (presentWord w s).port = s.port := rfl
@[simp] theorem presentWord_hostPending (w : Word) (s : State) :
    (presentWord w s).hostPending = s.hostPending := rfl
@[simp] theorem presentWord_hostTaken (w : Word) (s : State) :
    (presentWord w s).hostTaken = s.hostTaken := rfl
@[simp] theorem presentWord_inputs (w : Word) (s : State) :
    (presentWord w s).inputs = s.inputs := rfl
@[simp] theorem presentWord_frameEnv (w : Word) (s : State) :
    (presentWord w s).frameEnv = s.frameEnv := rfl
@[simp] theorem presentWord_trace (w : Word) (s : State) :
    (presentWord w s).trace = s.trace := rfl
@[simp] theorem presentWord_responses (w : Word) (s : State) :
    (presentWord w s).responses = s.responses := rfl
@[simp] theorem presentWord_ieWrites (w : Word) (s : State) :
    (presentWord w s).ieWrites = s.ieWrites := rfl
@[simp] theorem presentWord_draws (w : Word) (s : State) :
    (presentWord w s).draws = s.draws := rfl
@[simp] theorem presentWord_params (w : Word) (s : State) :
    (presentWord w s).params = s.params := rfl

end Sys2Proof.Machine
end

