-- ==== Sys2Proof/Laws/Ops.lean ====
section
/-! SUPPORT. What each shared operation can do, said once: sequencing, the buffer, the output port, free durations,
construction. -/

namespace Sys2Proof.Machine

/-! ## Sequencing -/

@[simp] theorem andThen_next (s : State) (f : State → Result) : andThen (.next s) f = f s := rfl

@[simp] theorem andThen_fault (x : Fault) (f : State → Result) : andThen (.fault x) f = .fault x := rfl

@[simp] theorem andThen_refused (x : Refusal) (f : State → Result) : andThen (.refused x) f = .refused x := rfl

theorem andThen_eq_next {r : Result} {f : State → Result} {t : State} (h : andThen r f = .next t) :
    ∃ s, r = .next s ∧ f s = .next t := by
  cases r with
  | next s => exact ⟨s, rfl, h⟩
  | fault x => simp at h
  | refused x => simp at h

/-! ## The buffer keeps its canonical form -/

theorem Memory.wf_iff {n : Index} {buf : List Pixel} : Memory.wf n buf = true ↔ buf.length = n.toNat := by
  simp [Memory.wf]

theorem Memory.wf_write {n : Index} {buf : List Pixel} (i : Nat) (px : Pixel) (h : Memory.wf n buf = true) :
    Memory.wf n (Memory.write buf i px) = true := by
  simpa [Memory.wf, Memory.write] using h

theorem Memory.wf_clear {n : Index} {buf : List Pixel} (h : Memory.wf n buf = true) :
    Memory.wf n (Memory.clear buf) = true := by
  simpa [Memory.wf, Memory.clear] using h

theorem Memory.wf_fresh (n : Index) : Memory.wf n (Memory.fresh n) = true := by
  simp [Memory.wf, Memory.fresh]

theorem Memory.wf_reset : Memory.wf State.reset.count State.reset.buf = true := by decide

theorem Memory.read_write_same {buf : List Pixel} {i : Nat} (px : Pixel) (h : i < buf.length) :
    Memory.read (Memory.write buf i px) i = some px := by
  simp [Memory.read, Memory.write, h]

theorem Memory.read_write_other {buf : List Pixel} {i j : Nat} (px : Pixel) (h : i ≠ j) :
    Memory.read (Memory.write buf i px) j = Memory.read buf j := by
  simp [Memory.read, Memory.write, h]

theorem Memory.read_of_wf {n : Index} {buf : List Pixel} {i : Nat} (h : Memory.wf n buf = true) (hi : i < n.toNat) :
    ∃ px, Memory.read buf i = some px := by
  rw [Memory.wf_iff] at h
  exact ⟨buf[i], by simp [Memory.read, List.getElem?_eq_getElem (h ▸ hi)]⟩

/-- Clearing a well-formed buffer makes the buffer of a fresh block. -/
theorem Memory.clear_eq_fresh {n : Index} {buf : List Pixel} (h : Memory.wf n buf = true) :
    Memory.clear buf = Memory.fresh n := by
  rw [Memory.wf_iff] at h
  simp [Memory.clear, Memory.fresh, ← h, List.map_const']

/-! ## Scaling -/

theorem scale_toNat (c br : Channel) : (scale c br).toNat = c.toNat * br.toNat / 256 := by
  have hc := c.isLt
  have hb := br.isLt
  have : c.toNat * br.toNat ≤ 255 * 255 := Nat.mul_le_mul (by omega) (by omega)
  simp only [scale, BitVec.toNat_ofNat, Nat.shiftRight_eq_div_pow]
  omega

theorem scale_ne_255 (c br : Channel) : scale c br ≠ 255#8 := by
  intro h
  have h' := congrArg BitVec.toNat h
  rw [scale_toNat] at h'
  have hc := c.isLt
  have hb := br.isLt
  have : c.toNat * br.toNat ≤ 255 * 255 := Nat.mul_le_mul (by omega) (by omega)
  simp at h'
  omega

/-! ## The output port -/

theorem portHigh_eq {w port mask : Nat} (hp : port < 2 ^ w) (hm : mask < 2 ^ w) : portHigh w port mask = port ||| mask := by
  simp [portHigh, Nat.mod_eq_of_lt hp, Nat.mod_eq_of_lt hm]

theorem portHigh_lt (w port mask : Nat) : portHigh w port mask < 2 ^ w := BitVec.isLt _

theorem portLow_lt (w port mask : Nat) : portLow w port mask < 2 ^ w := BitVec.isLt _

theorem portHigh_testBit (w port mask k : Nat) :
    (portHigh w port mask).testBit k = (decide (k < w) && (port.testBit k || mask.testBit k)) := by
  simp only [portHigh, BitVec.toNat_or, BitVec.toNat_ofNat, Nat.testBit_or, Nat.testBit_mod_two_pow]
  cases decide (k < w) <;> simp

theorem portLow_testBit (w port mask k : Nat) :
    (portLow w port mask).testBit k = (decide (k < w) && port.testBit k && !mask.testBit k) := by
  rw [portLow, BitVec.testBit_toNat, BitVec.getLsbD_and, BitVec.getLsbD_not, BitVec.getLsbD_ofNat, BitVec.getLsbD_ofNat]
  cases decide (k < w) <;> simp

theorem portSet_lt {w port : Nat} (mask : Nat) (level : Level) (h : port < 2 ^ w) : portSet w port mask level < 2 ^ w := by
  cases level
  · exact portLow_lt w port mask
  · exact portHigh_lt w port mask
  · exact h

/-- An output write keeps every bit outside the mask. -/
theorem portSet_testBit_other {w port mask k : Nat} (level : Level) (hp : port < 2 ^ w) (hk : mask.testBit k = false) :
    (portSet w port mask level).testBit k = port.testBit k := by
  have hw : port.testBit k = true → k < w := fun hb => by
    by_contra hc
    exact absurd hb (by simp [Nat.testBit_lt_two_pow (Nat.lt_of_lt_of_le hp (Nat.pow_le_pow_right (by omega) (by omega : w ≤ k)))])
  cases level
  · simp only [portSet, portLow_testBit, hk]; cases h : port.testBit k <;> simp_all
  · simp only [portSet, portHigh_testBit, hk]; cases h : port.testBit k <;> simp_all
  · rfl

/-! ## Free durations -/

theorem drawIn_ge (x lo : Nat) (hi : Option Nat) : lo ≤ drawIn x lo hi := by
  cases hi <;> simp [drawIn]

theorem drawIn_le {x lo h : Nat} (hle : lo ≤ h) : drawIn x lo (some h) ≤ h := by
  have := Nat.mod_lt x (Nat.succ_pos (h - lo))
  simp only [drawIn, Nat.succ_eq_add_one] at *
  omega

/-- Every duration within the bounds is drawn by some free number. -/
theorem drawIn_exact {lo d : Nat} {hi : Option Nat} (hlo : lo ≤ d) (hhi : ∀ h, hi = some h → d ≤ h) :
    drawIn (d - lo) lo hi = d := by
  cases hi with
  | none => simp [drawIn]; omega
  | some h =>
    have hd := hhi h rfl
    rw [drawIn, Nat.mod_eq_of_lt (by omega)]
    omega

/-! ## The critical section and construction -/

theorem exitCritical_some {s : State} {v : Bool} (h : s.savedIE = some v) : exitCritical s = .next (blockWritesIE v s) := by
  simp [exitCritical, h]

theorem construct_idem (s : State) : construct (construct s) = construct s := rfl

theorem construct_reset : construct State.reset = State.reset := by decide

theorem constructionFaults_eq_zero (p : Params) : constructionFaults p = 0#8 ↔ p.n ≠ 0#16 ∧ resolvePin p ≠ none := by
  unfold constructionFaults
  by_cases h1 : p.n = 0#16 <;> by_cases h2 : resolvePin p = none <;> simp [h1, h2, FaultReason.bit, FaultReason.code]

/-- A mask that RESOLVE_PIN gives has exactly one bit, inside the port register. -/
theorem resolvePin_mask {p : Params} {b : Binding} (h : resolvePin p = some b) : ∃ k, k < p.portW ∧ b.mask = 2 ^ k := by
  unfold resolvePin at h
  split at h
  · rename_i row _
    split at h
    · rename_i hc
      simp only [Option.some.injEq] at h
      simp at hc
      exact ⟨row.bit, hc.2, by rw [← h]⟩
    · simp at h
  · simp at h

end Sys2Proof.Machine
end

