-- ==== Sys2Proof/Laws/Wave.lean ====
section
/-! SUPPORT. The bit stream of a frame, merging of segments, and decoding. -/

namespace Sys2Proof.Machine

/-! ## The bit stream -/

@[simp] theorem bits8_length (x : Channel) : (bits8 x).length = 8 := rfl

@[simp] theorem pixelBits_length (px : Pixel) : (pixelBits px).length = 24 := rfl

theorem frameBits_cons (px : Pixel) (buf : List Pixel) : frameBits (px :: buf) = pixelBits px ++ frameBits buf := rfl

theorem frameBits_length (buf : List Pixel) : (frameBits buf).length = 24 * buf.length := by
  induction buf with
  | nil => rfl
  | cons px buf ih => rw [frameBits_cons, List.length_append, ih, pixelBits_length, List.length_cons]; ring

/-- Bit j of pixel p's share of the stream, where p is a pixel of the buffer. -/
theorem frameBits_getElem? {buf : List Pixel} {p j : Nat} (hj : j < 24) :
    (frameBits buf)[24 * p + j]? = (buf[p]?).bind fun px => (pixelBits px)[j]? := by
  induction buf generalizing p with
  | nil => simp [frameBits]
  | cons px buf ih =>
    rw [frameBits_cons]
    cases p with
    | zero => rw [List.getElem?_append_left (by simpa using hj)]; simp
    | succ p =>
      rw [List.getElem?_append_right (by simp; omega), pixelBits_length,
        show 24 * (p + 1) + j - 24 = 24 * p + j by omega, ih]
      simp

theorem Slot.num_lt (k : Slot) : k.num < 3 := by cases k <;> decide

theorem pixelBits_getElem? (px : Pixel) (k : Slot) (b : BitVec 3) :
    (pixelBits px)[8 * k.num + (7 - b.toNat)]? = some ((channel px k).getLsbD b.toNat) := by
  have hb : b = 0 ∨ b = 1 ∨ b = 2 ∨ b = 3 ∨ b = 4 ∨ b = 5 ∨ b = 6 ∨ b = 7 := by revert b; decide
  rcases hb with rfl | rfl | rfl | rfl | rfl | rfl | rfl | rfl <;> cases k <;> rfl

/-! ## Bytes from bits -/

theorem byteOfBits_bits8 (x : Channel) : byteOfBits (bits8 x) = x := by
  revert x; decide +kernel

theorem regroup_frameBits (buf : List Pixel) : regroup buf.length (frameBits buf) = buf := by
  induction buf with
  | nil => rfl
  | cons px buf ih =>
    have h (g r b : Channel) (rest : List Bool) :
        regroup (buf.length + 1) (bits8 g ++ bits8 r ++ bits8 b ++ rest)
          = ⟨byteOfBits (bits8 r), byteOfBits (bits8 g), byteOfBits (bits8 b)⟩ :: regroup buf.length rest := rfl
    rw [List.length_cons, frameBits_cons, pixelBits, h, ih, byteOfBits_bits8, byteOfBits_bits8, byteOfBits_bits8]

/-! ## Decoding -/

theorem inBand_iff {p : Params} {f d : Nat} : inBand p f d = true ↔ f - p.tol ≤ d ∧ d ≤ f + p.tol := by
  rw [inBand, Bool.and_eq_true, decide_eq_true_iff, decide_eq_true_iff, bandLo, bandHi]

theorem inLatch_iff {p : Params} {d : Nat} :
    inLatch p d = true ↔ p.tresetMin ≤ d ∧ ∀ m, p.tresetMax = some m → d ≤ m := by
  rw [inLatch, Bool.and_eq_true, decide_eq_true_iff]
  cases p.tresetMax <;> simp

theorem decodable_iff {p : Params} : decodable p = true ↔ p.t0h + 2 * p.tol < p.t1h := by
  rw [decodable, decide_eq_true_iff]

theorem decodeBit_high {p : Params} {bit : Bool} {h : Nat} (hd : decodable p = true)
    (hb : inBand p (highNs p bit) h = true) : decodeBit p h = some bit := by
  rw [decodable_iff] at hd
  cases bit with
  | true => simp only [highNs, if_true] at hb; simp [decodeBit, hb]
  | false =>
    simp only [highNs, Bool.false_eq_true, if_false] at hb
    have h1 : ¬ inBand p p.t1h h = true := by rw [inBand_iff] at *; omega
    simp [decodeBit, hb, h1]

/-- Every trace of R75 decodes to its bits. -/
theorem decodeFrame_of_admitsBits {p : Params} (hd : decodable p = true) :
    ∀ {bits : List Bool} {segs : List Segment}, admitsBits p bits segs = true →
      decodeFrame p segs = bits.map some := by
  intro bits segs
  fun_induction admitsBits p bits segs with
  | case1 bit h l =>
    intro ha
    simp only [Bool.and_eq_true] at ha
    simp [decodeFrame, decodeBit_high hd ha.1]
  | case2 bit bit' bits h l rest ih =>
    intro ha
    simp only [Bool.and_eq_true] at ha
    simp only [decodeFrame, List.map_cons, decodeBit_high hd ha.1.1, ih ha.2]
  | case3 => intro ha; simp at ha

/-! ## Merging -/

theorem mergeSegments_cons (s : Segment) (rest : List Segment) :
    mergeSegments (s :: rest) = match mergeSegments rest with
      | [] => [s]
      | t :: rest' => if s.level = t.level then ⟨s.level, s.ns + t.ns⟩ :: rest' else s :: t :: rest' := rfl

/-- A trace whose first segment has another level than the one before it. -/
theorem mergeSegments_cons_ne {s t : Segment} {rest merged : List Segment} (h : mergeSegments rest = t :: merged)
    (hne : s.level ≠ t.level) : mergeSegments (s :: rest) = s :: t :: merged := by
  rw [mergeSegments_cons, h]; simp [hne]

/-- A trace whose first segment has the level of the one after it. -/
theorem mergeSegments_cons_eq {s t : Segment} {rest merged : List Segment} (h : mergeSegments rest = t :: merged)
    (he : s.level = t.level) : mergeSegments (s :: rest) = ⟨s.level, s.ns + t.ns⟩ :: merged := by
  rw [mergeSegments_cons, h]; simp [he]

theorem mergeSegments_totalNs (segs : List Segment) : totalNs (mergeSegments segs) = totalNs segs := by
  induction segs with
  | nil => rfl
  | cons s rest ih =>
    rw [mergeSegments_cons]
    cases h : mergeSegments rest with
    | nil => rw [h] at ih; simp [totalNs] at ih ⊢; omega
    | cons t rest' =>
      rw [h] at ih
      simp only [totalNs, List.map_cons, List.sum_cons] at ih ⊢
      split <;> simp <;> omega

end Sys2Proof.Machine
end

