-- ==== Sys2Proof/Laws/Frame.lean ====
section
/-! SUPPORT. What a tick does, the sequencer's walk over the bits of a frame, and a whole frame of an environment that
keeps its duties. -/

namespace Sys2Proof.Machine

/-! ## The sequencer (10_state.md R20) -/

/-- The place of SEQ's position in the bit stream of the frame. -/
def bitIndex (s : State) : Nat := 24 * s.seqP.toNat + 8 * s.seqK.num + (7 - s.seqB.toNat)

theorem currentBit_eq (s : State) : currentBit s = (frameBits s.buf)[bitIndex s]? := by
  have hk := s.seqK.num_lt
  rw [bitIndex, show 24 * s.seqP.toNat + 8 * s.seqK.num + (7 - s.seqB.toNat)
    = 24 * s.seqP.toNat + (8 * s.seqK.num + (7 - s.seqB.toNat)) by omega, frameBits_getElem? (by omega)]
  simp only [currentBit, Memory.read, pixelBits_getElem?]
  cases s.buf[s.seqP.toNat]? <;> rfl

theorem bitIndex_lt {s : State} (hp : s.seqP.toNat < s.count.toNat) : bitIndex s < 24 * s.count.toNat := by
  have hk := s.seqK.num_lt
  unfold bitIndex
  omega

theorem currentBit_some {s : State} (hw : Memory.wf s.count s.buf = true) (hp : s.seqP.toNat < s.count.toNat) :
    ∃ bit, currentBit s = some bit := by
  have hi := bitIndex_lt hp
  rw [Memory.wf_iff] at hw
  rw [currentBit_eq]
  exact ⟨_, List.getElem?_eq_getElem (by rw [frameBits_length, hw]; exact hi)⟩

/-- A block without pixels is counted as one pixel, so that the sequencer's walk is bounded in every state. -/
theorem atLastBit_iff_max {s : State} (hp : s.seqP.toNat < max s.count.toNat 1) :
    atLastBit s = true ↔ bitIndex s + 1 = 24 * max s.count.toNat 1 := by
  have hb := s.seqB.isLt
  have h0 : (s.seqB == 0#3) = decide (s.seqB.toNat = 0) := by
    rw [Bool.eq_iff_iff]; simp [← BitVec.toNat_inj]
  unfold atLastBit bitIndex
  rw [h0]
  cases s.seqK <;> simp [Slot.num] <;> omega

theorem atLastBit_iff {s : State} (hp : s.seqP.toNat < s.count.toNat) :
    atLastBit s = true ↔ bitIndex s + 1 = 24 * s.count.toNat := by
  have hm : max s.count.toNat 1 = s.count.toNat := by omega
  rw [atLastBit_iff_max (by omega), hm]

theorem advance_hi {s : State} (h : s.seqPh = .hi) : advance s = { s with seqPh := .lo } := by
  simp [advance, h]

theorem advance_bit {s : State} (h : s.seqPh = .lo) (hb : s.seqB ≠ 0#3) :
    advance s = { s with seqB := s.seqB - 1, seqPh := .hi } := by
  simp only [advance, h, if_pos hb]

theorem advance_slot {s : State} (h : s.seqPh = .lo) (hb : s.seqB = 0#3) (hk : s.seqK ≠ .b) :
    advance s = { s with seqK := s.seqK.next, seqB := 7, seqPh := .hi } := by
  simp only [advance, h, if_neg (not_not.mpr hb), if_pos hk]

theorem advance_pixel {s : State} (h : s.seqPh = .lo) (hb : s.seqB = 0#3) (hk : s.seqK = .b) :
    advance s = { s with seqP := s.seqP + 1, seqK := .g, seqB := 7, seqPh := .hi } := by
  simp only [advance, h, if_neg (not_not.mpr hb), if_neg (not_not.mpr hk)]

/-- From the low segment of a bit that is not the last, SEQ goes to the next bit of the stream. -/
theorem advance_lo_max {s : State} (h : s.seqPh = .lo) (hp : s.seqP.toNat < max s.count.toNat 1) (hl : ¬ atLastBit s = true) :
    bitIndex (advance s) = bitIndex s + 1 ∧ (advance s).seqPh = .hi ∧
      (advance s).seqP.toNat < max s.count.toNat 1 := by
  have hb := s.seqB.isLt
  have hc := s.count.isLt
  rw [atLastBit_iff_max hp] at hl
  by_cases h0 : s.seqB = 0#3
  · by_cases hk : s.seqK = .b
    · have h1 : (s.seqP + 1).toNat = s.seqP.toNat + 1 := by
        simp [bitIndex, hk, Slot.num, h0] at hl
        rw [BitVec.toNat_add]
        exact Nat.mod_eq_of_lt (by simp; omega)
      simp only [bitIndex, hk, Slot.num, h0] at hl
      simp only [bitIndex, advance_pixel h h0 hk, hk, Slot.num, h0, h1]
      simp at hl ⊢
      omega
    · simp only [bitIndex, advance_slot h h0 hk, h0, hp, and_true]
      cases h2 : s.seqK with
      | g => simp [Slot.next, Slot.num]
      | r => simp [Slot.next, Slot.num]
      | b => exact absurd h2 hk
  · have h1 : s.seqB.toNat ≠ 0 := fun e => h0 (BitVec.eq_of_toNat_eq (by simpa using e))
    have h2 : (s.seqB - 1).toNat = s.seqB.toNat - 1 := by
      rw [BitVec.toNat_sub]; simp; omega
    simp only [bitIndex, advance_bit h h0, h2, hp, and_true]
    omega

theorem advance_lo {s : State} (h : s.seqPh = .lo) (hp : s.seqP.toNat < s.count.toNat) (hl : ¬ atLastBit s = true) :
    bitIndex (advance s) = bitIndex s + 1 ∧ (advance s).seqPh = .hi ∧ (advance s).seqP.toNat < s.count.toNat := by
  have hm : max s.count.toNat 1 = s.count.toNat := by omega
  simpa only [hm] using advance_lo_max h (by omega) hl

/-! ## The host's events -/

/-- What the host's event may change: HostIE, and the host's own pending bit and count. -/
structure HostOnly (s t : State) : Prop where
  eq : t = { s with hostIE := t.hostIE, hostPending := t.hostPending, hostTaken := t.hostTaken }

theorem hostTakesPending_hostOnly (s : State) : HostOnly s (hostTakesPending s) := by
  constructor; unfold hostTakesPending; split <;> rfl

theorem hostEvent_hostOnly (e : FrameEvent) (s : State) : HostOnly s (hostEvent e s) := by
  constructor
  cases e with
  | writeHostIE v => simp only [hostEvent, hostWritesIE, hostTakesPending]; split <;> rfl
  | requestInterrupt => simp only [hostEvent, hostRequests]; split <;> [rfl; split] <;> rfl
  | _ => rfl

/-! ### Fields that a host event keeps -/

@[simp] theorem hostEvent_count (e : FrameEvent) (s : State) : (hostEvent e s).count = s.count := by
  rw [(hostEvent_hostOnly e s).eq]
@[simp] theorem hostEvent_bind (e : FrameEvent) (s : State) : (hostEvent e s).bind = s.bind := by
  rw [(hostEvent_hostOnly e s).eq]
@[simp] theorem hostEvent_buf (e : FrameEvent) (s : State) : (hostEvent e s).buf = s.buf := by
  rw [(hostEvent_hostOnly e s).eq]
@[simp] theorem hostEvent_bri (e : FrameEvent) (s : State) : (hostEvent e s).bri = s.bri := by
  rw [(hostEvent_hostOnly e s).eq]
@[simp] theorem hostEvent_begun (e : FrameEvent) (s : State) : (hostEvent e s).begun = s.begun := by
  rw [(hostEvent_hostOnly e s).eq]
@[simp] theorem hostEvent_lineOE (e : FrameEvent) (s : State) : (hostEvent e s).lineOE = s.lineOE := by
  rw [(hostEvent_hostOnly e s).eq]
@[simp] theorem hostEvent_lineLvl (e : FrameEvent) (s : State) : (hostEvent e s).lineLvl = s.lineLvl := by
  rw [(hostEvent_hostOnly e s).eq]
@[simp] theorem hostEvent_mode (e : FrameEvent) (s : State) : (hostEvent e s).mode = s.mode := by
  rw [(hostEvent_hostOnly e s).eq]
@[simp] theorem hostEvent_seqP (e : FrameEvent) (s : State) : (hostEvent e s).seqP = s.seqP := by
  rw [(hostEvent_hostOnly e s).eq]
@[simp] theorem hostEvent_seqK (e : FrameEvent) (s : State) : (hostEvent e s).seqK = s.seqK := by
  rw [(hostEvent_hostOnly e s).eq]
@[simp] theorem hostEvent_seqB (e : FrameEvent) (s : State) : (hostEvent e s).seqB = s.seqB := by
  rw [(hostEvent_hostOnly e s).eq]
@[simp] theorem hostEvent_seqPh (e : FrameEvent) (s : State) : (hostEvent e s).seqPh = s.seqPh := by
  rw [(hostEvent_hostOnly e s).eq]
@[simp] theorem hostEvent_savedIE (e : FrameEvent) (s : State) : (hostEvent e s).savedIE = s.savedIE := by
  rw [(hostEvent_hostOnly e s).eq]
@[simp] theorem hostEvent_fault (e : FrameEvent) (s : State) : (hostEvent e s).fault = s.fault := by
  rw [(hostEvent_hostOnly e s).eq]
@[simp] theorem hostEvent_rst (e : FrameEvent) (s : State) : (hostEvent e s).rst = s.rst := by
  rw [(hostEvent_hostOnly e s).eq]
@[simp] theorem hostEvent_cmd (e : FrameEvent) (s : State) : (hostEvent e s).cmd = s.cmd := by
  rw [(hostEvent_hostOnly e s).eq]
@[simp] theorem hostEvent_port (e : FrameEvent) (s : State) : (hostEvent e s).port = s.port := by
  rw [(hostEvent_hostOnly e s).eq]
@[simp] theorem hostEvent_inputs (e : FrameEvent) (s : State) : (hostEvent e s).inputs = s.inputs := by
  rw [(hostEvent_hostOnly e s).eq]
@[simp] theorem hostEvent_frameEnv (e : FrameEvent) (s : State) : (hostEvent e s).frameEnv = s.frameEnv := by
  rw [(hostEvent_hostOnly e s).eq]
@[simp] theorem hostEvent_trace (e : FrameEvent) (s : State) : (hostEvent e s).trace = s.trace := by
  rw [(hostEvent_hostOnly e s).eq]
@[simp] theorem hostEvent_responses (e : FrameEvent) (s : State) : (hostEvent e s).responses = s.responses := by
  rw [(hostEvent_hostOnly e s).eq]
@[simp] theorem hostEvent_ieWrites (e : FrameEvent) (s : State) : (hostEvent e s).ieWrites = s.ieWrites := by
  rw [(hostEvent_hostOnly e s).eq]
@[simp] theorem hostEvent_draws (e : FrameEvent) (s : State) : (hostEvent e s).draws = s.draws := by
  rw [(hostEvent_hostOnly e s).eq]
@[simp] theorem hostEvent_params (e : FrameEvent) (s : State) : (hostEvent e s).params = s.params := by
  rw [(hostEvent_hostOnly e s).eq]

/-- HostIE after an event. -/
@[simp] theorem hostEvent_hostIE (e : FrameEvent) (s : State) : (hostEvent e s).hostIE = ieAfter s.hostIE e := by
  cases e <;> simp [hostEvent, ieAfter]

/-- HostIE changes by an event only when the host writes it. -/
theorem ieAfter_of_no_write {e : FrameEvent} (v : Bool) (h : ∀ new, e ≠ .writeHostIE new) : ieAfter v e = v := by
  cases e with
  | writeHostIE new => exact absurd rfl (h new)
  | _ => rfl

/-- A tick without `rst`: the host's event, then the block. -/
theorem tick_of_ne_rst {φ : Free} {s : State} (h : s.frameEnv.headD .quiet ≠ .rst) :
    tick φ s = blockTick φ ((s.frameEnv.headD .quiet).interferes || endsLate { s with frameEnv := s.frameEnv.tail })
      (hostEvent (s.frameEnv.headD .quiet) { s with frameEnv := s.frameEnv.tail }) := by
  simp only [tick, if_neg h]

/-! ## An environment that keeps its duties -/

/-- An event that keeps the duties, while HostIE = 0, reaches at most the host's pending bit. -/
theorem hostEvent_dutiful {e : FrameEvent} {s : State} (he : e.keepsDuties = true) (hi : s.hostIE = false) :
    ∃ pending, hostEvent e s = { s with hostPending := pending } := by
  obtain ⟨⟩ := s
  subst hi
  cases e with
  | quiet => exact ⟨_, rfl⟩
  | requestInterrupt =>
    simp only [hostEvent, hostRequests, Bool.false_eq_true, if_false]
    split
    · exact ⟨_, rfl⟩
    · exact ⟨_, rfl⟩
  | writeHostIE v =>
    simp only [FrameEvent.keepsDuties, Bool.not_eq_true'] at he
    subst he
    exact ⟨_, rfl⟩
  | rst => simp [FrameEvent.keepsDuties] at he
  | nonMaskable => simp [FrameEvent.keepsDuties] at he
  | lateWrite => simp [FrameEvent.keepsDuties] at he

theorem keepsDuties_ne_rst {e : FrameEvent} (he : e.keepsDuties = true) : e ≠ .rst := by
  rintro rfl; simp [FrameEvent.keepsDuties] at he

theorem keepsDuties_interferes {e : FrameEvent} (he : e.keepsDuties = true) : e.interferes = false := by
  cases e <;> simp_all [FrameEvent.keepsDuties, FrameEvent.interferes]

theorem dutifulFor_succ {k : Nat} {env : List FrameEvent} :
    dutifulFor (k + 1) env = true ↔ (env.headD .quiet).keepsDuties = true ∧ dutifulFor k env.tail = true := by
  simp [dutifulFor]

/-- An environment that does nothing keeps its duties for as long as one likes. -/
theorem dutifulFor_nil (k : Nat) : dutifulFor k [] = true := by
  induction k with
  | zero => rfl
  | succ k ih => exact dutifulFor_succ.2 ⟨rfl, ih⟩

/-- A late write at its end disturbs no segment before one whose event keeps the duties. -/
theorem endsLate_dutiful {s : State} (h : (s.frameEnv.headD .quiet).keepsDuties = true) : endsLate s = false := by
  unfold endsLate
  cases he : s.frameEnv.headD .quiet <;> simp_all [FrameEvent.keepsDuties]

/-- Nor does it disturb the last LOW. -/
theorem endsLate_last {s : State} (hph : s.seqPh = .lo) (hl : atLastBit s = true) : endsLate s = false := by
  simp [endsLate, hph, hl]

/-! ## The sequencer's segment -/

theorem tickTx_hi {φ : Free} {d bit : Bool} {b : Binding} {s : State} (hb : s.bind = some b)
    (hc : currentBit s = some bit) (hph : s.seqPh = .hi) :
    tickTx φ d s = .next (advance (emitBit φ d .high (highNs s.params bit) (portWrite b .high s))) := by
  simp only [tickTx, hb, hc, hph]

theorem tickTx_lo {φ : Free} {d bit : Bool} {b : Binding} {s : State} (hb : s.bind = some b)
    (hc : currentBit s = some bit) (hph : s.seqPh = .lo) (hl : ¬ atLastBit s = true) :
    tickTx φ d s = .next (advance (emitBit φ d .low (lowNs s.params bit) (portWrite b .low s))) := by
  simp only [tickTx, hb, hc, hph, if_neg hl]

theorem tickTx_last {φ : Free} {d bit v : Bool} {b : Binding} {s : State} (hb : s.bind = some b)
    (hc : currentBit s = some bit) (hph : s.seqPh = .lo) (hl : atLastBit s = true) (hs : s.savedIE = some v) :
    tickTx φ d s = .next { blockWritesIE v (emit φ .low 0 (lastLowMax d s.params) (portWrite b .low s)) with mode := .latch } := by
  have he : (emit φ .low 0 (lastLowMax d s.params) (portWrite b .low s)).savedIE = some v := hs
  simp only [tickTx, hb, hc, hph, if_pos hl, endFrame, exitCritical_some he, andThen_next]

/-- Everything the sequencer's segment can do: a segment and the next position, or the last LOW with the restore. -/
theorem tickTx_cases {φ : Free} {d : Bool} {s t : State} (h : tickTx φ d s = .next t) :
    (∃ b bit level f, s.bind = some b ∧ currentBit s = some bit ∧ (level = .low ∨ level = .high) ∧
      (s.seqPh = .lo → ¬ atLastBit s = true) ∧ t = advance (emitBit φ d level f (portWrite b level s))) ∨
    (∃ b v, s.bind = some b ∧ s.savedIE = some v ∧ s.seqPh = .lo ∧ atLastBit s = true ∧
      t = { blockWritesIE v (emit φ .low 0 (lastLowMax d s.params) (portWrite b .low s)) with mode := .latch }) := by
  cases hb : s.bind with
  | none => simp [tickTx, hb] at h
  | some b =>
    cases hc : currentBit s with
    | none => simp [tickTx, hb, hc] at h
    | some bit =>
      cases hph : s.seqPh with
      | hi =>
        rw [tickTx_hi hb hc hph] at h
        injection h with h
        exact .inl ⟨b, bit, .high, _, rfl, rfl, .inr rfl, by simp, h.symm⟩
      | lo =>
        by_cases hl : atLastBit s = true
        · cases hs : s.savedIE with
          | none =>
            simp [tickTx, hb, hc, hph, hl, endFrame, exitCritical, hs] at h
          | some v =>
            rw [tickTx_last hb hc hph hl hs] at h
            injection h with h
            exact .inr ⟨b, v, rfl, rfl, rfl, hl, h.symm⟩
        · rw [tickTx_lo hb hc hph hl] at h
          injection h with h
          exact .inl ⟨b, bit, .low, _, rfl, rfl, .inl rfl, fun _ => hl, h.symm⟩

/-- The latch, in any environment without `rst`. -/
theorem tick_latch {φ : Free} {s : State} (he : s.frameEnv.headD .quiet ≠ .rst) (hm : s.mode = .latch) :
    ∃ u, u = hostEvent (s.frameEnv.headD .quiet) { s with frameEnv := s.frameEnv.tail } ∧
      tick φ s = .next (respond 0 { emit φ .low (s.params.tresetMin - lowRun s.trace)
        (s.params.tresetMax.map (· - lowRun s.trace)) u with mode := .idle }) := by
  have ho := (hostEvent_hostOnly (s.frameEnv.headD .quiet) { s with frameEnv := s.frameEnv.tail }).eq
  refine ⟨_, rfl, ?_⟩
  rw [tick_of_ne_rst he]
  generalize hostEvent (s.frameEnv.headD .quiet) { s with frameEnv := s.frameEnv.tail } = u at *
  have hu : u.mode = .latch ∧ u.params = s.params ∧ u.trace = s.trace := by rw [ho]; exact ⟨hm, rfl, rfl⟩
  simp only [blockTick, hu.1, tickLatch, hu.2.1, hu.2.2]

/-! ## A whole frame of a dutiful environment -/

/-- The segments of TX that are left at SEQ's position. -/
def segmentsLeft (s : State) : Nat :=
  2 * (24 * s.count.toNat - bitIndex s) - (match s.seqPh with | .hi => 0 | .lo => 1)

/-- The segments of an undisturbed frame from its first rising edge on, oldest first and not merged, drawn from the counter's
value on: the last LOW in two parts, before and after the restore of HostIE. -/
def rawBits (φ : Free) (p : Params) : Nat → List Bool → List Segment
  | _, [] => []
  | d, [bit] =>
    let r := drawIn (φ.nat (d + 1)) 0 p.tresetMax
    [⟨.high, drawIn (φ.nat d) (bandLo p (highNs p bit)) (some (bandHi p (highNs p bit)))⟩,
     ⟨.low, r⟩, ⟨.low, drawIn (φ.nat (d + 2)) (p.tresetMin - r) (p.tresetMax.map (· - r))⟩]
  | d, bit :: bit' :: bits =>
    ⟨.high, drawIn (φ.nat d) (bandLo p (highNs p bit)) (some (bandHi p (highNs p bit)))⟩ ::
    ⟨.low, drawIn (φ.nat (d + 1)) (bandLo p (lowNs p bit)) (some (bandHi p (lowNs p bit)))⟩ ::
    rawBits φ p (d + 2) (bit' :: bits)

/-- What a frame leaves as it was. -/
structure SameConfig (s t : State) : Prop where
  count     : t.count = s.count
  bind      : t.bind = s.bind
  buf       : t.buf = s.buf
  bri       : t.bri = s.bri
  begun     : t.begun = s.begun
  lineOE    : t.lineOE = s.lineOE
  rst       : t.rst = s.rst
  cmd       : t.cmd = s.cmd
  inputs    : t.inputs = s.inputs
  params    : t.params = s.params

theorem SameConfig.refl (s : State) : SameConfig s s := ⟨rfl, rfl, rfl, rfl, rfl, rfl, rfl, rfl, rfl, rfl⟩

theorem SameConfig.trans {s t u : State} (h : SameConfig s t) (k : SameConfig t u) : SameConfig s u :=
  ⟨k.count.trans h.count, k.bind.trans h.bind, k.buf.trans h.buf, k.bri.trans h.bri, k.begun.trans h.begun,
   k.lineOE.trans h.lineOE, k.rst.trans h.rst, k.cmd.trans h.cmd, k.inputs.trans h.inputs, k.params.trans h.params⟩

/-- A state inside a frame whose environment keeps its duties. -/
structure InTx (v : Bool) (s : State) : Prop where
  duty    : dutifulFor (segmentsLeft s) s.frameEnv = true
  mode    : s.mode = .tx
  saved   : s.savedIE = some v
  masked  : s.hostIE = false
  pixel   : s.seqP.toNat < s.count.toNat

/-- The same, where the frame runs to its end: the line is bound and the buffer is whole. -/
structure InFrame (b : Binding) (v : Bool) (s : State) : Prop extends InTx v s where
  bind    : s.bind = some b
  wf      : Memory.wf s.count s.buf = true

/-- Inside a frame at least one segment is left, and none but this one exactly at the last LOW. -/
theorem InTx.segmentsLeft_pos {v : Bool} {s : State} (h : InTx v s) :
    ∃ k, segmentsLeft s = k + 1 ∧ (k = 0 → s.seqPh = .lo ∧ atLastBit s = true) := by
  have hi := bitIndex_lt h.pixel
  refine ⟨segmentsLeft s - 1, ?_, fun hk => ?_⟩
  · unfold segmentsLeft; split <;> omega
  · rw [atLastBit_iff h.pixel]
    unfold segmentsLeft at hk
    cases hph : s.seqPh <;> simp only [hph] at hk <;> simp <;> omega

/-- A tick inside a frame is the sequencer's segment, undisturbed; the environment reaches at most the host's pending bit,
and it keeps its duties for the segments that are left. -/
theorem InTx.tick {φ : Free} {v : Bool} {s : State} (h : InTx v s) :
    ∃ pending, tick φ s = tickTx φ false { s with frameEnv := s.frameEnv.tail, hostPending := pending } ∧
      dutifulFor (segmentsLeft s - 1) s.frameEnv.tail = true := by
  obtain ⟨k, hk, hlast⟩ := h.segmentsLeft_pos
  have hd := h.duty
  rw [hk, dutifulFor_succ] at hd
  obtain ⟨hd, hrest⟩ := hd
  have hlate : endsLate { s with frameEnv := s.frameEnv.tail } = false := by
    cases k with
    | zero => obtain ⟨h1, h2⟩ := hlast rfl; exact endsLate_last h1 h2
    | succ k => exact endsLate_dutiful (dutifulFor_succ.1 hrest).1
  obtain ⟨pending, hp⟩ := hostEvent_dutiful (s := { s with frameEnv := s.frameEnv.tail }) hd h.masked
  refine ⟨pending, ?_, by rw [hk]; exact hrest⟩
  rw [tick_of_ne_rst (keepsDuties_ne_rst hd), keepsDuties_interferes hd, hlate, hp]
  simp only [blockTick, h.mode, h.masked, Bool.or_self, Bool.false_eq_true, if_false]

/-- As long as a frame is in TX its environment takes no interrupt and records no fault. -/
theorem InTx.next {φ : Free} {v : Bool} {s t : State} (h : InTx v s) (ht : Machine.tick φ s = .next t)
    (hm : t.mode = .tx) : InTx v t ∧ t.hostTaken = s.hostTaken ∧ t.fault = s.fault ∧ t.savedIE = s.savedIE := by
  obtain ⟨pending, he, hd⟩ := h.tick (φ := φ)
  rw [he] at ht
  generalize hu : ({ s with frameEnv := s.frameEnv.tail, hostPending := pending } : State) = u at ht
  obtain ⟨b, bit, level, f, -, -, -, hl, rfl⟩ | ⟨b, w, -, -, -, -, rfl⟩ := tickTx_cases ht
  · generalize hx : emitBit φ false level f (portWrite b level u) = x at hm ⊢
    have hs : x.frameEnv = s.frameEnv.tail ∧ x.mode = s.mode ∧ x.savedIE = s.savedIE ∧ x.hostIE = s.hostIE ∧
        x.seqP = s.seqP ∧ x.count = s.count ∧ x.hostTaken = s.hostTaken ∧ x.fault = s.fault ∧ x.seqPh = s.seqPh ∧
        bitIndex x = bitIndex s ∧ atLastBit x = atLastBit u ∧ u.seqPh = s.seqPh := by
      subst hx hu; simp [bitIndex, atLastBit]
    obtain ⟨x1, x2, x3, x4, x5, x6, x7, x8, x9, x10, x11, x12⟩ := hs
    have hp : x.seqP.toNat < x.count.toNat := by rw [x5, x6]; exact h.pixel
    have hi := bitIndex_lt h.pixel
    have key : segmentsLeft (advance x) = segmentsLeft s - 1 ∧ (advance x).seqP.toNat < x.count.toNat := by
      cases hph : s.seqPh with
      | hi =>
        rw [advance_hi (x9.trans hph)]
        refine ⟨?_, hp⟩
        simp only [segmentsLeft, hph, bitIndex] at x10 ⊢
        rw [x10, x6]
        omega
      | lo =>
        obtain ⟨a1, a2, a3⟩ := advance_lo (x9.trans hph) hp (by rw [x11]; exact hl (x12.trans hph))
        refine ⟨?_, a3⟩
        simp only [segmentsLeft, hph, a1, a2, x10, advance_count, x6]
        omega
    refine ⟨⟨?_, hm, ?_, ?_, ?_⟩, ?_, ?_, ?_⟩
    · rw [key.1, advance_frameEnv, x1]; exact hd
    · rw [advance_savedIE, x3]; exact h.saved
    · rw [advance_hostIE, x4]; exact h.masked
    · rw [advance_count]; exact key.2
    · rw [advance_hostTaken, x7]
    · rw [advance_fault, x8]
    · rw [advance_savedIE, x3]
  · simp at hm

/-- The high segment of a bit in a frame. -/
theorem tick_high {φ : Free} {b : Binding} {v bit : Bool} {s : State} (h : InFrame b v s) (hph : s.seqPh = .hi)
    (hbit : (frameBits s.buf)[bitIndex s]? = some bit) :
    ∃ pending, tick φ s = .next (advance (emitBit φ false .high (highNs s.params bit)
      (portWrite b .high { s with frameEnv := s.frameEnv.tail, hostPending := pending }))) ∧
      dutifulFor (segmentsLeft s - 1) s.frameEnv.tail = true := by
  obtain ⟨pending, ht, hd⟩ := h.tick (φ := φ)
  refine ⟨pending, ht.trans ?_, hd⟩
  exact tickTx_hi h.bind (by rw [← hbit, ← currentBit_eq]; rfl) hph

/-- The low segment of a bit that is not the last. -/
theorem tick_low {φ : Free} {b : Binding} {v bit : Bool} {s : State} (h : InFrame b v s) (hph : s.seqPh = .lo)
    (hbit : (frameBits s.buf)[bitIndex s]? = some bit) (hl : ¬ atLastBit s = true) :
    ∃ pending, tick φ s = .next (advance (emitBit φ false .low (lowNs s.params bit)
      (portWrite b .low { s with frameEnv := s.frameEnv.tail, hostPending := pending }))) ∧
      dutifulFor (segmentsLeft s - 1) s.frameEnv.tail = true := by
  obtain ⟨pending, ht, hd⟩ := h.tick (φ := φ)
  refine ⟨pending, ht.trans ?_, hd⟩
  exact tickTx_lo h.bind (by rw [← hbit, ← currentBit_eq]; rfl) hph hl

/-- The end of the last bit: the restore of HostIE, then LATCH. -/
theorem tick_last {φ : Free} {b : Binding} {v bit : Bool} {s : State} (h : InFrame b v s) (hph : s.seqPh = .lo)
    (hbit : (frameBits s.buf)[bitIndex s]? = some bit) (hl : atLastBit s = true) :
    ∃ pending, tick φ s = .next { blockWritesIE v (emit φ .low 0 s.params.tresetMax
      (portWrite b .low { s with frameEnv := s.frameEnv.tail, hostPending := pending })) with mode := .latch } ∧
      dutifulFor (segmentsLeft s - 1) s.frameEnv.tail = true := by
  obtain ⟨pending, ht, hd⟩ := h.tick (φ := φ)
  refine ⟨pending, ht.trans ?_, hd⟩
  exact tickTx_last h.bind (by rw [← hbit, ← currentBit_eq]; rfl) hph hl h.saved

/-! ## To the end of the frame -/

theorem portLow_portHigh (w port mask : Nat) : portLow w (portHigh w port mask) mask = portLow w port mask := by
  apply Nat.eq_of_testBit_eq
  intro k
  simp only [portLow_testBit, portHigh_testBit]
  cases decide (k < w) <;> cases port.testBit k <;> cases mask.testBit k <;> rfl

theorem portLow_portLow (w port mask : Nat) : portLow w (portLow w port mask) mask = portLow w port mask := by
  apply Nat.eq_of_testBit_eq
  intro k
  simp only [portLow_testBit]
  cases decide (k < w) <;> cases port.testBit k <;> cases mask.testBit k <;> rfl

/-- Where a frame ends that is at the first segment of a bit in s. -/
structure FrameDone (φ : Free) (b : Binding) (v : Bool) (s t : State) : Prop where
  same      : SameConfig s t
  mode      : t.mode = .idle
  hostIE    : t.hostIE = ieAfter v ((s.frameEnv.drop (segmentsLeft s)).headD .quiet)
  saved     : t.savedIE = some v
  fault     : t.fault = s.fault
  responses : t.responses = 0 :: s.responses
  ieWrites  : t.ieWrites = v :: s.ieWrites
  trace     : t.trace = (rawBits φ s.params s.draws ((frameBits s.buf).drop (bitIndex s))).reverse ++ s.trace
  level     : t.lineLvl = if s.lineOE then .low else .undef
  port      : t.port = portLow s.params.portW s.port b.mask
  latch     : s.params.tresetMin ≤ lowRun t.trace

theorem runTicks_busy {φ : Free} {k : Nat} {s s' : State} (hb : busy s = true) (ht : tick φ s = .next s') :
    runTicks φ (k + 1) s = runTicks φ k s' := by
  simp only [runTicks, hb, if_true, ht, andThen_next]

theorem runTicks_done {φ : Free} {k : Nat} {s : State} (hb : busy s = false) : runTicks φ k s = .next s := by
  cases k <;> simp [runTicks, hb]

/-- The bits still to send at the first segment of a bit. -/
theorem drop_bitIndex {s : State} {bit : Bool} (h : (frameBits s.buf)[bitIndex s]? = some bit) :
    (frameBits s.buf).drop (bitIndex s) = bit :: (frameBits s.buf).drop (bitIndex s + 1) := by
  obtain ⟨hi, hb⟩ := List.getElem?_eq_some_iff.mp h
  rw [List.drop_eq_getElem_cons hi, hb]

/-- The last bit of a frame, with its latch. -/
theorem runTicks_last_bit {φ : Free} {b : Binding} {v bit : Bool} {s : State} {k : Nat} (h : InFrame b v s)
    (hph : s.seqPh = .hi) (hbit : (frameBits s.buf)[bitIndex s]? = some bit)
    (hl : bitIndex s + 1 = 24 * s.count.toNat) :
    ∃ t, runTicks φ (k + 3) s = .next t ∧ FrameDone φ b v s t := by
  obtain ⟨p1, h1, d1⟩ := tick_high (φ := φ) h hph hbit
  have n0 : segmentsLeft s = 2 := by simp only [segmentsLeft, hph]; omega
  rw [advance_hi (by simpa using hph)] at h1
  generalize hs1 : ({ emitBit φ false .high (highNs s.params bit) (portWrite b .high
    { s with frameEnv := s.frameEnv.tail, hostPending := p1 }) with seqPh := .lo } : State) = s1 at h1
  have i1 : bitIndex s1 = bitIndex s := by subst hs1; rfl
  have c1 : s1.count = s.count := by subst hs1; rfl
  have e1 : s1.frameEnv = s.frameEnv.tail := by subst hs1; rfl
  have n1 : segmentsLeft s1 = 1 := by
    have : s1.seqPh = .lo := by subst hs1; rfl
    simp only [segmentsLeft, this, i1, c1]; omega
  have f1 : InFrame b v s1 := by
    refine ⟨⟨?_, ?_, ?_, ?_, ?_⟩, ?_, ?_⟩
    · rw [n1, e1]; rw [n0] at d1; exact d1
    · subst hs1; exact h.mode
    · subst hs1; exact h.saved
    · subst hs1; exact h.masked
    · subst hs1; exact h.pixel
    · subst hs1; exact h.bind
    · subst hs1; exact h.wf
  have u1 : s1.buf = s.buf := by subst hs1; rfl
  have l1 : atLastBit s1 = true := by rw [atLastBit_iff f1.pixel, i1, c1]; exact hl
  obtain ⟨p2, h2, d2⟩ := tick_last (φ := φ) f1 (by subst hs1; rfl) (by rw [u1, i1]; exact hbit) l1
  generalize hs2 : ({ blockWritesIE v (emit φ .low 0 s1.params.tresetMax (portWrite b .low
    { s1 with frameEnv := s1.frameEnv.tail, hostPending := p2 })) with mode := .latch } : State) = s2 at h2
  have e2 : s2.frameEnv = s.frameEnv.tail.tail := by rw [← e1]; subst hs2; simp
  have r2 : s2.frameEnv.headD .quiet ≠ .rst := by
    rw [n1, e1] at d2
    rw [e2]
    simpa [dutifulFor] using d2
  obtain ⟨u, hu, h3⟩ := tick_latch (φ := φ) r2 (by subst hs2; rfl)
  have ho := (hostEvent_hostOnly (s2.frameEnv.headD .quiet) { s2 with frameEnv := s2.frameEnv.tail }).eq
  have hui : u.hostIE = ieAfter v (s2.frameEnv.headD .quiet) := by
    rw [hu, hostEvent_hostIE]; subst hs2; simp
  rw [← hu] at ho
  generalize hs3 : respond 0 ({ emit φ .low (s2.params.tresetMin - lowRun s2.trace)
    (s2.params.tresetMax.map (· - lowRun s2.trace)) u with mode := .idle } : State) = s3 at h3
  refine ⟨s3, ?_, ?_⟩
  · rw [runTicks_busy (by simp [busy, h.mode]) h1, runTicks_busy (by simp [busy, f1.mode]) h2,
      runTicks_busy (by subst hs2; rfl) h3]
    exact runTicks_done (by subst hs3; rfl)
  · have hdrop : (frameBits s.buf).drop (bitIndex s) = [bit] := by
      rw [drop_bitIndex hbit, List.drop_eq_nil_of_le]
      have := h.wf
      rw [Memory.wf_iff] at this
      rw [frameBits_length, this]; omega
    have hie : (s2.frameEnv.headD .quiet) = (s.frameEnv.drop (segmentsLeft s)).headD .quiet := by
      rw [n0, e2, ← List.drop_one, ← List.drop_one, List.drop_drop]
    rw [hie] at hui
    clear hu r2 e2 hie h3 h2 h1
    rw [ho] at hs3
    subst hs3
    subst hs2
    subst hs1
    constructor
    · constructor <;> simp
    · rfl
    · simpa using hui
    · simpa using h.saved
    · simp
    · simp
    · simp
    · rw [hdrop]
      simp [rawBits, emitBit, lowRun]
    · simp
    · simp [portSet, portLow_portHigh]
    · simp [lowRun, emitBit]
      have := drawIn_ge (φ.nat (s.draws + 1 + 1)) (s.params.tresetMin - drawIn (φ.nat (s.draws + 1)) 0 s.params.tresetMax)
        (s.params.tresetMax.map (· - drawIn (φ.nat (s.draws + 1)) 0 s.params.tresetMax))
      omega

/-- A frame whose environment keeps its duties, from the first segment of any of its bits to its end. -/
theorem runTicks_dutiful {φ : Free} {b : Binding} {v : Bool} :
    ∀ (m k : Nat) (s : State), InFrame b v s → s.seqPh = .hi → bitIndex s + (m + 1) = 24 * s.count.toNat →
      ∃ t, runTicks φ (k + 2 * m + 3) s = .next t ∧ FrameDone φ b v s t := by
  intro m
  induction m with
  | zero =>
    intro k s h hph hl
    obtain ⟨bit, hbit⟩ := currentBit_some h.wf h.pixel
    rw [currentBit_eq] at hbit
    exact runTicks_last_bit h hph hbit hl
  | succ m ih =>
    intro k s h hph hl
    obtain ⟨bit, hbit⟩ := currentBit_some h.wf h.pixel
    rw [currentBit_eq] at hbit
    obtain ⟨q1, h1, d1⟩ := tick_high (φ := φ) h hph hbit
    have n0 : segmentsLeft s = 2 * m + 4 := by simp only [segmentsLeft, hph]; omega
    rw [advance_hi (by simpa using hph)] at h1
    generalize hs1 : ({ emitBit φ false .high (highNs s.params bit) (portWrite b .high
      { s with frameEnv := s.frameEnv.tail, hostPending := q1 }) with seqPh := .lo } : State) = s1 at h1
    have i1 : bitIndex s1 = bitIndex s := by subst hs1; rfl
    have c1 : s1.count = s.count := by subst hs1; rfl
    have u1 : s1.buf = s.buf := by subst hs1; rfl
    have p1 : s1.seqPh = .lo := by subst hs1; rfl
    have e1 : s1.frameEnv = s.frameEnv.tail := by subst hs1; rfl
    have n1 : segmentsLeft s1 = 2 * m + 3 := by simp only [segmentsLeft, p1, i1, c1]; omega
    have f1 : InFrame b v s1 := by
      refine ⟨⟨?_, ?_, ?_, ?_, ?_⟩, ?_, ?_⟩
      · rw [n1, e1]; rw [n0] at d1; exact d1
      · subst hs1; exact h.mode
      · subst hs1; exact h.saved
      · subst hs1; exact h.masked
      · subst hs1; exact h.pixel
      · subst hs1; exact h.bind
      · subst hs1; exact h.wf
    have l1 : ¬ atLastBit s1 = true := by rw [atLastBit_iff f1.pixel, i1, c1]; omega
    obtain ⟨q2, h2, d2⟩ := tick_low (φ := φ) f1 p1 (by rw [u1, i1]; exact hbit) l1
    generalize hw : emitBit φ false .low (lowNs s1.params bit) (portWrite b .low
      { s1 with frameEnv := s1.frameEnv.tail, hostPending := q2 }) = w at h2
    have pw : w.seqPh = .lo := by subst hw; simpa using p1
    have qw : w.seqP.toNat < w.count.toNat := by subst hw; simpa using f1.pixel
    have iw : bitIndex w = bitIndex s := by rw [← i1]; subst hw; simp [bitIndex]
    have cw : w.count = s.count := by subst hw; simpa using c1
    have ew : w.frameEnv = s.frameEnv.tail.tail := by rw [← e1]; subst hw; simp
    have lw : ¬ atLastBit w = true := by rw [atLastBit_iff qw, iw, cw]; omega
    obtain ⟨ia, pa, na⟩ := advance_lo pw qw lw
    have n2 : segmentsLeft (advance w) = 2 * m + 2 := by
      simp only [segmentsLeft, pa, ia, iw, advance_count, cw]; omega
    have f2 : InFrame b v (advance w) := by
      refine ⟨⟨?_, ?_, ?_, ?_, ?_⟩, ?_, ?_⟩
      · rw [n2, advance_frameEnv, ew, ← e1]; rw [n1] at d2; exact d2
      · subst hw; simpa using f1.mode
      · subst hw; simpa using f1.saved
      · subst hw; simpa using f1.masked
      · simpa using na
      · subst hw; simpa using f1.bind
      · subst hw; simpa using f1.wf
    obtain ⟨t, ht, hd⟩ := ih k (advance w) f2 pa (by rw [ia, iw, advance_count, cw]; omega)
    refine ⟨t, ?_, ?_⟩
    · rw [show k + 2 * (m + 1) + 3 = (k + 2 * m + 3) + 1 + 1 by ring,
        runTicks_busy (by simp [busy, h.mode]) h1, runTicks_busy (by simp [busy, f1.mode]) h2]
      exact ht
    · have hnext : ∃ bit', (frameBits s.buf)[bitIndex s + 1]? = some bit' := by
        have := currentBit_some f2.wf f2.pixel
        rw [currentBit_eq, ia, iw] at this
        have ub : (advance w).buf = s.buf := by rw [advance_buf]; subst hw; simpa using u1
        rwa [ub] at this
      obtain ⟨bit', hbit'⟩ := hnext
      obtain ⟨hlt, hb'⟩ := List.getElem?_eq_some_iff.mp hbit'
      have htr := hd.trace
      have hie := hd.hostIE
      rw [n2, advance_frameEnv, ew, ← List.drop_one, ← List.drop_one, List.drop_drop, List.drop_drop,
        show 1 + (1 + (2 * m + 2)) = segmentsLeft s by omega] at hie
      have dw : (frameBits (advance w).buf).drop (bitIndex (advance w)) = bit' :: (frameBits s.buf).drop (bitIndex s + 2) := by
        rw [ia, iw, advance_buf, show w.buf = s.buf by subst hw; simpa using u1, List.drop_eq_getElem_cons hlt, hb']
      subst hw
      subst hs1
      constructor
      · refine SameConfig.trans ?_ hd.same
        constructor <;> simp
      · exact hd.mode
      · exact hie
      · exact hd.saved
      · simpa using hd.fault
      · simpa using hd.responses
      · simpa using hd.ieWrites
      · rw [htr, dw, drop_bitIndex hbit, List.drop_eq_getElem_cons hlt, hb']
        simp [rawBits, emitBit]
      · simpa using hd.level
      · simpa [portSet, portLow_portHigh, portLow_portLow] using hd.port
      · simpa using hd.latch

end Sys2Proof.Machine
end

