-- ==== Sys2Proof/Laws/Step.lean ====
section
/-! SUPPORT. Everything one tick can do in any environment, said once, and the induction over the ticks of a command. -/

namespace Sys2Proof.Machine

/-! ## Fields that several updates keep -/

@[simp] theorem startFrame_count (φ : Free) (s : State) : (startFrame φ s).count = s.count := by simp [startFrame]
@[simp] theorem startFrame_bind (φ : Free) (s : State) : (startFrame φ s).bind = s.bind := by simp [startFrame]
@[simp] theorem startFrame_buf (φ : Free) (s : State) : (startFrame φ s).buf = s.buf := by simp [startFrame]
@[simp] theorem startFrame_bri (φ : Free) (s : State) : (startFrame φ s).bri = s.bri := by simp [startFrame]
@[simp] theorem startFrame_begun (φ : Free) (s : State) : (startFrame φ s).begun = s.begun := by simp [startFrame]
@[simp] theorem startFrame_lineOE (φ : Free) (s : State) : (startFrame φ s).lineOE = s.lineOE := by simp [startFrame]
@[simp] theorem startFrame_lineLvl (φ : Free) (s : State) : (startFrame φ s).lineLvl = s.lineLvl := by simp [startFrame]
@[simp] theorem startFrame_mode (φ : Free) (s : State) : (startFrame φ s).mode = .tx := by simp [startFrame]
@[simp] theorem startFrame_seqP (φ : Free) (s : State) : (startFrame φ s).seqP = 0 := rfl
@[simp] theorem startFrame_seqK (φ : Free) (s : State) : (startFrame φ s).seqK = .g := rfl
@[simp] theorem startFrame_seqB (φ : Free) (s : State) : (startFrame φ s).seqB = 7 := rfl
@[simp] theorem startFrame_seqPh (φ : Free) (s : State) : (startFrame φ s).seqPh = .hi := rfl
@[simp] theorem startFrame_savedIE (φ : Free) (s : State) : (startFrame φ s).savedIE = some s.hostIE := by
  simp [startFrame]
@[simp] theorem startFrame_hostIE (φ : Free) (s : State) : (startFrame φ s).hostIE = false := by simp [startFrame]
/-- "No host interrupt can be taken between" the copy and the clear (R78). -/
@[simp] theorem startFrame_hostTaken (φ : Free) (s : State) : (startFrame φ s).hostTaken = s.hostTaken := rfl
@[simp] theorem startFrame_fault (φ : Free) (s : State) : (startFrame φ s).fault = s.fault := by simp [startFrame]
@[simp] theorem startFrame_rst (φ : Free) (s : State) : (startFrame φ s).rst = s.rst := by simp [startFrame]
@[simp] theorem startFrame_cmd (φ : Free) (s : State) : (startFrame φ s).cmd = s.cmd := by simp [startFrame]
@[simp] theorem startFrame_port (φ : Free) (s : State) : (startFrame φ s).port = s.port := by simp [startFrame]
@[simp] theorem startFrame_inputs (φ : Free) (s : State) : (startFrame φ s).inputs = s.inputs := by simp [startFrame]
@[simp] theorem startFrame_frameEnv (φ : Free) (s : State) : (startFrame φ s).frameEnv = s.frameEnv := by
  simp [startFrame]
@[simp] theorem startFrame_responses (φ : Free) (s : State) : (startFrame φ s).responses = s.responses := by
  simp [startFrame]
@[simp] theorem startFrame_ieWrites (φ : Free) (s : State) : (startFrame φ s).ieWrites = false :: s.ieWrites := by
  simp [startFrame]
@[simp] theorem startFrame_params (φ : Free) (s : State) : (startFrame φ s).params = s.params := by simp [startFrame]
@[simp] theorem startFrame_draws (φ : Free) (s : State) : (startFrame φ s).draws = s.draws + 2 := by simp [startFrame]

theorem startFrame_trace (φ : Free) (s : State) :
    (startFrame φ s).trace = ⟨.low, φ.nat (s.draws + 1)⟩ :: ⟨.low, φ.nat s.draws⟩ :: s.trace := by
  simp [startFrame, drawIn]

theorem startFrame_bitIndex (φ : Free) (s : State) : bitIndex (startFrame φ s) = 0 := rfl

/-! ## One tick, in any environment -/

/-- What one segment of the block itself can do (no `rst`): the cases of its MODE. -/
inductive BlockStep (φ : Free) (s : State) : State → Prop where
  | config (b : Binding) (level : Level) (hm : s.mode = .config) (hb : s.bind = some b)
      (hl : level = .low ∨ level = .high) :
      BlockStep φ s (startFrame φ (portWrite b .low (emit φ level 0 none { s with lineOE := true, lineLvl := level })))
  | segment (b : Binding) (d bit : Bool) (level : Level) (f : Nat) (s' : State) (hm : s.mode = .tx)
      (hb : s.bind = some b) (hl : level = .low ∨ level = .high) (hp : s.seqPh = .lo → ¬ atLastBit s = true)
      (hs : (d = false ∧ s' = s ∧ s.hostIE = false) ∨ (d = true ∧ s' = recordFault .timingViolation s)) :
      BlockStep φ s (advance (emitBit φ d level f (portWrite b level s')))
  | last (b : Binding) (d v : Bool) (s' : State) (hm : s.mode = .tx) (hb : s.bind = some b) (hsv : s.savedIE = some v)
      (hp : s.seqPh = .lo) (hl : atLastBit s = true)
      (hs : (d = false ∧ s' = s ∧ s.hostIE = false) ∨ (d = true ∧ s' = recordFault .timingViolation s)) :
      BlockStep φ s { blockWritesIE v (emit φ .low 0 (lastLowMax d s'.params) (portWrite b .low s')) with mode := .latch }
  | latch (hm : s.mode = .latch) :
      BlockStep φ s (respond 0 { emit φ .low (s.params.tresetMin - lowRun s.trace)
        (s.params.tresetMax.map (· - lowRun s.trace)) s with mode := .idle })
  | rest (hm : s.mode = .idle ∨ s.mode = .halt) : BlockStep φ s s

theorem tickConfig_some {φ : Free} {s : State} {b : Binding} (hb : s.bind = some b) :
    tickConfig φ s = .next (startFrame φ (portWrite b .low (emit φ (if φ.bit s.draws then .high else .low) 0 none
      { s with lineOE := true, lineLvl := if φ.bit s.draws then .high else .low }))) := by
  unfold tickConfig
  rw [hb]

theorem blockTick_config {φ : Free} {i : Bool} {s : State} (hm : s.mode = .config) :
    blockTick φ i s = tickConfig φ s := by
  unfold blockTick
  rw [hm]

theorem blockTick_tx {φ : Free} {i : Bool} {s : State} (hm : s.mode = .tx) :
    blockTick φ i s =
      if i || s.hostIE then tickTx φ true (recordFault .timingViolation s) else tickTx φ false s := by
  unfold blockTick
  rw [hm]

theorem blockTick_latch {φ : Free} {i : Bool} {s : State} (hm : s.mode = .latch) :
    blockTick φ i s = .next (respond 0 { emit φ .low (s.params.tresetMin - lowRun s.trace)
      (s.params.tresetMax.map (· - lowRun s.trace)) s with mode := .idle }) := by
  unfold blockTick
  rw [hm]
  rfl

theorem blockTick_cases {φ : Free} {i : Bool} {s t : State} (h : blockTick φ i s = .next t) : BlockStep φ s t := by
  cases hm : s.mode with
  | config =>
    rw [blockTick_config hm] at h
    cases hb : s.bind with
    | none => simp [tickConfig, hb] at h
    | some b =>
      rw [tickConfig_some hb] at h
      injection h with h
      rw [← h]
      exact .config b (if φ.bit s.draws then .high else .low) hm hb (by split <;> simp)
  | tx =>
    rw [blockTick_tx hm] at h
    split at h
    · obtain ⟨b, bit, level, f, hb, hc, hl, hp, rfl⟩ | ⟨b, v, hb, hsv, hp, hl, rfl⟩ := tickTx_cases h
      · exact .segment b true bit level f _ hm hb hl hp (.inr ⟨rfl, rfl⟩)
      · exact .last b true v _ hm hb hsv hp hl (.inr ⟨rfl, rfl⟩)
    · rename_i hd
      have hi : s.hostIE = false := by simp at hd; exact hd.2
      obtain ⟨b, bit, level, f, hb, hc, hl, hp, rfl⟩ | ⟨b, v, hb, hsv, hp, hl, rfl⟩ := tickTx_cases h
      · exact .segment b false bit level f s hm hb hl hp (.inl ⟨rfl, rfl, hi⟩)
      · exact .last b false v s hm hb hsv hp hl (.inl ⟨rfl, rfl, hi⟩)
  | latch =>
    rw [blockTick_latch hm] at h
    injection h with h
    rw [← h]
    exact .latch hm
  | idle =>
    simp only [blockTick, hm] at h
    injection h with h
    rw [← h]
    exact .rest (.inl hm)
  | halt =>
    simp only [blockTick, hm] at h
    injection h with h
    rw [← h]
    exact .rest (.inr hm)

/-- What `rst` may change before construction: the cut segment and, with the critical section open, HostIE. -/
theorem assertRst_cases {s t : State} (h : assertRst s = .next t) :
    (s.mode = .tx ∧ ∃ v, s.savedIE = some v ∧ t = { construct (blockWritesIE v s) with rst := true }) ∨
    (s.mode ≠ .tx ∧ t = { construct s with rst := true }) := by
  cases hm : s.mode with
  | tx =>
    simp only [assertRst, hm] at h
    obtain ⟨s', hs, ht⟩ := andThen_eq_next h
    cases hsv : s.savedIE with
    | none => simp [exitCritical, hsv] at hs
    | some v =>
      rw [exitCritical_some hsv] at hs
      injection hs with hs
      injection ht with ht
      exact .inl ⟨rfl, v, rfl, by rw [← ht, ← hs]⟩
  | _ =>
    simp only [assertRst, hm] at h
    injection h with h
    exact .inr ⟨by simp, h.symm⟩

/-- With the critical section not open, `rst` only constructs. -/
theorem assertRst_outside {s : State} (h : s.mode ≠ .tx) : assertRst s = .next { construct s with rst := true } := by
  unfold assertRst
  split
  · exact absurd ‹_› h
  · rfl

theorem construct_mode_cases (s : State) : (construct s).mode = .idle ∨ (construct s).mode = .halt := by
  rw [construct_mode]
  split
  · exact .inl rfl
  · exact .inr rfl

/-- A constructed block runs no command. -/
theorem constructed_not_busy (s : State) (v : Bool) : busy { construct s with rst := v } = false := by
  unfold busy
  obtain h | h := construct_mode_cases s <;> rw [h]

/-- The cut segment changes only the output, the trace and the counter; the port register by one output write at most. -/
theorem cutSegment_cases (φ : Free) (s : State) :
    (∃ trace draws, cutSegment φ s = { s with trace := trace, draws := draws }) ∨
    ∃ b level trace draws, s.bind = some b ∧ (level = .low ∨ level = .high) ∧
      cutSegment φ s = { portWrite b level s with trace := trace, draws := draws } := by
  unfold cutSegment
  split
  · rename_i b hm hb
    dsimp only
    generalize (if φ.bit (s.draws + 1) then Level.high else Level.low) = level
    split
    · exact .inl ⟨_, _, rfl⟩
    · split
      · exact .inl ⟨_, _, rfl⟩
      · exact .inr ⟨b, .low, _, _, hb, .inl rfl, rfl⟩
  · rename_i b hm hb
    split
    · exact .inr ⟨b, s.seqPh.level, _, _, hb, by cases s.seqPh <;> simp [Phase.level], rfl⟩
    · exact .inl ⟨_, _, rfl⟩
  · exact .inl ⟨_, _, rfl⟩
  · exact .inl ⟨_, _, rfl⟩

/-- Everything a tick can do: `rst`, or the host's event and then the block's segment. -/
theorem tick_cases {φ : Free} {s t : State} (h : tick φ s = .next t) :
    (s.frameEnv.headD .quiet = .rst ∧ assertRst (cutSegment φ { s with frameEnv := s.frameEnv.tail }) = .next t) ∨
    (s.frameEnv.headD .quiet ≠ .rst ∧
      blockTick φ ((s.frameEnv.headD .quiet).interferes || endsLate { s with frameEnv := s.frameEnv.tail })
        (hostEvent (s.frameEnv.headD .quiet) { s with frameEnv := s.frameEnv.tail }) = .next t) := by
  by_cases he : s.frameEnv.headD .quiet = .rst
  · exact .inl ⟨he, by simpa only [tick, if_pos he] using h⟩
  · exact .inr ⟨he, tick_of_ne_rst he ▸ h⟩

/-! ## Induction over the ticks of a command -/

/-- A property that every tick of a busy block keeps holds at the end of its ticks. -/
theorem runTicks_induction {φ : Free} {P : State → Prop}
    (hstep : ∀ s s', busy s = true → P s → tick φ s = .next s' → P s') :
    ∀ (k : Nat) (s t : State), P s → runTicks φ k s = .next t → P t := by
  intro k
  induction k with
  | zero => intro s t hs h; injection h with h; exact h ▸ hs
  | succ k ih =>
    intro s t hs h
    unfold runTicks at h
    split at h
    · rename_i hb
      obtain ⟨s', h1, h2⟩ := andThen_eq_next h
      exact ih s' t (hstep s s' hb hs h1) h2
    · injection h with h; exact h ▸ hs

/-- How many ticks a command has left at most. A block of a count of 0 has no frame; it is counted as one pixel so that
the bound holds in every state. -/
def ticksLeft (s : State) : Nat :=
  let m := max s.count.toNat 1
  match s.mode with
  | .config => 48 * m + 2
  | .tx => 2 * (24 * m - bitIndex s) + (match s.seqPh with | .hi => 1 | .lo => 0)
  | .latch => 1
  | .idle | .halt => 0

/-- SEQ.P names a pixel, or the first one of a block without pixels. -/
def PixelInFrame (s : State) : Prop := s.mode = .tx → s.seqP.toNat < max s.count.toNat 1

theorem bitIndex_lt_max {s : State} (hp : s.seqP.toNat < max s.count.toNat 1) :
    bitIndex s < 24 * max s.count.toNat 1 := by
  have hk := s.seqK.num_lt
  unfold bitIndex
  omega

/-- The sequencer's step within a frame comes one tick nearer to the end. -/
theorem advance_ticksLeft {s : State} (hm : s.mode = .tx) (hp : s.seqP.toNat < max s.count.toNat 1)
    (hl : s.seqPh = .lo → ¬ atLastBit s = true) :
    ticksLeft (advance s) < ticksLeft s ∧ PixelInFrame (advance s) := by
  have hi := bitIndex_lt_max hp
  cases hph : s.seqPh with
  | hi =>
    rw [advance_hi hph]
    refine ⟨?_, fun _ => hp⟩
    simp only [ticksLeft, bitIndex, hm, hph] at hi ⊢
    omega
  | lo =>
    obtain ⟨h1, h2, h3⟩ := advance_lo_max hph hp (hl hph)
    refine ⟨?_, fun _ => by simpa using h3⟩
    simp only [ticksLeft, advance_mode, advance_count, hm, hph, h1, h2]
    omega

theorem blockStep_ticksLeft {φ : Free} {s t : State} (h : BlockStep φ s t) (hs : PixelInFrame s)
    (ht : busy t = true) : ticksLeft t < ticksLeft s ∧ PixelInFrame t := by
  cases h with
  | config b level hm hb hl =>
    refine ⟨?_, fun _ => by simp⟩
    simp [ticksLeft, hm, bitIndex, Slot.num]
    omega
  | segment b d bit level f s' hm hb hl hp hs' =>
    have hsame : s'.mode = s.mode ∧ s'.count = s.count ∧ s'.seqP = s.seqP ∧ s'.seqK = s.seqK ∧ s'.seqB = s.seqB ∧
        s'.seqPh = s.seqPh := by
      obtain ⟨_, rfl, _⟩ | ⟨_, rfl⟩ := hs' <;> simp
    obtain ⟨m1, c1, p1, k1, b1, ph1⟩ := hsame
    generalize hw : emitBit φ d level f (portWrite b level s') = w
    have mw : w.mode = .tx := by subst hw; simpa [m1] using hm
    have pw : w.seqP.toNat < max w.count.toNat 1 := by subst hw; simpa [p1, c1] using hs hm
    have lw : atLastBit w = atLastBit s := by subst hw; simp [atLastBit, b1, k1, p1, c1]
    have hlt := advance_ticksLeft mw pw (by
      rw [lw]; subst hw; simpa [ph1] using hp)
    have htl : ticksLeft w = ticksLeft s := by subst hw; simp [ticksLeft, bitIndex, m1, c1, p1, k1, b1, ph1]
    rw [← htl]
    exact hlt
  | last b d v s' hm hb hsv hp hl hs' =>
    refine ⟨?_, fun h => by simp at h⟩
    have hi := bitIndex_lt_max (hs hm)
    simp only [ticksLeft, hm, hp]
    omega
  | latch hm => simp [busy] at ht
  | rest hm => cases hm <;> simp_all [busy]

/-- A tick comes nearer to the end of the command. -/
theorem tick_ticksLeft {φ : Free} {s t : State} (h : tick φ s = .next t) (hs : PixelInFrame s) (ht : busy t = true) :
    ticksLeft t < ticksLeft s ∧ PixelInFrame t := by
  obtain ⟨-, h⟩ | ⟨-, h⟩ := tick_cases h
  · exfalso
    obtain ⟨-, v, -, rfl⟩ | ⟨-, rfl⟩ := assertRst_cases h
    · exact absurd ht (by rw [constructed_not_busy]; simp)
    · exact absurd ht (by rw [constructed_not_busy]; simp)
  · have ho := (hostEvent_hostOnly (s.frameEnv.headD .quiet) { s with frameEnv := s.frameEnv.tail }).eq
    generalize hostEvent (s.frameEnv.headD .quiet) { s with frameEnv := s.frameEnv.tail } = s1 at h ho
    have hp : PixelInFrame s1 := by rw [ho]; exact hs
    have hl : ticksLeft s1 = ticksLeft s := by rw [ho]; rfl
    rw [← hl]
    exact blockStep_ticksLeft (blockTick_cases h) hp ht

/-- Ticks enough bring a command to its end. -/
theorem runTicks_finishes {φ : Free} :
    ∀ (k : Nat) (s t : State), PixelInFrame s → ticksLeft s ≤ k → runTicks φ k s = .next t → busy t = false := by
  intro k
  induction k with
  | zero =>
    intro s t hs hk h
    injection h with h
    subst h
    cases hm : s.mode <;> simp [ticksLeft, hm, busy] at hk ⊢
    have := bitIndex_lt_max (hs hm)
    omega
  | succ k ih =>
    intro s t hs hk h
    unfold runTicks at h
    split at h
    · obtain ⟨s', h1, h2⟩ := andThen_eq_next h
      cases hb : busy s' with
      | false =>
        rw [runTicks_done hb] at h2
        injection h2 with h2
        exact h2 ▸ hb
      | true =>
        obtain ⟨hlt, hp⟩ := tick_ticksLeft h1 hs hb
        exact ih s' t hp (by omega) h2
    · rename_i hb
      injection h with h
      exact h ▸ (by simpa using hb)

/-- TRANSMIT's frame and BEGIN's are long enough (`frameFuel`) to run to their end. -/
theorem transmitFrame_finishes {φ : Free} {s t : State} (h : transmitFrame φ s = .next t) : busy t = false := by
  refine runTicks_finishes _ _ _ (fun _ => by simp) ?_ h
  simp only [ticksLeft, startFrame_mode, startFrame_bitIndex, startFrame_seqPh, startFrame_count, frameFuel]
  omega

theorem beginFrame_finishes {φ : Free} {s t : State} (h : beginFrame φ s = .next t) : busy t = false := by
  refine runTicks_finishes _ _ _ (fun h => by simp at h) ?_ h
  simp only [ticksLeft, frameFuel]
  omega

end Sys2Proof.Machine
end

