-- ==== Sys2Proof/Laws/Command.lean ====
section
/-! SUPPORT. Everything a command can do, said once: one tick with all that `rst` keeps, `exec` by its cases, the ground on
which no tick stops, and a whole frame from its start. -/

namespace Sys2Proof.Machine

theorem busy_iff {s : State} : busy s = true ↔ s.mode = .config ∨ s.mode = .tx ∨ s.mode = .latch := by
  unfold busy
  cases s.mode <;> simp

/-- While the block is busy and `rst` is 0, a step is a tick. -/
theorem step_busy {s : State} (hr : s.rst = false) (hb : busy s = true) : step s = tick Config.free s := by
  unfold busy at hb
  simp only [step, hr]
  cases hm : s.mode <;> simp_all

/-- An idle block runs the word on its port after the event at its acceptance. -/
theorem step_runs {s : State} {w : Word} (hr : s.rst = false) (hm : s.mode = .idle) (hc : s.cmd = some w)
    (he : s.frameEnv.headD .quiet ≠ .rst) :
    step s = runWord w (hostEvent (s.frameEnv.headD .quiet) { s with cmd := none, frameEnv := s.frameEnv.tail }) := by
  unfold step stepIdle
  rw [if_neg (by simp [hr]), hm, hc]
  exact if_neg he

/-- `rst` at its acceptance abandons it. -/
theorem step_abandons {s : State} {w : Word} (hr : s.rst = false) (hm : s.mode = .idle) (hc : s.cmd = some w)
    (he : s.frameEnv.headD .quiet = .rst) :
    step s = .next { construct { s with cmd := none, frameEnv := s.frameEnv.tail } with rst := true } := by
  unfold step stepIdle
  rw [if_neg (by simp [hr]), hm, hc]
  exact (if_pos he).trans (assertRst_outside (by simp))

/-- A word that decodes is run as its command, one that does not raises ILLEGAL_COMMAND. -/
theorem runWord_ok {s : State} {w : Word} {i : Instr} (h : decode s.params.hasRawRead w = .ok i) :
    runWord w s = exec i s := by
  simp only [runWord, h]

theorem runWord_error {s : State} {w : Word} {e : Illegal} (h : decode s.params.hasRawRead w = .error e) :
    runWord w s = raiseFault .illegalCommand s := by
  simp only [runWord, h]

/-- What a tick that `rst` cuts leaves, before construction: `u` is the state after the cut segment, `v` after the restore
of HostIE. -/
structure CutTick (s u v : State) : Prop where
  hostIE    : u.hostIE = s.hostIE
  savedIE   : u.savedIE = s.savedIE
  responses : u.responses = s.responses
  mode      : u.mode = s.mode
  params    : u.params = s.params
  ieWrites  : u.ieWrites = s.ieWrites
  cmd       : u.cmd = s.cmd
  inputs    : u.inputs = s.inputs
  frameEnv  : u.frameEnv = s.frameEnv.tail
  port      : u.port = s.port ∨ ∃ b level, s.bind = some b ∧ (level = .low ∨ level = .high) ∧
    u.port = portSet s.params.portW s.port b.mask level
  restore   : (s.mode ≠ .tx ∧ v = u) ∨ (s.mode = .tx ∧ ∃ ie, s.savedIE = some ie ∧ v = blockWritesIE ie u)

/-- A tick, in full: either `rst` cuts it, or the host's event is followed by the block's own segment. -/
theorem tick_outcome {φ : Free} {s t : State} (h : tick φ s = .next t) :
    (∃ u v, CutTick s u v ∧ t = { construct v with rst := true }) ∨
    (∃ s1 e, HostOnly { s with frameEnv := s.frameEnv.tail } s1 ∧ (e ∈ s.frameEnv ∨ e = .quiet) ∧ e ≠ .rst ∧
      s1 = hostEvent e { s with frameEnv := s.frameEnv.tail } ∧ BlockStep φ s1 t) := by
  obtain ⟨he, h⟩ | ⟨he, h⟩ := tick_cases h
  · left
    generalize hu : cutSegment φ { s with frameEnv := s.frameEnv.tail } = u at h
    have hc := cutSegment_cases φ { s with frameEnv := s.frameEnv.tail }
    rw [hu] at hc
    have key (v : State) (hv : (s.mode ≠ .tx ∧ v = u) ∨ (s.mode = .tx ∧ ∃ ie, s.savedIE = some ie ∧ v = blockWritesIE ie u)) :
        CutTick s u v := by
      obtain ⟨_, _, rfl⟩ | ⟨b, level, _, _, hb, hl, rfl⟩ := hc
      · exact ⟨rfl, rfl, rfl, rfl, rfl, rfl, rfl, rfl, rfl, .inl rfl, hv⟩
      · exact ⟨rfl, rfl, rfl, rfl, rfl, rfl, rfl, rfl, rfl, .inr ⟨b, level, hb, hl, rfl⟩, hv⟩
    have hm : u.mode = s.mode ∧ u.savedIE = s.savedIE := by
      obtain ⟨_, _, rfl⟩ | ⟨b, level, _, _, hb, hl, rfl⟩ := hc <;> exact ⟨rfl, rfl⟩
    obtain ⟨hx, v, hv, rfl⟩ | ⟨hx, rfl⟩ := assertRst_cases h
    · exact ⟨u, _, key _ (.inr ⟨hm.1 ▸ hx, v, hm.2 ▸ hv, rfl⟩), rfl⟩
    · exact ⟨u, _, key _ (.inl ⟨hm.1 ▸ hx, rfl⟩), rfl⟩
  · right
    refine ⟨_, s.frameEnv.headD .quiet, hostEvent_hostOnly _ _, ?_, he, rfl, blockTick_cases h⟩
    cases s.frameEnv <;> simp

/-- `exec`, by its cases: BEGIN's frame, TRANSMIT's frame, or a command that responds and changes at most FAULT, the
brightness and the buffer. -/
theorem exec_cases {i : Instr} {s t : State} (h : exec i s = .next t) :
    (i = .beginLine ∧ beginFrame Config.free s = .next t) ∨ (i = .transmit ∧ s.begun = true ∧ transmitFrame Config.free s = .next t) ∨
    (i ≠ .beginLine ∧ ¬ (i = .transmit ∧ s.begun = true) ∧ ∃ w f br bu,
      t = { s with responses := w :: s.responses, fault := s.fault ||| f, bri := br, buf := bu } ∧
      (w ≠ 0 → i = .getCount ∨ ∃ index, i = .getPixel index) ∧
      (∀ j, Memory.read bu j = Memory.read s.buf j ∨ i = .clear ∨
        (∃ index r g b, i = .setPixel index r g b ∧ j = index.toNat) ∨
        (∃ index px, i = .setPixelPx index px ∧ j = index.toNat))) := by
  cases i with
  | beginLine => exact .inl ⟨rfl, h⟩
  | transmit =>
    simp only [exec, execTransmit] at h
    split at h
    · exact .inr (.inl ⟨rfl, ‹_›, h⟩)
    · injection h with h; subst h
      refine .inr (.inr ⟨by simp, by simp [*], 0, _, s.bri, s.buf, rfl, by simp, fun j => .inl rfl⟩)
  | setPixel x r g b =>
    simp only [exec, execSetPixel, storePixel] at h
    injection h with h; subst h
    refine .inr (.inr ⟨by simp, by simp, 0, 0#8, s.bri, if inRange x s then Memory.write s.buf x.toNat (scalePixel ⟨r,g,b⟩ s.bri) else s.buf, ?_, by simp, ?_⟩)
    · split <;> simp [respond]
    · intro j
      by_cases hj : j = x.toNat
      · exact .inr (.inr (.inl ⟨x, r, g, b, rfl, hj⟩))
      · left; split
        · rw [Memory.read_write_other _ (Ne.symm hj)]
        · rfl
  | setPixelPx x px =>
    simp only [exec, execSetPixelPx, storePixel] at h
    injection h with h; subst h
    refine .inr (.inr ⟨by simp, by simp, 0, 0#8, s.bri, if inRange x s then Memory.write s.buf x.toNat (scalePixel px s.bri) else s.buf, ?_, by simp, ?_⟩)
    · split <;> simp [respond]
    · intro j
      by_cases hj : j = x.toNat
      · exact .inr (.inr (.inr ⟨x, px, rfl, hj⟩))
      · left; split
        · rw [Memory.read_write_other _ (Ne.symm hj)]
        · rfl
  | clear =>
    injection h with h; subst h
    exact .inr (.inr ⟨by simp, by simp, 0, 0#8, s.bri, _, by simp [respond]; rfl, by simp, by simp⟩)
  | setBrightness v =>
    injection h with h; subst h
    exact .inr (.inr ⟨by simp, by simp, 0, 0#8, v, s.buf, by simp [respond], by simp, by simp⟩)
  | getCount =>
    injection h with h; subst h
    exact .inr (.inr ⟨by simp, by simp, packCount s.count, 0#8, s.bri, s.buf, by simp [respond], by simp, by simp⟩)
  | getPixel x =>
    simp only [exec, execGetPixel] at h
    split at h
    · injection h with h; subst h
      exact .inr (.inr ⟨by simp, by simp, 0, _, s.bri, s.buf, rfl, by simp, by simp⟩)
    · split at h
      · split at h
        · injection h with h; subst h
          exact .inr (.inr ⟨by simp, by simp, packPixel _, 0#8, s.bri, s.buf, by simp [respond]; rfl, by simp, by simp⟩)
        · simp at h
      · injection h with h; subst h
        exact .inr (.inr ⟨by simp, by simp, 0, _, s.bri, s.buf, rfl, by simp, by simp⟩)

/-! ## The ground on which no tick stops -/

/-- What a state needs so that its command runs to the end: while busy, a binding and a buffer of N pixels; in TX, SAVED_IE
written and SEQ.P in range. -/
structure Sound (s : State) : Prop where
  halt  : s.mode = .halt → s.rst = true
  bound : busy s = true → s.bind ≠ none
  wf    : busy s = true → Memory.wf s.count s.buf = true
  nz    : busy s = true → s.count ≠ 0#16
  saved : s.mode = .tx → s.savedIE ≠ none
  pixel : s.mode = .tx → s.seqP.toNat < s.count.toNat

/-- A tick of a busy block on that ground answers a next state, on the same ground. -/
theorem tick_sound {φ : Free} {s : State} (hb : busy s = true) (hs : Sound s) : ∃ t, tick φ s = .next t ∧ Sound t := by
  obtain ⟨b, hbd⟩ := Option.ne_none_iff_exists'.1 (hs.bound hb)
  have hwf := hs.wf hb
  by_cases he : s.frameEnv.headD .quiet = .rst
  · have h1 : tick φ s = assertRst (cutSegment φ { s with frameEnv := s.frameEnv.tail }) := by
      simp only [tick, if_pos he]
    rw [h1]
    have hc := cutSegment_cases φ { s with frameEnv := s.frameEnv.tail }
    generalize cutSegment φ { s with frameEnv := s.frameEnv.tail } = u at hc
    have k : u.mode = s.mode ∧ u.savedIE = s.savedIE := by
      obtain ⟨_, _, rfl⟩ | ⟨b, level, _, _, hb, hl, rfl⟩ := hc <;> simp
    have snd : ∀ w : State, Sound { construct w with rst := true } := by
      intro w
      have : ¬ busy { construct w with rst := true } = true := by rw [constructed_not_busy]; simp
      refine ⟨fun _ => rfl, fun h => absurd h this, fun h => absurd h this, fun h => absurd h this, fun h => ?_,
        fun h => ?_⟩
      · exact absurd (busy_iff.2 (.inr (.inl h))) this
      · exact absurd (busy_iff.2 (.inr (.inl h))) this
    unfold assertRst
    rw [k.1]
    cases hm : s.mode with
    | tx =>
      obtain ⟨v, hv⟩ := Option.ne_none_iff_exists'.1 (hs.saved hm)
      simp only [exitCritical_some (k.2.trans hv), andThen_next]
      exact ⟨_, rfl, snd _⟩
    | _ => exact ⟨_, rfl, snd _⟩
  · rw [tick_of_ne_rst he]
    generalize endsLate { s with frameEnv := s.frameEnv.tail } = late at *
    generalize (s.frameEnv.headD .quiet) = e at *
    have ho := (hostEvent_hostOnly e { s with frameEnv := s.frameEnv.tail })
    generalize hostEvent e { s with frameEnv := s.frameEnv.tail } = u at *
    have e1 : u.mode = s.mode := by rw [ho.eq]
    have e2 : u.bind = some b := by rw [ho.eq]; exact hbd
    have e3 : Memory.wf u.count u.buf = true := by rw [ho.eq]; exact hwf
    have e4 : u.savedIE = s.savedIE := by rw [ho.eq]
    have e5 : u.seqP = s.seqP := by rw [ho.eq]
    have e6 : u.count = s.count := by rw [ho.eq]
    have nz : u.count ≠ 0#16 := by rw [e6]; exact hs.nz hb
    rcases busy_iff.1 hb with hm | hm | hm
    · rw [blockTick_config (e1.trans hm), tickConfig_some e2]
      refine ⟨_, rfl, ?_⟩
      constructor <;> simp [busy, e2, e3, nz]
      have hn : u.count.toNat ≠ 0 := fun h => nz (BitVec.eq_of_toNat_eq (by simpa using h))
      omega
    · have main : ∀ d x, x.mode = .tx → x.bind = some b → Memory.wf x.count x.buf = true → x.savedIE = s.savedIE →
          x.seqP.toNat < x.count.toNat → x.count ≠ 0#16 → ∃ t, tickTx φ d x = .next t ∧ Sound t := by
        intro d x x1 x2 x3 x4 x5 x6
        obtain ⟨v, hv⟩ := Option.ne_none_iff_exists'.1 (hs.saved hm)
        obtain ⟨bit, hbit⟩ := currentBit_some x3 x5
        cases hph : x.seqPh with
        | hi =>
          rw [tickTx_hi x2 hbit hph]
          refine ⟨_, rfl, ?_⟩
          rw [advance_hi (by simpa using hph)]
          constructor <;> simp [x1, x2, x3, x4, x5, x6, hv]
        | lo =>
          by_cases hl : atLastBit x = true
          · rw [tickTx_last x2 hbit hph hl (x4.trans hv)]
            refine ⟨_, rfl, ?_⟩
            constructor <;> simp [x2, x3, x4, x5, x6, hv]
          · rw [tickTx_lo x2 hbit hph hl]
            refine ⟨_, rfl, ?_⟩
            generalize hw : emitBit φ d Level.low (lowNs x.params bit) (portWrite b Level.low x) = w
            have w1 : w.seqP.toNat < w.count.toNat := by subst hw; simpa using x5
            have w2 : w.seqPh = .lo := by subst hw; simpa using hph
            have w3 : ¬ atLastBit w = true := by subst hw; simpa [atLastBit] using hl
            obtain ⟨-, -, w4⟩ := advance_lo w2 w1 w3
            have w5 : w.mode = .tx ∧ w.bind = some b ∧ Memory.wf w.count w.buf = true ∧ w.savedIE = some v ∧
                w.count ≠ 0#16 := by
              subst hw; simp [x1, x2, x3, x4, hv, x6]
            clear hw
            obtain ⟨y1, y2, y3, y4, y5⟩ := w5
            constructor <;> simp [y1, y2, y3, y4, y5, w4]
      rw [blockTick_tx (e1.trans hm)]
      split
      · exact main _ _ (by simp [e1, hm]) (by simp [e2]) (by simpa using e3)
          (by simp [e4]) (by simpa [e5, e6] using hs.pixel hm) (by simpa using nz)
      · exact main _ _ (by simp [e1, hm]) (by simp [e2]) (by simpa using e3)
          (by simp [e4]) (by simpa [e5, e6] using hs.pixel hm) nz
    · rw [blockTick_latch (e1.trans hm)]
      refine ⟨_, rfl, ?_⟩
      constructor <;> simp [busy]

/-- So do its ticks, however many. -/
theorem runTicks_sound {φ : Free} :
    ∀ (k : Nat) (s : State), Sound s → ∃ t, runTicks φ k s = .next t ∧ Sound t := by
  intro k
  induction k with
  | zero => intro s hs; exact ⟨s, rfl, hs⟩
  | succ k ih =>
    intro s hs
    cases hb : busy s with
    | false => exact ⟨s, runTicks_done hb, hs⟩
    | true =>
      obtain ⟨t, ht, h2⟩ := tick_sound (φ := φ) hb hs
      rw [runTicks_busy hb ht]
      exact ih t h2

/-! ## A whole frame, from its start -/

/-- A duration drawn within a band lies in it. -/
theorem drawIn_inBand (p : Params) (x f : Nat) : inBand p f (drawIn x (bandLo p f) (some (bandHi p f))) = true := by
  have h1 := drawIn_ge x (bandLo p f) (some (bandHi p f))
  have h2 := drawIn_le (x := x) (show bandLo p f ≤ bandHi p f by unfold bandLo bandHi; omega)
  rw [inBand_iff]; unfold bandLo bandHi at *; omega

/-- The latch hold drawn in two parts lies within the latch bounds. -/
theorem drawIn_latch {p : Params} (hp : latchPossible p = true) (x y : Nat) :
    inLatch p (drawIn x 0 p.tresetMax +
      drawIn y (p.tresetMin - drawIn x 0 p.tresetMax) (p.tresetMax.map (· - drawIn x 0 p.tresetMax))) = true := by
  unfold latchPossible at hp
  rw [inLatch_iff]
  generalize hr : drawIn x 0 p.tresetMax = r
  cases hm : p.tresetMax with
  | none => simp [drawIn]; omega
  | some m =>
    simp [hm] at hp
    have h1 : r ≤ m := by rw [← hr, hm]; exact drawIn_le (by omega)
    have h2 := drawIn_ge y (p.tresetMin - r) (some (m - r))
    have h3 := drawIn_le (x := y) (show p.tresetMin - r ≤ m - r by omega)
    simp; omega

/-- The drawn segments of a bit stream, merged, are segments that R75 admits for it. -/
theorem rawBits_merge {φ : Free} {p : Params} (hp : latchPossible p = true) :
    ∀ (d : Nat) (bits : List Bool), bits ≠ [] →
      ∃ h rest, mergeSegments (rawBits φ p d bits) = ⟨.high, h⟩ :: rest ∧ admitsBits p bits (⟨.high, h⟩ :: rest) = true := by
  intro d bits
  fun_induction rawBits φ p d bits with
  | case1 => simp
  | case2 d bit r =>
    intro _
    refine ⟨_, _, rfl, ?_⟩
    simp only [admitsBits, drawIn_inBand, Bool.true_and]
    exact drawIn_latch hp _ _
  | case3 d bit bit' bits ih =>
    intro _
    obtain ⟨h, rest, e, ha⟩ := ih (by simp)
    have e2 := mergeSegments_cons_ne
      (s := ⟨.low, drawIn (φ.nat (d + 1)) (bandLo p (lowNs p bit)) (some (bandHi p (lowNs p bit)))⟩) e (by simp)
    have e3 := mergeSegments_cons_ne
      (s := ⟨.high, drawIn (φ.nat d) (bandLo p (highNs p bit)) (some (bandHi p (highNs p bit)))⟩) e2 (by simp)
    refine ⟨_, _, e3, ?_⟩
    simp only [admitsBits, drawIn_inBand, Bool.true_and]
    exact ha

/-- At its start a frame has all its segments left. -/
theorem startFrame_segmentsLeft (φ : Free) (s : State) : segmentsLeft (startFrame φ s) = frameSegments s := by
  simp only [segmentsLeft, startFrame_seqPh, startFrame_bitIndex, startFrame_count, frameSegments]
  omega

/-- The first state of a frame whose environment keeps its duties. -/
theorem startFrame_inTx {φ : Free} {s : State} (hn : s.count ≠ 0#16) (hd : s.Dutiful) :
    InTx s.hostIE (startFrame φ s) := by
  have hn : s.count.toNat ≠ 0 := fun h => hn (BitVec.eq_of_toNat_eq (by simpa using h))
  refine ⟨?_, by simp, by simp, by simp, by simp; omega⟩
  rw [startFrame_segmentsLeft, startFrame_frameEnv]
  exact hd

/-- The same, of a block whose line is bound and whose buffer is whole. -/
theorem startFrame_inFrame {φ : Free} {s : State} {b : Binding} (hr : s.Ready) (hb : s.bind = some b) (hd : s.Dutiful) :
    InFrame b s.hostIE (startFrame φ s) := by
  exact ⟨startFrame_inTx hr.nonzero hd, by simpa using hb, by simpa using hr.buf_wf⟩

/-- Such a frame runs from its start to its end. -/
theorem startFrame_runs {φ : Free} {s : State} {b : Binding} (fuel : Nat) (hf : 48 * s.count.toNat + 1 ≤ fuel)
    (hr : s.Ready) (hb : s.bind = some b) (hd : s.Dutiful) :
    ∃ t, runTicks φ fuel (startFrame φ s) = .next t ∧ FrameDone φ b s.hostIE (startFrame φ s) t := by
  have hn : s.count.toNat ≠ 0 := fun h => hr.nonzero (BitVec.eq_of_toNat_eq (by simpa using h))
  obtain ⟨t, ht, hd⟩ := runTicks_dutiful (φ := φ) (24 * s.count.toNat - 1) (fuel - (48 * s.count.toNat + 1))
    (startFrame φ s) (startFrame_inFrame hr hb hd) rfl (by rw [startFrame_bitIndex, startFrame_count]; omega)
  refine ⟨t, ?_, hd⟩
  rw [← ht]; congr 1; omega

/-! ## The bound port bit -/

/-- An output write makes the bound bit of the port register the level. -/
theorem portSet_mask {p : Params} {b : Binding} (h : resolvePin p = some b) (port : Nat) :
    (portSet p.portW port b.mask .high &&& b.mask ≠ 0) ∧
      (portSet p.portW port b.mask .low &&& b.mask = 0) := by
  obtain ⟨k, hk, hm⟩ := resolvePin_mask h
  constructor
  · intro h0
    have := congrArg (fun x => x.testBit k) h0
    simp only [portSet, Nat.testBit_and, portHigh_testBit, hm, Nat.testBit_two_pow_self, Nat.zero_testBit] at this
    simp [hk] at this
  · apply Nat.eq_of_testBit_eq
    intro j
    simp only [portSet, Nat.testBit_and, portLow_testBit, Nat.zero_testBit]
    cases b.mask.testBit j <;> simp

end Sys2Proof.Machine
end

