-- ==== Sys2Proof/Laws/Decode.lean ====
section
/-! SUPPORT. The decoder's fields of an encoded word, and the word of its fields, format by format. -/

namespace Sys2Proof

/-- What the decoder reads from a word of format N. -/
theorem fields_encodeN (o : BitVec 8) : Word.opc (encodeN o) = o ∧ Word.rsvN (encodeN o) = true := by
  refine ⟨?_, ?_⟩
  · unfold Word.opc encodeN; ext i hi; simp; grind
  · unfold Word.rsvN encodeN; simp; ext i hi; simp; grind

/-- What the decoder reads from a word of format P. -/
theorem fields_encodeP (o : BitVec 8) (x : Index) (p : Pixel) :
    Word.opc (encodeP o x p) = o ∧ Word.rsvP (encodeP o x p) = true ∧ Word.idx (encodeP o x p) = x ∧
      Word.red (encodeP o x p) = p.r ∧ Word.green (encodeP o x p) = p.g ∧ Word.low (encodeP o x p) = p.b := by
  refine ⟨?_, ?_, ?_, ?_, ?_, ?_⟩
  · unfold Word.opc encodeP; ext i hi; simp; grind
  · unfold Word.rsvP encodeP; simp; ext i hi; simp; grind
  · unfold Word.idx encodeP; ext i hi; simp; grind
  · unfold Word.red encodeP; ext i hi; simp; grind
  · unfold Word.green encodeP; ext i hi; simp; grind
  · unfold Word.low encodeP; ext i hi; simp; grind

/-- What the decoder reads from a word of format I. -/
theorem fields_encodeI (o : BitVec 8) (x : Index) :
    Word.opc (encodeI o x) = o ∧ Word.rsvI (encodeI o x) = true ∧ Word.idx (encodeI o x) = x := by
  refine ⟨?_, ?_, ?_⟩
  · unfold Word.opc encodeI; ext i hi; simp; grind
  · unfold Word.rsvI encodeI; simp; ext i hi; simp; grind
  · unfold Word.idx encodeI; ext i hi; simp; grind

/-- What the decoder reads from a word of format V. -/
theorem fields_encodeV (o : BitVec 8) (x : Channel) :
    Word.opc (encodeV o x) = o ∧ Word.rsvV (encodeV o x) = true ∧ Word.low (encodeV o x) = x := by
  refine ⟨?_, ?_, ?_⟩
  · unfold Word.opc encodeV; ext i hi; simp; grind
  · unfold Word.rsvV encodeV; simp; ext i hi; simp; grind
  · unfold Word.low encodeV; ext i hi; simp; grind

/-- A word with the reserved bits of format N at 0 is written by its opcode. -/
theorem encodeN_of_fields {w : Word} (h : Word.rsvN w = true) : encodeN (Word.opc w) = w := by
  simp only [Word.rsvN, beq_iff_eq] at h
  ext i hi
  have := congrArg (fun x => BitVec.getLsbD x i) h
  simp at this
  simp [encodeN, Word.opc]
  grind

/-- A word with the reserved bits of format P at 0 is written by its fields. -/
theorem encodeP_of_fields {w : Word} (h : Word.rsvP w = true) :
    encodeP (Word.opc w) (Word.idx w) ⟨Word.red w, Word.green w, Word.low w⟩ = w := by
  simp only [Word.rsvP, beq_iff_eq] at h
  ext i hi
  have := congrArg (fun x => BitVec.getLsbD x (i-24)) h
  simp at this
  simp [encodeP, Word.opc, Word.idx, Word.red, Word.green, Word.low]
  grind

/-- A word with the reserved bits of format I at 0 is written by its fields. -/
theorem encodeI_of_fields {w : Word} (h : Word.rsvI w = true) : encodeI (Word.opc w) (Word.idx w) = w := by
  simp only [Word.rsvI, beq_iff_eq] at h
  ext i hi
  have := congrArg (fun x => BitVec.getLsbD x i) h
  simp at this
  simp [encodeI, Word.opc, Word.idx]
  grind

/-- A word with the reserved bits of format V at 0 is written by its fields. -/
theorem encodeV_of_fields {w : Word} (h : Word.rsvV w = true) : encodeV (Word.opc w) (Word.low w) = w := by
  simp only [Word.rsvV, beq_iff_eq] at h
  ext i hi
  have := congrArg (fun x => BitVec.getLsbD x (i-8)) h
  simp at this
  simp [encodeV, Word.opc, Word.low]
  grind

/-- What `decodeIf` accepts. -/
theorem decodeIf_ok {b : Bool} {i j : Instr} (h : decodeIf b i = .ok j) : b = true ∧ i = j := by
  unfold decodeIf at h
  split at h
  · injection h with h
    exact ⟨‹_›, h⟩
  · simp at h

/-- What `decodeIf` refuses. -/
theorem decodeIf_error (b : Bool) (i : Instr) : (∃ e, decodeIf b i = .error e) ↔ b = false := by
  unfold decodeIf
  cases b <;> simp

end Sys2Proof
end

