-- ==== Sys2Proof/Laws/PerInstr.lean ====
section
/-! SUPPORT. The statements made per instruction: the first byte of a command's word is its opcode. -/

namespace Sys2Proof.Laws.OpcodeByte

/-- The OPC field of the instruction's word is the instruction's opcode (30_encoding.md R45, R50). -/
def Statement (i : Instr) : Prop := Word.opc (encode i) = i.opcode

theorem beginLine : Statement .beginLine := (fields_encodeN _).1

theorem setPixel (index : Index) (r g b : Channel) : Statement (.setPixel index r g b) := (fields_encodeP _ _ _).1

theorem setPixelPx (index : Index) (px : Pixel) : Statement (.setPixelPx index px) := (fields_encodeP _ _ _).1

theorem clear : Statement .clear := (fields_encodeN _).1

theorem setBrightness (value : Channel) : Statement (.setBrightness value) := (fields_encodeV _ _).1

theorem transmit : Statement .transmit := (fields_encodeN _).1

theorem getCount : Statement .getCount := (fields_encodeN _).1

theorem getPixel (index : Index) : Statement (.getPixel index) := (fields_encodeI _ _).1

end Sys2Proof.Laws.OpcodeByte
end

