-- ==== Sys2Proof/Tests/Slice0.lean ====
section
/-! SUPPORT. Checks of the model against the spec's own encodings and test vectors, and for every statement with
hypotheses a concrete input that meets them. Expected values come from spec/ (each comment says where), never from the
model. -/

namespace Sys2Proof.Tests

open Sys2Proof.Machine

/-! ## Small states -/

/-- What a next state holds; a stop holds nothing. -/
def holds (r : Result) (p : State → Bool) : Bool :=
  match r with
  | .next t => p t
  | _       => false

theorem holds_next {r : Result} {p : State → Bool} (h : holds r p = true) : ∃ t, r = .next t ∧ p t = true := by
  cases r with
  | next t => exact ⟨t, rfl, h⟩
  | fault x => simp [holds] at h
  | refused x => simp [holds] at h

/-- A freshly constructed block of n pixels. -/
def block (n : Index) : State := construct { State.reset with params := { Params.chosen with n := n } }

/-- A block after BEGIN, of the pixels given. -/
def begunBlock (n : Index) (px : List Pixel) : State :=
  { block n with buf := px, begun := true, lineOE := true, lineLvl := .low }

/-- A block whose construction failed: no pixels. -/
def haltedBlock : State := block 0

/-- A block whose pin has no row in the platform's table. -/
def unboundBlock : State := construct { State.reset with params := { Params.chosen with n := 4, pinTable := [] } }

/-- A block of one pixel at the first segment of its frame. -/
def txBlock : State :=
  { begunBlock 1 [⟨0, 0x80, 1⟩] with mode := .tx, seqB := 7, savedIE := some true, hostIE := false }

/-- The word is on the command port. -/
def given (w : Word) (s : State) : State := { s with cmd := some w }

/-- A build without the raw read. -/
def noRawRead (s : State) : State := { s with params := { s.params with hasRawRead := false } }

/-! ## WellFormed, decoder and encoder -/

/-- 30_encoding.md R53: GET_PIXEL is no command of a build with HAS_RAW_READ = 0. -/
theorem test_wellFormed_refuses_getPixel : Instr.wellFormed false (.getPixel 0) = false := by decide

/-- RD7: its decoder refuses the word too. -/
theorem test_decode_refuses_getPixel : decode false 0x0800000000000000 = .error .rawReadAbsent := by decide

theorem test_wellFormed_getPixel : Instr.wellFormed true (.getPixel 65535) = true := by decide

/-- Format N written out from R46: OPC = 00000001, 56 zeros. -/
theorem test_decode_begin : decode true (0b00000001#8 ++ 0#56) = .ok .beginLine := by decide

/-- Format P written out from R47: OPC, IDX = 1, RSV, R = 200, G = 100, B = 3. -/
theorem test_decode_setPixel :
    decode true (0x02#8 ++ 0x0001#16 ++ 0#16 ++ 0xC8#8 ++ 0x64#8 ++ 0x03#8) = .ok (.setPixel 1 200 100 3) := by decide

/-- 41_buffer.md R65, the worked example. -/
theorem test_decode_setPixelPx : decode true 0x0300010000C86403 = .ok (.setPixelPx 1 ⟨200, 100, 3⟩) := by decide

theorem test_decode_clear : decode true (0b00000100#8 ++ 0#56) = .ok .clear := by decide

/-- Format V written out from R49: OPC, 48 zeros, V = 128. -/
theorem test_decode_setBrightness : decode true (0x05#8 ++ 0#48 ++ 0x80#8) = .ok (.setBrightness 128) := by decide

theorem test_decode_transmit : decode true (0b00000110#8 ++ 0#56) = .ok .transmit := by decide

theorem test_decode_getCount : decode true (0b00000111#8 ++ 0#56) = .ok .getCount := by decide

/-- Format I written out from R48: OPC, IDX = 0x8001, 40 zeros. -/
theorem test_decode_getPixel : decode true (0x08#8 ++ 0x8001#16 ++ 0#40) = .ok (.getPixel 0x8001) := by decide

/-- R53: a reserved bit at each end of every format's RSV field. -/
theorem test_reserved_bits :
    [0x0100000000000001, 0x0180000000000000, 0x0200000001000000, 0x0200008000000000, 0x0300000001000000,
     0x0300008000000000, 0x0400000000000001, 0x0500000000000100, 0x0580000000000000, 0x0600000000000001,
     0x0780000000000000, 0x0800000000000001, 0x0800008000000000].all
      (fun w => decode true w == .error .reservedBits) = true := by decide

/-- R53: opcodes 0x00, 0x09 and 0xFF. -/
theorem test_unassigned_opcodes :
    [0x0000000000000000, 0x0900000000000000, 0xFF00000000000000].all
      (fun w => decode true w == .error .unassignedOpcode) = true := by decide

/-- The words of the examples of R59, R64, R65, R67, R92. -/
theorem test_encode :
    [Instr.beginLine, .setPixel 0 255 0 0, .setPixelPx 1 ⟨200, 100, 3⟩, .clear, .setBrightness 128, .transmit, .getCount,
     .getPixel 1].map encode =
    [0x0100000000000000, 0x0200000000FF0000, 0x0300010000C86403, 0x0400000000000000, 0x0500000000000080,
     0x0600000000000000, 0x0700000000000000, 0x0800010000000000] := by decide

/-- R57, with a comment; R58's spellings. -/
theorem test_assemble :
    assemble "SET_PIXEL_PX   1, (200, 0x64, 3) ; chase".toList = some 0x0300010000C86403 ∧
    assemble "setPixel(0, 255, 0, 0)".toList = some 0x0200000000FF0000 ∧
    assemble "SHOW".toList = some 0x0600000000000000 ∧
    assemble "SET_BRIGHTNESS 256".toList = none ∧
    assemble "SET_PIXEL 65536, 0, 0, 0".toList = none := by decide

/-- The opcode table's bits decode, and the next step after `withFetchWord` runs the word: GET_COUNT of one pixel. -/
theorem test_table_words :
    decodeTableWord 64 0x0300010000C86403 = some (.setPixelPx 1 ⟨200, 100, 3⟩) ∧ decodeTableWord 64 0 = none ∧
    holds (step (State.reset.withFetchWord 64 0x0700000000000000)) (fun t => t.responses == [1] && t.cmd == none) = true ∧
    holds (step (State.reset.withFetchWord 64 0x0100000000000000)) (fun t => t.begun) = true := by decide +kernel

/-! ## Commands, one step each -/

/-- S1 of 95_test_vectors.md: 255 at BRI = 255 stores 254. -/
theorem test_setPixel_scales :
    holds (exec (.setPixel 0 255 0 0) State.reset) (fun t => t.buf == [⟨254, 0, 0⟩] && t.responses == [0]) = true := by
  decide

/-- X8: a bounds write sets no FAULT bit and stores nothing. -/
theorem test_setPixel_out_of_range :
    holds (exec (.setPixel 65535 1 2 3) State.reset)
      (fun t => t.buf == [⟨0, 0, 0⟩] && t.fault == 0 && t.responses == [0]) = true := by decide

/-- R65's example: at BRI = 128, (200, 100, 3) stores (100, 50, 1). -/
theorem test_setPixelPx_scales :
    holds (exec (.setPixelPx 1 ⟨200, 100, 3⟩) { block 2 with bri := 128 })
      (fun t => t.buf == [⟨0, 0, 0⟩, ⟨100, 50, 1⟩]) = true := by decide

/-- R66's example. -/
theorem test_clear :
    holds (exec .clear { block 2 with buf := [⟨10, 20, 30⟩, ⟨1, 2, 3⟩] })
      (fun t => t.buf == [⟨0, 0, 0⟩, ⟨0, 0, 0⟩] && t.bri == 255) = true := by decide

/-- R67's example: the stored pixel stays. -/
theorem test_setBrightness :
    holds (exec (.setBrightness 128) { block 1 with buf := [⟨10, 20, 30⟩] })
      (fun t => t.bri == 128 && t.buf == [⟨10, 20, 30⟩]) = true := by decide

/-- RD2: N = 65535. -/
theorem test_getCount :
    holds (exec .getCount { State.reset with count := 65535 }) (fun t => t.responses == [0x000000000000FFFF]) = true := by
  decide

/-- RD4: (100, 50, 1) reads as 0x643201, red first. -/
theorem test_getPixel :
    holds (exec (.getPixel 1) { block 2 with buf := [⟨0, 0, 0⟩, ⟨100, 50, 1⟩] })
      (fun t => t.responses == [0x0000000000643201] && t.fault == 0) = true := by decide

/-- RD6: index 4 of N = 4. -/
theorem test_getPixel_out_of_range :
    holds (exec (.getPixel 4) (block 4)) (fun t => t.responses == [0] && t.fault == 0x10) = true := by decide

/-- X4: no segment, HostIE unchanged, rsp = 0. -/
theorem test_transmit_before_begin :
    holds (exec .transmit State.reset)
      (fun t => t.fault == 0x08 && t.trace == [] && t.hostIE == true && t.responses == [0]) = true := by decide

/-- X5 and X7: bits are sticky, and decode comes before NOT_BEGUN. -/
theorem test_illegal_words :
    holds (step (given 0 { State.reset with fault := 0x08 })) (fun t => t.fault == 0x0C) = true ∧
    holds (step (given 0x0600000000000001 State.reset)) (fun t => t.fault == 0x04 && t.mode == .idle) = true := by decide

/-- W4: HostIE = 0 at entry is 0 at the end, and SAVED_IE = 0; the end state of W2. -/
theorem test_transmit_masked_host :
    holds (exec .transmit { begunBlock 1 [⟨254, 0, 0⟩] with hostIE := false })
      (fun t => t.hostIE == false && t.savedIE == some false && t.lineLvl == .low && t.mode == .idle && t.fault == 0 &&
        t.responses == [0]) = true := by decide +kernel

/-- W1: the end state of BEGIN on a fresh block; the transient, the idle low in two parts, 24 bits, the latch in two
parts: 1 + 2 + 48 + 1 segments. -/
theorem test_begin :
    holds (exec .beginLine State.reset)
      (fun t => t.begun && t.lineOE && t.lineLvl == .low && t.hostIE && t.ieWrites == [true, false] && t.responses == [0] &&
        t.trace.length == 52) = true := by decide +kernel

/-! ## Construction and `rst` -/

/-- X1, X2, X3. -/
theorem test_construction_faults :
    (block 0).fault = 0x01 ∧ (block 0).mode = .halt ∧ cmdReady (block 0) = false ∧ (block 0).lineOE = false ∧
    unboundBlock.fault = 0x02 ∧ unboundBlock.mode = .halt ∧
    (construct { unboundBlock with params := { unboundBlock.params with n := 0 } }).fault = 0x03 := by decide

/-- X9: `rst` clears FAULT. -/
theorem test_rst_clears_fault :
    holds (step { State.reset with fault := 0x1C, bri := 3, inputs := [.setRst true] })
      (fun t => t.fault == 0 && t.bri == 255 && t.rst) = true := by decide

/-- R117: `rst` within the critical section restores HostIE, whether it cuts the segment at its start or within it. -/
theorem test_rst_restores_hostIE :
    [true, false].all (fun within => holds (tick ⟨fun _ => 0, fun _ => within⟩ { txBlock with frameEnv := [.rst] })
      (fun t => t.hostIE && t.rst && t.responses == [] && t.lineOE == false)) = true := by decide

/-- R117: `rst` at the acceptance abandons SET_PIXEL, and TRANSMIT before its critical section: no response, no write of
HostIE, the construction state. -/
theorem test_rst_abandons_an_accepted_command :
    [0x0200000000FF0000, 0x0600000000000000].all (fun w =>
      holds (step (given w { begunBlock 1 [⟨7, 7, 7⟩] with frameEnv := [.rst] }))
        (fun t => t.rst && t.responses == [] && t.ieWrites == [] && t.buf == [⟨0, 0, 0⟩] && t.cmd == none &&
          t.begun == false)) = true := by decide

/-! ## The waveform -/

/-- W2 and W3: 00000000 11111110 00000000 and 10000000 00000000 00000001. -/
theorem test_frameBits :
    frameBits [⟨254, 0, 0⟩] =
      [false, false, false, false, false, false, false, false, true, true, true, true, true, true, true, false,
       false, false, false, false, false, false, false, false] ∧
    frameBits [⟨0, 0x80, 1⟩] = [true] ++ List.replicate 22 false ++ [true] := by decide

/-- The table of 95_test_vectors.md section 2.7. -/
theorem test_decodeBit :
    [249, 250, 400, 550, 600, 649, 650, 800, 950, 951].map (decodeBit Params.chosen) =
      [none, some false, some false, some false, none, none, some true, some true, some true, none] := by decide

/-- The trace of a bit stream with these lengths: 1-high, 1-low, 0-high, 0-low, latch. -/
def traceOf (h1 l1 h0 l0 latch : Nat) : List Bool → List Segment
  | [] => []
  | [bit] => [⟨.high, if bit then h1 else h0⟩, ⟨.low, latch⟩]
  | bit :: bit' :: bits =>
    ⟨.high, if bit then h1 else h0⟩ :: ⟨.low, if bit then l1 else l0⟩ :: traceOf h1 l1 h0 l0 latch (bit' :: bits)

/-- W3's pixel and its nominal trace (T1). -/
def w3 : List Pixel := [⟨0, 0x80, 1⟩]

def nominal : List Segment := ⟨.low, 0⟩ :: traceOf 800 450 400 850 50000 (frameBits w3)

/-- T1 to T3: nominal; band edges and a long latch; a latch one ns short. -/
theorem test_admitted_traces :
    admitsFrame Params.chosen (frameBits w3) nominal = true ∧
    admitsFrame Params.chosen (frameBits w3) (⟨.low, 7⟩ :: traceOf 950 450 400 1000 1000000000 (frameBits w3)) = true ∧
    admitsFrame Params.chosen (frameBits w3) (⟨.low, 0⟩ :: traceOf 800 450 400 850 49999 (frameBits w3)) = false := by
  decide

/-- T4: bit 8's low is 1001 ns; T5: an extra HIGH pulse of 100 ns between bits 3 and 4; T6: 23 bits only. -/
theorem test_rejected_traces :
    admitsFrame Params.chosen (frameBits w3) (nominal.set 18 ⟨.low, 1001⟩) = false ∧
    admitsFrame Params.chosen (frameBits w3)
      (nominal.take 9 ++ [⟨.high, 100⟩, ⟨.low, 850⟩] ++ nominal.drop 9) = false ∧
    admitsFrame Params.chosen (frameBits w3) (nominal.take 1 ++ nominal.drop 3) = false := by decide

/-- The span of W2 and W3: 23 × 950 + 250 to 23 × 1550 + 950 ns (R83). -/
theorem test_nominal_span :
    22100 ≤ totalNs ((nominal.drop 1).take 47) ∧ totalNs ((nominal.drop 1).take 47) ≤ 36600 := by decide

/-! ## Interference and calibration -/

/-- R90: a late write frees the segment that it prolongs; 7000 ns is far outside the band of a 0-high. -/
theorem test_late_write_prolongs :
    holds (tick ⟨fun _ => 7000, fun _ => false⟩ { txBlock with frameEnv := [.quiet, .lateWrite] })
      (fun t => t.trace == [⟨.high, 7000⟩] && t.fault == 0x20 && faultOut t == 0) = true := by decide

/-- R90: a disturbed last LOW is not held to TRESET_MAX_NS = 60000; an undisturbed one is (R79). -/
theorem test_disturbed_last_low :
    let s := { txBlock with seqK := .b, seqB := 0, seqPh := .lo, params := { Params.chosen with tresetMax := some 60000 } }
    holds (tick ⟨fun _ => 90000, fun _ => false⟩ { s with frameEnv := [.nonMaskable] })
      (fun t => t.trace == [⟨.low, 90000⟩] && t.hostIE && t.mode == .latch) = true ∧
    holds (tick ⟨fun _ => 90000, fun _ => false⟩ s) (fun t => (t.trace.map Segment.ns).all (· ≤ 60000)) = true := by
  decide

/-- R80 at CLK_HZ = 16 MHz: 15 cycles are 937.5 ns, so a write latency of 12 ns stays in the band of a 1-high, up to
950 ns, and one of 13 ns does not. -/
theorem test_calibration_is_exact :
    let p := { Params.chosen with clkHz := 16000000, c1h := 15, c1l := 7, c0h := 6, c0l := 14 }
    calibrated { p with lWrite := 12 } 0 = true ∧ calibrated { p with lWrite := 13 } 0 = false := by decide

/-- R85: the latch is held for at least CRST cycles, so a last LOW of 17 + 1000 cycles at 20 MHz, 50850 ns, or longer. -/
theorem test_cycle_latch_is_at_least_crst :
    [0, 20000000].map (fun hold => (cycleFrame Params.chosen (fun _ => 0) hold 0 [⟨0, 0, 0⟩]).getLast?) =
      [some ⟨.low, 50850 * 20000000⟩, some ⟨.low, 50851 * 20000000⟩] := by decide

/-! ## Inputs that meet the statements' hypotheses -/

theorem reset_ready : State.reset.Ready := ⟨⟨_, rfl⟩, by decide, by decide⟩

theorem begun_ready : (begunBlock 1 w3).Ready := ⟨⟨_, rfl⟩, by decide, by decide⟩

theorem tx_ready : txBlock.Ready := ⟨⟨_, rfl⟩, by decide, by decide⟩

/-- A host that requests an interrupt and writes 0 in TX, and writes HostIE in the latch of a one-pixel frame. -/
def busyHost (s : State) : State :=
  { s with frameEnv := [.requestInterrupt, .writeHostIE false] ++ List.replicate 46 .quiet ++ [.writeHostIE true] }

theorem begun_dutiful : (begunBlock 1 w3).Dutiful ∧ (busyHost (begunBlock 1 w3)).Dutiful := by
  constructor <;> (unfold State.Dutiful; decide)

theorem reset_dutiful : State.reset.Dutiful ∧ (busyHost State.reset).Dutiful := by
  constructor <;> (unfold State.Dutiful; decide)

/-- The invariant holds of a block of two pixels after BEGIN. -/
theorem witness_Inv : (begunBlock 2 [⟨254, 0, 0⟩, ⟨0, 0, 0⟩]).Inv := by
  constructor <;> decide

theorem witness_ConstructionSetsResetValues : constructionFaults State.reset.params = 0#8 := by decide

theorem witness_ConstructionChecksBothFaults :
    (construct haltedBlock).mode = .halt ∧ haltedBlock.rst = false ∧ haltedBlock.inputs = [] ∧
    (construct unboundBlock).mode = .halt := by decide

theorem witness_HaltedBlockOnlyHonoursRst :
    haltedBlock.rst = false ∧ haltedBlock.mode = .halt ∧ haltedBlock.inputs = [] ∧
    ({ haltedBlock with inputs := [.setRst true] } : State).inputs = [.setRst true] := by decide

/-- The four clauses: under `rst`; a frame, and the configure step of a first BEGIN, cut by `rst`; an accepted word; an
idle and a halted block. -/
theorem witness_RstAbandonsAndRestores :
    holds (step { State.reset with rst := true, cmd := some 5 }) (fun _ => true) = true ∧
    (txBlock.rst = false ∧ busy { txBlock with frameEnv := [.rst] } = true ∧ txBlock.savedIE = some true) ∧
    (busy { State.reset with mode := .config, frameEnv := [.rst] } = true ∧ State.reset.savedIE = none ∧
      Mode.config ≠ .tx) ∧
    (State.reset.rst = false ∧ State.reset.mode = .idle ∧ (given 5 State.reset).cmd = some 5 ∧
      State.reset.cmd = none) ∧ haltedBlock.mode = .halt := by decide

theorem witness_DecodeOfEncodeIsTheCommand :
    Instr.wellFormed true (.getPixel 65535) = true ∧ Instr.wellFormed false (.getPixel 65535) = false := by decide

theorem witness_EncodeOfDecodeIsTheWord : decode true 0x08FFFF0000000000 = .ok (.getPixel 65535) := by decide

theorem witness_OpcodeMapSelectsTheCommand :
    Instr.wellFormed true (.getPixel 0) = true ∧ Instr.wellFormed false .clear = true ∧
    decode true 0x0800000000000000 = .ok (.getPixel 0) := by decide

/-- Each bound of the operands, and just past it. -/
theorem witness_AssemblerRefusesWhatDoesNotFit :
    assembleInstr "SET_PIXEL 65535, 255, 255, 255".toList = some (.setPixel 65535 255 255 255) ∧
    assembleInstr "SET_PIXEL_PX 0, (0, 256, 0)".toList = none ∧ assembleInstr "setPixel(0, (0, 0, 256))".toList = none ∧
    assembleInstr "setBrightness(255)".toList = some (.setBrightness 255) ∧
    assembleInstr "SET_BRIGHTNESS 0x100".toList = none ∧
    assembleInstr "GET_PIXEL 65535".toList = some (.getPixel 65535) ∧
    assembleInstr "GET_PIXEL 65536".toList = none := by decide

/-- With nothing, with a host write and with `rst` at the acceptance. -/
theorem witness_AcceptedCommandIsExecuted :
    (given 0x0700000000000000 State.reset).rst = false ∧ (given 0x0700000000000000 State.reset).mode = .idle ∧
    (given 0x0700000000000000 State.reset).cmd = some 0x0700000000000000 ∧
    decode State.reset.params.hasRawRead 0x0700000000000000 = .ok .getCount ∧ State.reset.frameEnv = [] ∧
    ({ State.reset with frameEnv := [.writeHostIE false] } : State).frameEnv.headD .quiet ≠ .rst ∧
    ({ State.reset with frameEnv := [.rst] } : State).frameEnv.headD .quiet = .rst := by decide

theorem witness_IllegalWordRaisesIllegalCommand :
    (given 0 State.reset).rst = false ∧ (given 0 State.reset).mode = .idle ∧ (given 0 State.reset).cmd = some 0 ∧
    decode State.reset.params.hasRawRead 0 = .error .unassignedOpcode ∧
    (given 0 State.reset).frameEnv.headD .quiet ≠ .rst := by decide

theorem witness_BusyBlockHoldsTheCommand :
    (given 7 txBlock).rst = false ∧ busy (given 7 txBlock) = true ∧
    ∃ t, step (given 7 txBlock) = .next t := by
  refine ⟨by decide, by decide, ?_⟩
  obtain ⟨t, ht, -⟩ := holds_next (show holds (step (given 7 txBlock)) (fun _ => true) = true by decide)
  exact ⟨t, ht⟩

/-- A response that is not 0, and one of a frame. -/
theorem witness_OneResponsePerCommand :
    State.reset.rst = false ∧ holds (exec .getCount State.reset) (fun t => !t.rst && t.responses == [1]) = true ∧
    holds (exec .transmit (begunBlock 1 w3)) (fun t => !t.rst) = true := by decide +kernel

theorem witness_IdleBlockWaits :
    State.reset.rst = false ∧ State.reset.mode = .idle ∧ State.reset.cmd = none ∧ State.reset.inputs = [] := by decide

theorem witness_ScaleLawsHold :
    (254#8 ≤ 255#8 ∧ 255#8 ≤ 255#8) ∧ (0#8 < 1#8 ∧ 0#8 < 255#8) ∧ 1#8 ≤ 255#8 := by decide

theorem witness_SetPixelStoresTheScaledPixel : (0 : Index).toNat < State.reset.count.toNat := by decide

/-- The first index out of range, and both forms. -/
theorem witness_SetPixelOutOfRangeIsIgnored : State.reset.count.toNat ≤ (1 : Index).toNat := by decide

/-- The last index in range and the first out of range of two pixels. -/
theorem witness_SetPixelIsLocal :
    Memory.wf (block 2).count (block 2).buf = true ∧ (1 : Index).toNat < (block 2).count.toNat ∧ 0 ≠ (1 : Index).toNat ∧
    (block 2).count.toNat ≤ (2 : Index).toNat ∧
    holds (exec (.setPixelPx 1 ⟨9, 9, 9⟩) (block 2)) (fun t => holds (exec (.setPixel 1 8 8 8) t) (fun _ => true)) = true ∧
    holds (exec (.setPixel 2 9 9 9) (block 2)) (fun t => holds (exec (.setPixelPx 2 ⟨8, 8, 8⟩) t) (fun _ => true)) = true := by
  decide

theorem witness_ClearBlackensEveryPixel : Memory.wf (block 2).count (block 2).buf = true := by decide

theorem witness_PixelsChangeOnlyByWrites :
    State.reset.rst = false ∧ holds (exec (.setPixel 0 255 0 0) State.reset) (fun t => !t.rst) = true := by decide

theorem witness_BufferCommandsTouchNoWire : ∃ value, Instr.setBrightness 3 = .setBrightness value := ⟨3, rfl⟩

theorem witness_GetPixelAnswersTheStoredPixel :
    (block 2).params.hasRawRead = true ∧ (1 : Index).toNat < (block 2).count.toNat ∧
    Memory.read (block 2).buf (1 : Index).toNat = some ⟨0, 0, 0⟩ := by decide

theorem witness_GetPixelOutOfRangeFaults :
    (block 2).params.hasRawRead = true ∧ (block 2).count.toNat ≤ (2 : Index).toNat := by decide

theorem witness_ReadsHaveNoSideEffect :
    Memory.wf (block 2).count (block 2).buf = true ∧ (block 2).params.hasRawRead = true ∧
    ({ block 2 with bri := 7 } : State).buf = (block 2).buf ∧ ({ block 2 with bri := 7 } : State).count = (block 2).count ∧
    ({ block 2 with bri := 7 } : State).params = (block 2).params := by decide

theorem witness_ReadReturnsTheLastWrite :
    Memory.wf (block 2).count (block 2).buf = true ∧ (block 2).params.hasRawRead = true ∧
    (1 : Index).toNat < (block 2).count.toNat ∧
    holds (exec (.setPixelPx 1 ⟨9, 9, 9⟩) (block 2)) (fun _ => true) = true ∧
    holds (exec .clear (block 2)) (fun _ => true) = true := by decide

theorem witness_TransmitBeforeBeginFaults : (block 2).begun = false ∧ (block 2).Inv := by
  refine ⟨by decide, ?_⟩
  constructor <;> decide

theorem witness_FaultBitsAreSticky :
    ({ State.reset with fault := 0x08 } : State).rst = false ∧ (0x08#8).getLsbD 3 = true ∧
    holds (step (given 0 { State.reset with fault := 0x08 })) (fun t => !t.rst) = true ∧
    FaultReason.code .notBegun = FaultReason.code .notBegun := by decide

/-- Each of the three interfering events, a late write at the end of the segment, and HostIE left at 1. -/
theorem witness_DisturbedSegmentRecordsViolation :
    txBlock.Ready ∧ txBlock.mode = .tx ∧ txBlock.savedIE ≠ none ∧ txBlock.seqP.toNat < txBlock.count.toNat ∧
    FrameEvent.interferes .nonMaskable = true ∧ FrameEvent.interferes .lateWrite = true ∧
    FrameEvent.interferes (.writeHostIE true) = true ∧
    endsLate { txBlock with frameEnv := [.lateWrite] } = true ∧
    ieAfter ({ txBlock with hostIE := true } : State).hostIE .quiet = true ∧
    ({ txBlock with frameEnv := [.nonMaskable] } : State).frameEnv = [.nonMaskable] ∧ FrameEvent.quiet ≠ .rst :=
  ⟨tx_ready, by decide⟩

/-- The lowest and the highest bit of the port register. -/
theorem witness_OutputWriteChangesOneBit :
    State.reset.port < 2 ^ State.reset.params.portW ∧ 0 < State.reset.params.portW ∧ (⟨0, 1⟩ : Binding).mask = 2 ^ 0 ∧
    31 < State.reset.params.portW ∧ (⟨0, 0x80000000⟩ : Binding).mask = 2 ^ 31 ∧ (begunBlock 1 w3).lineOE = true := by
  decide

theorem witness_NoCommandWritesAnotherPortBit :
    (begunBlock 1 w3).bind = some ⟨0, 1⟩ ∧ (begunBlock 1 w3).port < 2 ^ (begunBlock 1 w3).params.portW ∧
    holds (exec .transmit (begunBlock 1 w3)) (fun _ => true) = true ∧ (⟨0, 1⟩ : Binding).mask.testBit 1 = false := by
  decide +kernel

theorem witness_CriticalSectionMasksTheHost :
    (begunBlock 1 w3).count ≠ 0#16 ∧ (busyHost (begunBlock 1 w3)).Dutiful ∧
    holds (runTicks Config.free 2 (startFrame Config.free (busyHost (begunBlock 1 w3)))) (fun t => t.mode == .tx) = true :=
  ⟨by decide, begun_dutiful.2, by decide⟩

/-- A frame to its end, and a BEGIN that `rst` cuts. -/
theorem witness_HostIERestoredOnAllPaths :
    (∀ v, FrameEvent.writeHostIE v ∉ ({ State.reset with frameEnv := [.rst] } : State).frameEnv) ∧
    (∀ v, FrameEvent.writeHostIE v ∉ (begunBlock 1 w3).frameEnv) ∧
    holds (exec .transmit (begunBlock 1 w3)) (fun _ => true) = true ∧
    ∃ t, exec .beginLine { State.reset with frameEnv := [.rst] } = .next t := by
  refine ⟨by decide, by decide, by decide +kernel, ?_⟩
  obtain ⟨t, ht, -⟩ := runTicks_sound (φ := Config.free) (frameFuel State.reset)
    { State.reset with frameEnv := [.rst], mode := .config, begun := true } (by constructor <;> decide)
  exact ⟨t, ht⟩

theorem witness_OnlyFramesWriteHostIE :
    holds (exec .beginLine State.reset) (fun t => t.ieWrites != State.reset.ieWrites) = true := by decide +kernel

theorem witness_MaskedRequestIsKeptOrLost :
    txBlock.hostIE = false ∧ txBlock.params.pending = .keep ∧
    ({ txBlock with params := { txBlock.params with pending := .lose } } : State).params.pending = .lose := by decide

/-- The first and the last bit of a byte. -/
theorem witness_FrameBitsAreInWireOrder : w3[0]? = some ⟨0, 0x80, 1⟩ ∧ 0 < 8 ∧ 7 < 8 := by decide

theorem witness_SequencerVisitsEveryBitOnce :
    0 < 24 * (begunBlock 1 w3).count.toNat ∧ 23 < 24 * (begunBlock 1 w3).count.toNat := by decide

theorem witness_HighBandsDisjointExactlyWhenDecodable : Params.chosen.t0h ≤ Params.chosen.t1h := by decide

theorem witness_AdmittedTraceDecodesToTheBuffer :
    decodable Params.chosen = true ∧ admitsFrame Params.chosen (frameBits w3) nominal = true := by decide

theorem witness_CriticalSpanIsBounded :
    (Params.chosen.t1h = 800 ∧ Params.chosen.t1l = 450 ∧ Params.chosen.t0h = 400 ∧ Params.chosen.t0l = 850 ∧
      Params.chosen.tol = 150) ∧
    admitsFrame Params.chosen (frameBits w3) (⟨.low, 0⟩ :: ((nominal.drop 1).take 47) ++ [⟨.low, 50000⟩]) = true := by decide

theorem witness_FrameDurationIsBoundedBelow :
    Params.chosen.tresetMax = none ∧ w3 ≠ [] ∧ admitsFrame Params.chosen (frameBits w3) nominal = true := by decide

/-- Every segment 150 ns, 3 × 10^9 units, longer than its count, and the latch 7 units longer than CRST; the reading is the
exact trace over CLK_HZ. TRESET_MAX_NS unbounded, and bounded to what CRST needs: 850 + 150 + 50000 ns. -/
theorem witness_CalibratedCycleFrameIsAdmitted :
    w3 ≠ [] ∧ calibrated Params.chosen 0 = true ∧ calibrated Params.chosen 3000000000 = true ∧
    (∀ k : Nat, (fun _ : Nat => 3000000000) k ≤ Params.chosen.lWrite * Params.chosen.clkHz + 3000000000) ∧
    holdFits Params.chosen 3000000000 7 ∧ holdFits { Params.chosen with tresetMax := some 51000 } 3000000000 0 ∧
    readsInNs Params.chosen (cycleFrame Params.chosen (fun _ => 3000000000) 7 0 w3)
      ((cycleFrame Params.chosen (fun _ => 3000000000) 7 0 w3).map fun seg => ⟨seg.level, seg.ns / 20000000⟩) = true := by
  refine ⟨by decide, by decide, by decide, fun _ => Nat.le_refl _, fun m h => ?_, fun m h bit => ?_, by decide⟩
  · simp [Params.chosen] at h
  · injection h with h
    subst h
    cases bit <;> decide

theorem witness_TransmitSendsTheBuffer :
    (begunBlock 1 w3).Ready ∧ (busyHost (begunBlock 1 w3)).bind = some ⟨0, 1⟩ ∧ (begunBlock 1 w3).Dutiful ∧
    (busyHost (begunBlock 1 w3)).Dutiful ∧ (busyHost (begunBlock 1 w3)).Ready ∧
    (busyHost (begunBlock 1 w3)).begun = true ∧ latchPossible (busyHost (begunBlock 1 w3)).params = true :=
  ⟨begun_ready, rfl, begun_dutiful.1, begun_dutiful.2, ⟨⟨_, rfl⟩, by decide, by decide⟩, rfl, by decide⟩

/-- With nothing, and with a host that writes HostIE in the configure step and then keeps its duties. -/
theorem witness_BeginConfiguresAndSendsTheBuffer :
    State.reset.Ready ∧ State.reset.bind = some ⟨0, 1⟩ ∧ State.reset.frameEnv.headD .quiet ≠ .rst ∧
    ({ State.reset with frameEnv := State.reset.frameEnv.tail } : State).Dutiful ∧
    FrameEvent.writeHostIE false ≠ .rst ∧ (busyHost State.reset).Dutiful ∧ latchPossible State.reset.params = true :=
  ⟨reset_ready, rfl, by decide, reset_dutiful.1, by decide, reset_dutiful.2, by decide⟩

theorem witness_AfterBeginTheLineIsLow :
    State.reset.rst = false ∧ holds (exec .beginLine State.reset) (fun t => !t.rst) = true := by decide +kernel

theorem witness_EveryFrameEndsWithTheLatchHold :
    (begunBlock 1 w3).rst = false ∧ (begunBlock 1 w3).begun = true ∧
    holds (exec .transmit (begunBlock 1 w3)) (fun t => !t.rst) = true := by decide +kernel

theorem witness_EveryCommandCompletes : State.reset.Ready ∧ State.reset.mode = .idle := ⟨reset_ready, rfl⟩

theorem witness_TransmitIsItsSegmentsOneByOne : (begunBlock 1 w3).rst = false ∧ (begunBlock 1 w3).begun = true := by
  decide

theorem witness_EveryAdmittedTraceIsPossible :
    (begunBlock 1 w3).Ready ∧ (begunBlock 1 w3).Dutiful ∧
    admitsFrame (begunBlock 1 w3).params (frameBits (begunBlock 1 w3).buf) nominal = true :=
  ⟨begun_ready, begun_dutiful.1, by decide⟩

/-- For the statements about every step: a state of the invariant with a next state. -/
theorem witness_StepKeepsTheInvariant :
    (begunBlock 2 [⟨254, 0, 0⟩, ⟨0, 0, 0⟩]).Inv ∧
    ∃ t, step (begunBlock 2 [⟨254, 0, 0⟩, ⟨0, 0, 0⟩]) = .next t := ⟨witness_Inv, _, rfl⟩

theorem witness_CountAndBindingAreConstant :
    (begunBlock 2 [⟨254, 0, 0⟩, ⟨0, 0, 0⟩]).Inv ∧
    ∃ t, step (begunBlock 2 [⟨254, 0, 0⟩, ⟨0, 0, 0⟩]) = .next t := ⟨witness_Inv, _, rfl⟩

theorem witness_NoStepFaults : (begunBlock 2 [⟨254, 0, 0⟩, ⟨0, 0, 0⟩]).Inv := witness_Inv

end Sys2Proof.Tests
end

/-! ## Every admitted trace is made by some free values (00_scope.md R9, 42_transmit.md R75) -/

namespace Sys2Proof.Machine

/-- The source whose numbers from the d-th on are those of a list. -/
def Free.ofList (d : Nat) (xs : List Nat) : Free := ⟨fun k => xs.getD (k - d) 0, fun _ => false⟩

theorem Free.ofList_draws (d : Nat) (xs : List Nat) :
    (List.range' d xs.length).map (Free.ofList d xs).nat = xs :=
  List.ext_getElem (by simp) fun i _ h => by simp [Free.ofList, h]

/-- The free numbers with which the sequencer makes the segments of a bit stream: each is how far its duration lies above
the lower bound. The last LOW is made whole after the restore of HostIE, so its part before the restore is 0. -/
def bitNumbers (p : Params) : List Bool → List Segment → List Nat
  | [bit], [high, low] => [high.ns - bandLo p (highNs p bit), 0, low.ns - p.tresetMin]
  | bit :: bit' :: bits, high :: low :: rest =>
    (high.ns - bandLo p (highNs p bit)) :: (low.ns - bandLo p (lowNs p bit)) :: bitNumbers p (bit' :: bits) rest
  | _, _ => []

/-- The free numbers with which the frame procedure makes a trace: the idle LOW lies whole before the critical section's
entry. -/
def frameNumbers (p : Params) (bits : List Bool) : List Segment → List Nat
  | pre :: rest => pre.ns :: 0 :: bitNumbers p bits rest
  | [] => []

/-- A duration in band(F) is drawn by its distance from the lower edge. -/
theorem drawIn_of_inBand {p : Params} {f d : Nat} (h : inBand p f d = true) :
    drawIn (d - bandLo p f) (bandLo p f) (some (bandHi p f)) = d := by
  rw [inBand, Bool.and_eq_true, decide_eq_true_iff, decide_eq_true_iff] at h
  exact drawIn_exact h.1 fun _ hb => Option.some.inj hb ▸ h.2

/-- A latch hold is drawn by its distance from TRESET_MIN_NS. -/
theorem drawIn_of_inLatch {p : Params} {d : Nat} (h : inLatch p d = true) :
    drawIn (d - p.tresetMin) p.tresetMin p.tresetMax = d := by
  obtain ⟨hmin, hmax⟩ := inLatch_iff.mp h
  exact drawIn_exact hmin hmax

theorem drawIn_zero (hi : Option Nat) : drawIn 0 0 hi = 0 := by
  cases hi <;> simp [drawIn]

theorem admitsBits_head {p : Params} {bits : List Bool} {segs : List Segment} (h : admitsBits p bits segs = true) :
    ∃ ns rest, segs = ⟨.high, ns⟩ :: rest := by
  unfold admitsBits at h
  split at h
  · exact ⟨_, _, rfl⟩
  · exact ⟨_, _, rfl⟩
  · simp at h

/-- Drawing the numbers of an admitted trace, the sequencer makes that trace. -/
theorem mergeSegments_rawBits {φ : Free} {p : Params} {bits : List Bool} {segs : List Segment} {d : Nat}
    (ha : admitsBits p bits segs = true)
    (hφ : (List.range' d (bitNumbers p bits segs).length).map φ.nat = bitNumbers p bits segs) :
    mergeSegments (rawBits φ p d bits) = segs := by
  fun_induction admitsBits p bits segs generalizing d with
  | case1 bit h l =>
    rw [Bool.and_eq_true] at ha
    obtain ⟨hh, hl⟩ := ha
    simp only [bitNumbers, List.length_cons, List.length_nil, List.range'_succ, List.map_cons, List.cons.injEq] at hφ
    obtain ⟨h0, h1, h2, -⟩ := hφ
    simp [rawBits, h0, h1, h2, drawIn_of_inBand hh, drawIn_zero, drawIn_of_inLatch hl, mergeSegments]
  | case2 bit bit' bits h l rest ih =>
    simp only [Bool.and_eq_true] at ha
    obtain ⟨⟨hh, hl⟩, hrest⟩ := ha
    simp only [bitNumbers, List.length_cons, List.range'_succ, List.map_cons, List.cons.injEq] at hφ
    obtain ⟨h0, h1, hφ⟩ := hφ
    have hraw := ih hrest hφ
    obtain ⟨ns, tail, rfl⟩ := admitsBits_head hrest
    rw [rawBits, h0, h1, drawIn_of_inBand hh, drawIn_of_inBand hl]
    exact mergeSegments_cons_ne (mergeSegments_cons_ne hraw (by simp)) (by simp)
  | case3 => simp at ha

/-- The segments of a whole frame that the environment does not disturb, oldest first and not merged: the idle LOW in two
parts, before and after the critical section's entry, then the bits. -/
def rawFrame (φ : Free) (p : Params) (d : Nat) (bits : List Bool) : List Segment :=
  ⟨.low, φ.nat d⟩ :: ⟨.low, φ.nat (d + 1)⟩ :: rawBits φ p (d + 2) bits

/-- A frame of a dutiful environment runs to its end and adds its undisturbed segments to the trace. -/
theorem transmitFrame_trace (φ : Free) {s : State} (hr : s.Ready) (hd : s.Dutiful) :
    ∃ t, transmitFrame φ s = .next t ∧
      t.trace = (rawFrame φ s.params s.draws (frameBits s.buf)).reverse ++ s.trace := by
  obtain ⟨b, hb⟩ := hr.bound
  obtain ⟨t, ht, hdone⟩ := startFrame_runs (φ := φ) (frameFuel s) (by unfold frameFuel; omega) hr hb hd
  refine ⟨t, ht, ?_⟩
  rw [hdone.trace, startFrame_trace, startFrame_bitIndex]
  simp [rawFrame]

/-- Drawing the numbers of an admitted trace, the frame procedure makes that trace. -/
theorem mergeSegments_rawFrame {φ : Free} {p : Params} {bits : List Bool} {segs : List Segment} {d : Nat}
    (ha : admitsFrame p bits segs = true)
    (hφ : (List.range' d (frameNumbers p bits segs).length).map φ.nat = frameNumbers p bits segs) :
    mergeSegments (rawFrame φ p d bits) = segs := by
  unfold admitsFrame at ha
  split at ha
  · next pre rest =>
    simp only [frameNumbers, List.length_cons, List.range'_succ, List.map_cons, List.cons.injEq] at hφ
    obtain ⟨h0, h1, hφ⟩ := hφ
    have hraw := mergeSegments_rawBits ha hφ
    obtain ⟨ns, tail, rfl⟩ := admitsBits_head ha
    rw [rawFrame, h0, h1]
    exact mergeSegments_cons_eq (mergeSegments_cons_ne hraw (by simp)) rfl
  · simp at ha

/-- Settles O55: the free values are the trace's distances above the lower bounds, and with them the segments of the
undisturbed frame merge to the trace. -/
theorem everyAdmittedTraceIsPossible : Obligations.EveryAdmittedTraceIsPossible := by
  intro s segs hr hd ha
  let φ := Free.ofList s.draws (frameNumbers s.params (frameBits s.buf) segs)
  obtain ⟨t, ht, htrace⟩ := transmitFrame_trace φ hr hd
  refine ⟨φ, t, _, ht, htrace, ?_⟩
  rw [List.reverse_reverse]
  exact mergeSegments_rawFrame ha (Free.ofList_draws _ _)

end Sys2Proof.Machine

namespace Sys2Proof.Machine

/-! ## What the invariant says by itself -/

theorem State.Inv.valid {s : State} (hi : s.Inv) (hm : s.mode ≠ .halt) :
    s.params.n ≠ 0#16 ∧ resolvePin s.params ≠ none := by
  rw [← constructionFaults_eq_zero]
  exact not_not.1 (mt hi.halt_iff.2 hm)

/-- A block of the invariant that is not halted was constructed with legal parameters. -/
theorem State.Inv.ready {s : State} (hi : s.Inv) (hm : s.mode ≠ .halt) : s.Ready := by
  obtain ⟨hn, hb⟩ := hi.valid hm
  exact ⟨Option.ne_none_iff_exists'.1 (hi.bind_eq ▸ hb), hi.buf_wf, hi.count_eq ▸ hn⟩

theorem construct_mode_ne_tx (s : State) : (construct s).mode ≠ .tx := by
  intro hx
  rcases construct_mode_cases s with h | h <;> exact absurd (h.symm.trans hx) (by simp)

theorem State.Inv.rst_mode_ne_tx {s : State} (hi : s.Inv) (hr : s.rst = true) : s.mode ≠ .tx :=
  hi.rst_held hr ▸ construct_mode_ne_tx s

theorem State.Inv.busy_rst {s : State} (hi : s.Inv) (hb : busy s = true) : s.rst = false := by
  rw [Bool.eq_false_iff]
  intro hr
  have hidle : busy (construct s) = false := constructed_not_busy s s.rst
  rw [hi.rst_held hr, hb] at hidle
  cases hidle

theorem State.Inv.tx_oe {s : State} (hi : s.Inv) (hm : s.mode = .tx) : s.lineOE = true :=
  hi.begun_oe (hi.busy_begun (busy_iff.2 (.inr (.inl hm)))) (by simp [hm])

/-! ## What the invariant does not read -/

/-- `t` differs from `s` at most where no clause of the invariant but `tx_masked` looks: HostIE and the host's side, the
command port, the coming moves and events, the logs and the counter. -/
structure SameBlock (s t : State) : Prop where
  eq : t = { s with hostIE := t.hostIE, cmd := t.cmd, hostPending := t.hostPending, hostTaken := t.hostTaken,
                    inputs := t.inputs, frameEnv := t.frameEnv, trace := t.trace, responses := t.responses,
                    ieWrites := t.ieWrites, draws := t.draws }

theorem HostOnly.sameBlock {s u t : State} (hu : SameBlock s u) (h : HostOnly u t) : SameBlock s t :=
  ⟨by rw [h.eq, hu.eq]⟩

theorem hostWritesIE_hostOnly (v : Bool) (s : State) : HostOnly s (hostWritesIE v s) :=
  hostEvent_hostOnly (.writeHostIE v) s

theorem hostRequests_hostOnly (s : State) : HostOnly s (hostRequests s) := hostEvent_hostOnly .requestInterrupt s

theorem blockWritesIE_sameBlock (v : Bool) (s : State) : SameBlock s (blockWritesIE v s) :=
  (hostTakesPending_hostOnly _).sameBlock ⟨rfl⟩

theorem emitBit_sameBlock (φ : Free) (d : Bool) (level : Level) (f : Nat) (s : State) :
    SameBlock s (emitBit φ d level f s) := by
  cases d <;> exact ⟨rfl⟩

theorem SameBlock.params {s t : State} (h : SameBlock s t) : t.params = s.params := by rw [h.eq]

theorem SameBlock.fault {s t : State} (h : SameBlock s t) : t.fault = s.fault := by rw [h.eq]

theorem SameBlock.mode {s t : State} (h : SameBlock s t) : t.mode = s.mode := by rw [h.eq]

theorem State.Inv.of_sameBlock {s t : State} (hi : s.Inv) (h : SameBlock s t)
    (hmask : s.mode = .tx → t.hostIE = true → s.fault.getLsbD 5 = true) : t.Inv := by
  rw [h.eq]
  exact { hi with
    tx_masked := hmask
    rst_held := fun hr => congrArg (fun u : State =>
      { u with hostIE := t.hostIE, cmd := t.cmd, hostPending := t.hostPending, hostTaken := t.hostTaken,
               inputs := t.inputs, frameEnv := t.frameEnv, trace := t.trace, responses := t.responses,
               ieWrites := t.ieWrites, draws := t.draws }) (hi.rst_held hr) }

/-- HostIE is free outside TX. -/
theorem State.Inv.of_sameBlock_outside {s t : State} (hi : s.Inv) (h : SameBlock s t) (hm : s.mode ≠ .tx) : t.Inv :=
  hi.of_sameBlock h fun hx => absurd hx hm

/-! ## Updates that keep the invariant -/

/-- Construction establishes the invariant from any state with a port register of PORT_W bits. -/
theorem constructed_inv {s : State} (r : Bool) (hp : s.port < 2 ^ s.params.portW) :
    State.Inv { construct s with rst := r } := by
  have hb := constructed_not_busy s r
  have hx := construct_mode_ne_tx s
  have hf : (constructionFaults s.params).getLsbD 6 = false ∧ (constructionFaults s.params).getLsbD 7 = false := by
    unfold constructionFaults
    split <;> split <;> decide
  have hh : (construct s).mode = .halt ↔ constructionFaults s.params ≠ 0#8 := by
    rw [construct_mode]
    split <;> simp [*]
  exact {
    count_eq   := rfl
    bind_eq    := rfl
    buf_wf     := Memory.wf_fresh _
    never_full := fun px hpx => by
      obtain ⟨-, rfl⟩ := List.mem_replicate.1 hpx
      decide
    reserved   := hf
    halt_iff   := hh
    port_lt    := hp
    undriven   := fun _ => rfl
    driven     := by simp
    rest_low   := by simp
    line_port  := by simp
    begun_oe   := by simp
    oe_begun   := by simp
    busy_begun := fun h => by rw [hb] at h; exact absurd h (by simp)
    tx_saved   := fun h => absurd h hx
    tx_pixel   := fun h => absurd h hx
    tx_masked  := fun h => absurd h hx
    rst_held   := fun _ => rfl }

/-- No fault reason lies in FAULT's reserved bits. -/
theorem FaultReason.bit_reserved (reason : FaultReason) :
    reason.bit.getLsbD 6 = false ∧ reason.bit.getLsbD 7 = false := by
  cases reason <;> decide

theorem recordFault_inv {s : State} (reason : FaultReason) (hi : s.Inv) (hr : s.rst = false) :
    (recordFault reason s).Inv := by
  obtain ⟨h6, h7⟩ := hi.reserved
  obtain ⟨b6, b7⟩ := reason.bit_reserved
  exact { hi with
    reserved  := by rw [recordFault_fault, BitVec.getLsbD_or, BitVec.getLsbD_or, h6, h7, b6, b7]; exact ⟨rfl, rfl⟩
    tx_masked := fun hm hie => by rw [recordFault_fault, BitVec.getLsbD_or, hi.tx_masked hm hie, Bool.true_or]
    rst_held  := fun h => absurd h (by simp [hr]) }

theorem storedPixels_inv {s : State} (br : Channel) {buf : List Pixel} (hi : s.Inv) (hr : s.rst = false)
    (hw : Memory.wf s.count buf = true) (hf : ∀ px ∈ buf, px.r ≠ 255#8 ∧ px.g ≠ 255#8 ∧ px.b ≠ 255#8) :
    State.Inv { s with bri := br, buf := buf } :=
  { hi with
    buf_wf     := hw
    never_full := hf
    rst_held   := fun h => absurd h (by simp [hr]) }

/-- An output write of a frame: it drives the line to its level and the bound port bit with it. In the configure step the
line has become an output just before, whatever its level. -/
theorem drivenPortWrite_inv {s : State} {b : Binding} {level : Level} (transient : Level) (hi : s.Inv)
    (hm : s.mode = .config ∨ s.mode = .tx) (hb : s.bind = some b) (hl : level = .low ∨ level = .high) :
    (portWrite b level { s with lineOE := true, lineLvl := transient }).Inv := by
  have hbusy : busy s = true := busy_iff.2 (hm.imp_right .inl)
  obtain ⟨hhigh, hlow⟩ := portSet_mask (hi.bind_eq ▸ hb) s.port
  exact { hi with
    port_lt   := portSet_lt _ _ hi.port_lt
    undriven  := by simp
    driven    := fun _ => by rcases hl with rfl | rfl <;> simp
    rest_low  := fun h => by rcases hm with hm | hm <;> simp [hm] at h
    line_port := fun c hc _ => by
      obtain rfl : b = c := Option.some.inj (hb.symm.trans hc)
      rcases hl with rfl | rfl
      · simpa using hlow
      · simpa using hhigh
    begun_oe  := fun _ _ => rfl
    oe_begun  := fun _ => hi.busy_begun hbusy
    rst_held  := fun h => absurd h (by simp [hi.busy_rst hbusy]) }

theorem portWrite_inv {s : State} {b : Binding} {level : Level} (hi : s.Inv) (hm : s.mode = .tx)
    (hb : s.bind = some b) (hl : level = .low ∨ level = .high) : (portWrite b level s).Inv := by
  have h := drivenPortWrite_inv s.lineLvl hi (.inr hm) hb hl
  rwa [← hi.tx_oe hm] at h

/-- `advance` moves SEQ only. -/
theorem advance_eq (s : State) :
    advance s = { s with seqP := (advance s).seqP, seqK := (advance s).seqK, seqB := (advance s).seqB,
                         seqPh := (advance s).seqPh } := by
  unfold advance
  (repeat' split) <;> rfl

/-- SEQ.P stays in range as long as the frame goes on. -/
theorem advance_seqP_lt {s : State} (hp : s.seqP.toNat < s.count.toNat) (hl : s.seqPh = .lo → ¬ atLastBit s = true) :
    (advance s).seqP.toNat < s.count.toNat := by
  cases hph : s.seqPh with
  | hi => rwa [advance_hi hph]
  | lo => exact (advance_lo hph hp (hl hph)).2.2

theorem advance_inv {s : State} (hi : s.Inv) (hm : s.mode = .tx) (hl : s.seqPh = .lo → ¬ atLastBit s = true) :
    (advance s).Inv := by
  have hp := advance_seqP_lt (hi.tx_pixel hm) hl
  have hr := hi.busy_rst (busy_iff.2 (.inr (.inl hm)))
  rw [advance_eq]
  exact { hi with
    tx_pixel := fun _ => hp
    rst_held := fun h => absurd h (by simp [hr]) }

theorem configure_inv {s : State} (hi : s.Inv) (hm : s.mode ≠ .halt) (hr : s.rst = false) :
    State.Inv { s with mode := .config, begun := true } :=
  { hi with
    halt_iff   := by simpa [hm] using hi.halt_iff
    rest_low   := by simp
    begun_oe   := by simp
    oe_begun   := fun _ => rfl
    busy_begun := fun _ => rfl
    tx_saved   := by simp
    tx_pixel   := by simp
    tx_masked  := by simp
    rst_held   := fun h => absurd h (by simp [hr]) }

/-- TransmitFrame starts from a begun block whose line is driven. -/
theorem startFrame_inv {φ : Free} {s : State} (hi : s.Inv) (hm : s.mode ≠ .halt) (hr : s.rst = false)
    (ho : s.lineOE = true) : (startFrame φ s).Inv := by
  have hn : s.count.toNat ≠ 0 := fun h => (hi.ready hm).nonzero (BitVec.eq_of_toNat_eq (by simpa using h))
  have hstart : State.Inv { s with mode := .tx, hostIE := false, savedIE := some s.hostIE, seqP := 0, seqK := .g,
                                   seqB := 7, seqPh := .hi } :=
    { hi with
      halt_iff   := by simpa [hm] using hi.halt_iff
      rest_low   := by simp
      begun_oe   := fun _ _ => ho
      busy_begun := fun _ => hi.oe_begun ho
      tx_saved   := by simp
      tx_pixel   := fun _ => by simp; omega
      tx_masked  := by simp
      rst_held   := fun h => absurd h (by simp [hr]) }
  exact hstart.of_sameBlock ⟨rfl⟩ (by simp)

/-- A block of TX or LATCH goes on to LATCH or IDLE with the line LOW. -/
theorem settle_inv {s : State} {m : Mode} (hi : s.Inv) (hs : s.mode = .tx ∨ s.mode = .latch)
    (hm : m = .latch ∨ m = .idle) (hl : s.lineLvl = .low) : State.Inv { s with mode := m } := by
  have hb : busy s = true := busy_iff.2 (.inr hs)
  have hh : s.mode ≠ .halt := by rcases hs with hs | hs <;> simp [hs]
  have hc : s.mode ≠ .config := by rcases hs with hs | hs <;> simp [hs]
  have ht : m ≠ .tx ∧ m ≠ .halt := by rcases hm with rfl | rfl <;> simp
  exact { hi with
    halt_iff   := by simpa [hh, ht.2] using hi.halt_iff
    rest_low   := fun _ _ => hl
    begun_oe   := fun h _ => hi.begun_oe h hc
    busy_begun := fun _ => hi.busy_begun hb
    tx_saved   := fun h => absurd h ht.1
    tx_pixel   := fun h => absurd h ht.1
    tx_masked  := fun h => absurd h ht.1
    rst_held   := fun h => absurd h (by simp [hi.busy_rst hb]) }

/-- A write of the platform keeps the bound bit. -/
theorem platformWritesPort_mask {s : State} {b : Binding} (v : Nat) (hb : s.bind = some b)
    (h : resolvePin s.params = some b) : (platformWritesPort v s).port &&& b.mask = s.port &&& b.mask := by
  obtain ⟨k, hk, hm⟩ := resolvePin_mask h
  apply Nat.eq_of_testBit_eq
  intro j
  by_cases hj : k = j
  · subst hj
    simp only [platformWritesPort, hb, hm, Nat.testBit_and, BitVec.testBit_toNat, BitVec.getLsbD_or, BitVec.getLsbD_and,
      BitVec.getLsbD_not, BitVec.getLsbD_ofNat, Nat.testBit_two_pow_self, hk]
    simp
  · simp [hm, Nat.testBit_and, hj]

theorem platformWritesPort_eq (v : Nat) (s : State) :
    platformWritesPort v s = { s with port := (platformWritesPort v s).port } := by
  unfold platformWritesPort
  split <;> rfl

theorem platformWritesPort_lt (v : Nat) (s : State) : (platformWritesPort v s).port < 2 ^ s.params.portW := by
  unfold platformWritesPort
  split <;> exact BitVec.isLt _

theorem platformWritesPort_inv {s : State} (v : Nat) (hi : s.Inv) : (platformWritesPort v s).Inv := by
  have hp := platformWritesPort_lt v s
  have hline (b : Binding) (hb : s.bind = some b) (ho : s.lineOE = true) :
      (platformWritesPort v s).port &&& b.mask ≠ 0 ↔ s.lineLvl = .high := by
    rw [platformWritesPort_mask v hb (hi.bind_eq ▸ hb)]
    exact hi.line_port b hb ho
  rw [platformWritesPort_eq]
  exact { hi with
    port_lt   := hp
    line_port := hline
    rst_held  := fun hr =>
      congrArg (fun u : State => { u with port := (platformWritesPort v s).port }) (hi.rst_held hr) }

theorem releaseRst_inv {s : State} (inputs : List HostMove) (hi : s.Inv) :
    State.Inv { s with rst := false, inputs := inputs } :=
  { hi with rst_held := by simp }

/-! ## One segment -/

/-- What a segment of TX starts from: the state after the host's event, with TIMING_VIOLATION recorded when it is
disturbed. -/
def SegmentStart (d : Bool) (s s' : State) : Prop :=
  (d = false ∧ s' = s ∧ s.hostIE = false) ∨ (d = true ∧ s' = recordFault .timingViolation s)

theorem SegmentStart.eq {d : Bool} {s s' : State} (h : SegmentStart d s s') :
    ∃ f, s' = { s with fault := s.fault ||| f } := by
  obtain ⟨-, rfl, -⟩ | ⟨-, rfl⟩ := h
  · exact ⟨0#8, by simp⟩
  · exact ⟨_, rfl⟩

/-- After the host's event HostIE may be 1 in TX, which the invariant forbids unless the breach is recorded; where the
segment starts it is. -/
theorem SegmentStart.inv {d : Bool} {s s₁ s' : State} (h : SegmentStart d s₁ s') (hi : s.Inv) (hs : SameBlock s s₁)
    (hm : s.mode = .tx) : s'.Inv := by
  obtain ⟨-, rfl, hie⟩ | ⟨-, rfl⟩ := h
  · exact hi.of_sameBlock hs fun _ h => absurd h (by simp [hie])
  · have hr := recordFault_inv .timingViolation hi (hi.busy_rst (busy_iff.2 (.inr (.inl hm))))
    refine hr.of_sameBlock ⟨by rw [hs.eq]; rfl⟩ fun _ _ => ?_
    rw [recordFault_fault, BitVec.getLsbD_or]
    simp [FaultReason.bit, FaultReason.code]

/-- The block's segment after the host's event keeps the invariant. -/
theorem blockStep_inv {φ : Free} {s s₁ t : State} (hi : s.Inv) (hs : SameBlock s s₁) (h : BlockStep φ s₁ t) : t.Inv := by
  have outside (hm : s₁.mode ≠ .tx) : s₁.Inv := hi.of_sameBlock_outside hs (hs.mode ▸ hm)
  cases h with
  | config b level hm hb hl =>
    have h1 := outside (by simp [hm])
    have hr := h1.busy_rst (busy_iff.2 (.inl hm))
    have hw := drivenPortWrite_inv level h1 (.inl hm) hb (.inl rfl : Level.low = .low ∨ _)
    have he := hw.of_sameBlock_outside (t := portWrite b .low (emit φ level 0 none _)) ⟨rfl⟩ (by simp [hm])
    exact startFrame_inv he (by simp [hm]) (by simp [hr]) rfl
  | segment b d bit level f s' hm hb hl hp hd =>
    have hi' := SegmentStart.inv hd hi hs (hs.mode ▸ hm)
    obtain ⟨_, rfl⟩ := SegmentStart.eq hd
    have hw := portWrite_inv hi' hm hb hl
    have he := hw.of_sameBlock (emitBit_sameBlock φ d level f _) (by simpa using hw.tx_masked)
    exact advance_inv he (by simpa using hm) (by simpa [atLastBit] using hp)
  | last b d v s' hm hb hsv hp hl hd =>
    have hi' := SegmentStart.inv hd hi hs (hs.mode ▸ hm)
    obtain ⟨_, rfl⟩ := SegmentStart.eq hd
    have hw := settle_inv (portWrite_inv hi' hm hb (.inl rfl)) (.inl hm) (.inl rfl)
      (by rw [portWrite_lineLvl, hi'.tx_oe hm]; rfl)
    exact hw.of_sameBlock_outside ⟨by rw [(blockWritesIE_sameBlock v _).eq]; rfl⟩ (by simp)
  | latch hm =>
    have h1 := outside (by simp [hm])
    have ho := h1.begun_oe (h1.busy_begun (busy_iff.2 (.inr (.inr hm)))) (by simp [hm])
    exact (settle_inv h1 (.inr hm) (.inr rfl) (h1.rest_low (.inr hm) ho)).of_sameBlock_outside ⟨rfl⟩ (by simp)
  | rest hm => exact outside (by rcases hm with hm | hm <;> simp [hm])

/-- What `rst` cuts short leaves a port register of PORT_W bits. -/
theorem CutTick.port_lt {s u v : State} (h : CutTick s u v) (hp : s.port < 2 ^ s.params.portW) :
    v.port < 2 ^ v.params.portW := by
  have hv : v.port = u.port ∧ v.params = u.params := by
    obtain ⟨-, rfl⟩ | ⟨-, _, -, rfl⟩ := h.restore <;> simp
  rw [hv.1, hv.2, h.params]
  obtain hu | ⟨b, level, -, -, hu⟩ := h.port
  · rwa [hu]
  · rw [hu]; exact portSet_lt _ _ hp

theorem tick_inv {φ : Free} {s t : State} (hi : s.Inv) (h : tick φ s = .next t) : t.Inv := by
  obtain ⟨u, v, hc, rfl⟩ | ⟨s₁, e, ho, -, -, -, hb⟩ := tick_outcome h
  · exact constructed_inv true (hc.port_lt hi.port_lt)
  · exact blockStep_inv hi (ho.sameBlock ⟨rfl⟩) hb

/-! ## One command -/

theorem runTicks_inv {φ : Free} {k : Nat} {s t : State} (hi : s.Inv) (h : runTicks φ k s = .next t) : t.Inv :=
  runTicks_induction (fun _ _ _ => tick_inv) k s t hi h

theorem scalePixel_never_full (px : Pixel) (br : Channel) :
    (scalePixel px br).r ≠ 255#8 ∧ (scalePixel px br).g ≠ 255#8 ∧ (scalePixel px br).b ≠ 255#8 :=
  ⟨scale_ne_255 _ _, scale_ne_255 _ _, scale_ne_255 _ _⟩

section Commands

variable {s t : State} (hi : s.Inv) (hr : s.rst = false) (hm : s.mode = .idle)
include hi hr hm

/-- A response, with a buffer and a brightness stored before it. -/
theorem respond_inv {w : Word} {br : Channel} {buf : List Pixel} (hw : Memory.wf s.count buf = true)
    (hf : ∀ px ∈ buf, px.r ≠ 255#8 ∧ px.g ≠ 255#8 ∧ px.b ≠ 255#8) :
    (respond w { s with bri := br, buf := buf }).Inv :=
  (storedPixels_inv br hi hr hw hf).of_sameBlock_outside ⟨rfl⟩ (by simp [hm])

theorem raiseFault_inv {reason : FaultReason} (h : raiseFault reason s = .next t) : t.Inv := by
  injection h with h
  subst h
  exact (recordFault_inv reason hi hr).of_sameBlock_outside ⟨rfl⟩ (by simp [hm])

theorem storePixel_inv {index : Index} {px : Pixel} (h : storePixel index px s = .next t) : t.Inv := by
  injection h with h
  subst h
  split
  · refine respond_inv hi hr hm (Memory.wf_write _ _ hi.buf_wf) fun q hq => ?_
    obtain hq | rfl := List.mem_or_eq_of_mem_set hq
    · exact hi.never_full q hq
    · exact scalePixel_never_full px s.bri
  · exact respond_inv hi hr hm hi.buf_wf hi.never_full

theorem execClear_inv (h : execClear s = .next t) : t.Inv := by
  injection h with h
  subst h
  refine respond_inv hi hr hm (Memory.wf_clear hi.buf_wf) fun q hq => ?_
  obtain ⟨_, -, rfl⟩ := List.mem_map.1 hq
  decide

theorem execGetPixel_inv {index : Index} (h : execGetPixel index s = .next t) : t.Inv := by
  unfold execGetPixel at h
  split at h
  · exact raiseFault_inv hi hr hm h
  · split at h
    · split at h
      · injection h with h
        subst h
        exact respond_inv hi hr hm hi.buf_wf hi.never_full
      · cases h
    · exact raiseFault_inv hi hr hm h

theorem execTransmit_inv (h : execTransmit s = .next t) : t.Inv := by
  unfold execTransmit at h
  split at h
  · next hbegun =>
    exact runTicks_inv (startFrame_inv hi (by simp [hm]) hr (hi.begun_oe hbegun (by simp [hm]))) h
  · exact raiseFault_inv hi hr hm h

/-- Every command of an idle block keeps the invariant. -/
theorem exec_inv {i : Instr} (h : exec i s = .next t) : t.Inv := by
  cases i with
  | beginLine => exact runTicks_inv (configure_inv hi (by simp [hm]) hr) h
  | setPixel index r g b => exact storePixel_inv hi hr hm h
  | setPixelPx index px => exact storePixel_inv hi hr hm h
  | clear => exact execClear_inv hi hr hm h
  | setBrightness value =>
    injection h with h
    subst h
    exact respond_inv hi hr hm hi.buf_wf hi.never_full
  | transmit => exact execTransmit_inv hi hr hm h
  | getCount =>
    injection h with h
    subst h
    exact respond_inv hi hr hm hi.buf_wf hi.never_full
  | getPixel index => exact execGetPixel_inv hi hr hm h

theorem runWord_inv {w : Word} (h : runWord w s = .next t) : t.Inv := by
  cases hd : decode s.params.hasRawRead w with
  | ok i => exact exec_inv hi hr hm (runWord_ok hd ▸ h)
  | error e => exact raiseFault_inv hi hr hm (runWord_error hd ▸ h)

end Commands

/-! ## One step -/

/-- Everything a step can do: a move of the outside, in reset or between commands; `rst` at the acceptance of a word, or
the word after the event there; or a segment of a busy block. -/
inductive StepCase (s t : State) : Prop where
  | held (hr : s.rst = true) (h : nextMove (construct s) = .next t)
  | move (hr : s.rst = false) (hm : s.mode ≠ .tx) (hc : s.mode = .idle → s.cmd = none) (h : nextMove s = .next t)
  | abandoned (w : Word) (hr : s.rst = false) (hm : s.mode = .idle) (hc : s.cmd = some w)
      (he : s.frameEnv.headD .quiet = .rst)
      (h : t = { construct { s with cmd := none, frameEnv := s.frameEnv.tail } with rst := true })
  | word (w : Word) (hr : s.rst = false) (hm : s.mode = .idle) (hc : s.cmd = some w)
      (he : s.frameEnv.headD .quiet ≠ .rst)
      (h : runWord w (hostEvent (s.frameEnv.headD .quiet) { s with cmd := none, frameEnv := s.frameEnv.tail }) = .next t)
  | segment (hr : s.rst = false) (hb : busy s = true) (h : tick Config.free s = .next t)

theorem stepHalted_next {s t : State} (h : stepHalted s = .next t) : nextMove s = .next t := by
  unfold stepHalted at h
  split at h
  · exact h
  · cases h

theorem step_idle_waits {s : State} (hr : s.rst = false) (hm : s.mode = .idle) (hc : s.cmd = none) :
    step s = nextMove s := by
  simp [step, stepIdle, hr, hm, hc]

theorem step_halted {s : State} (hr : s.rst = false) (hm : s.mode = .halt) : step s = stepHalted s := by
  simp [step, hr, hm]

theorem step_held {s : State} (hr : s.rst = true) : step s = nextMove (construct s) := by
  simp [step, stepInReset, hr]

theorem step_cases {s t : State} (h : step s = .next t) : StepCase s t := by
  cases hr : s.rst with
  | true => exact .held hr (step_held hr ▸ h)
  | false =>
    cases hb : busy s with
    | true => exact .segment hr hb (step_busy hr hb ▸ h)
    | false =>
      cases hm : s.mode with
      | idle =>
        cases hc : s.cmd with
        | none => exact .move hr (by simp [hm]) (fun _ => hc) (step_idle_waits hr hm hc ▸ h)
        | some w =>
          by_cases he : s.frameEnv.headD .quiet = .rst
          · rw [step_abandons hr hm hc he] at h
            injection h with h
            exact .abandoned w hr hm hc he h.symm
          · exact .word w hr hm hc he (step_runs hr hm hc he ▸ h)
      | halt => exact .move hr (by simp [hm]) (by simp [hm]) (stepHalted_next (step_halted hr hm ▸ h))
      | _ => simp [busy, hm] at hb

/-- Everything a move of the outside can do while the critical section is not open. -/
theorem nextMove_cases {s t : State} (hm : s.mode ≠ .tx) (h : nextMove s = .next t) :
    SameBlock s t ∨ (∃ rest, t = { s with rst := false, inputs := rest }) ∨
    (∃ v rest, t = platformWritesPort v { s with inputs := rest }) ∨
    (∃ rest, t = { construct { s with inputs := rest } with rst := true }) := by
  unfold nextMove at h
  split at h
  · next move rest _ =>
    cases move with
    | present w =>
      simp only [hostMove] at h
      split at h <;> injection h with h <;> exact .inl (h ▸ ⟨rfl⟩)
    | writeHostIE v =>
      injection h with h
      exact .inl (h ▸ (hostWritesIE_hostOnly v _).sameBlock ⟨rfl⟩)
    | requestInterrupt =>
      injection h with h
      exact .inl (h ▸ (hostRequests_hostOnly _).sameBlock ⟨rfl⟩)
    | setRst v =>
      cases v with
      | true =>
        have hx := (assertRst_outside (s := { s with inputs := rest }) hm).symm.trans h
        injection hx with hx
        exact .inr (.inr (.inr ⟨rest, hx.symm⟩))
      | false =>
        injection h with h
        exact .inr (.inl ⟨rest, h.symm⟩)
    | writePort v =>
      injection h with h
      exact .inr (.inr (.inl ⟨v, rest, h.symm⟩))
  · injection h with h
    exact .inl (h ▸ ⟨rfl⟩)

theorem nextMove_inv {s t : State} (hi : s.Inv) (hm : s.mode ≠ .tx) (h : nextMove s = .next t) : t.Inv := by
  obtain hs | ⟨rest, rfl⟩ | ⟨v, rest, rfl⟩ | ⟨rest, rfl⟩ := nextMove_cases hm h
  · exact hi.of_sameBlock_outside hs hm
  · exact releaseRst_inv rest hi
  · exact platformWritesPort_inv v (hi.of_sameBlock_outside ⟨rfl⟩ hm)
  · exact constructed_inv true hi.port_lt

/-- Settles O58: each thing a step can do keeps the invariant. -/
theorem stepKeepsTheInvariant : Obligations.StepKeepsTheInvariant := by
  intro s t hi h
  cases step_cases h with
  | held hr h =>
    rw [hi.rst_held hr] at h
    exact nextMove_inv hi (hi.rst_mode_ne_tx hr) h
  | move hr hm hc h => exact nextMove_inv hi hm h
  | abandoned w hr hm hc he h => exact h ▸ constructed_inv true hi.port_lt
  | word w hr hm hc he h =>
    have hs : SameBlock s (hostEvent (s.frameEnv.headD .quiet) { s with cmd := none, frameEnv := s.frameEnv.tail }) :=
      (hostEvent_hostOnly _ _).sameBlock ⟨rfl⟩
    exact runWord_inv (hi.of_sameBlock_outside hs (by simp [hm])) (by simpa using hr) (by simpa using hm) h
  | segment hr hb h => exact tick_inv hi h

/-! ## No step stops -/

/-- A block constructed with legal parameters stands on the ground on which its command runs. -/
theorem State.Ready.sound {s : State} (hr : s.Ready) (hh : s.mode ≠ .halt) (hsaved : s.mode = .tx → s.savedIE ≠ none)
    (hpixel : s.mode = .tx → s.seqP.toNat < s.count.toNat) : Sound s :=
  { halt  := fun h => absurd h hh
    bound := fun _ => Option.ne_none_iff_exists'.2 hr.bound
    wf    := fun _ => hr.buf_wf
    nz    := fun _ => hr.nonzero
    saved := hsaved
    pixel := hpixel }

theorem State.Inv.sound {s : State} (hi : s.Inv) (hh : s.mode ≠ .halt) : Sound s :=
  (hi.ready hh).sound hh hi.tx_saved hi.tx_pixel

theorem State.Ready.count_pos {s : State} (hr : s.Ready) : 0 < s.count.toNat :=
  Nat.pos_of_ne_zero fun h => hr.nonzero (BitVec.eq_of_toNat_eq (by simpa using h))

/-- A frame starts on that ground. -/
theorem startFrame_sound {φ : Free} {s : State} (hr : s.Ready) : Sound (startFrame φ s) := by
  have hstart : (startFrame φ s).Ready := ⟨by simpa using hr.bound, by simpa using hr.buf_wf, by simpa using hr.nonzero⟩
  exact hstart.sound (by simp) (by simp) fun _ => by simpa using hr.count_pos

theorem execGetPixel_answers {s : State} (index : Index) (hw : Memory.wf s.count s.buf = true) :
    ∃ t, execGetPixel index s = .next t := by
  unfold execGetPixel
  split
  · exact ⟨_, rfl⟩
  · split
    · next hin =>
      obtain ⟨px, hpx⟩ := Memory.read_of_wf hw (of_decide_eq_true hin)
      exact ⟨_, by rw [hpx]⟩
    · exact ⟨_, rfl⟩

theorem execTransmit_answers {s : State} (hr : s.Ready) : ∃ t, execTransmit s = .next t := by
  unfold execTransmit
  split
  · obtain ⟨t, ht, -⟩ := runTicks_sound (frameFuel s) _ (startFrame_sound (φ := Config.free) hr)
    exact ⟨t, ht⟩
  · exact ⟨_, rfl⟩

theorem execBegin_answers {s : State} (hr : s.Ready) : ∃ t, execBegin s = .next t := by
  have hc : State.Ready { s with mode := .config, begun := true } := ⟨hr.bound, hr.buf_wf, hr.nonzero⟩
  obtain ⟨t, ht, -⟩ := runTicks_sound (φ := Config.free) (frameFuel s) _ (hc.sound (by simp) (by simp) (by simp))
  exact ⟨t, ht⟩

/-- Every command of a block constructed with legal parameters answers a next state. -/
theorem exec_answers {s : State} (i : Instr) (hr : s.Ready) : ∃ t, exec i s = .next t := by
  cases i with
  | beginLine => exact execBegin_answers hr
  | transmit => exact execTransmit_answers hr
  | getPixel index => exact execGetPixel_answers index hr.buf_wf
  | setPixel | setPixelPx | clear | setBrightness | getCount => exact ⟨_, rfl⟩

theorem runWord_answers {s : State} (w : Word) (hr : s.Ready) : ∃ t, runWord w s = .next t := by
  cases hd : decode s.params.hasRawRead w with
  | ok i => exact runWord_ok hd ▸ exec_answers i hr
  | error e => exact ⟨_, runWord_error hd⟩

theorem hostEvent_ready {s : State} (e : FrameEvent) (hr : s.Ready) : (hostEvent e s).Ready :=
  ⟨by simpa using hr.bound, by simpa using hr.buf_wf, by simpa using hr.nonzero⟩

theorem hostMove_answers {s : State} (move : HostMove) (rest : List HostMove) (hm : s.mode ≠ .tx) :
    ∃ t, hostMove move rest s = .next t := by
  cases move with
  | present w =>
    simp only [hostMove]
    split <;> exact ⟨_, rfl⟩
  | setRst v =>
    cases v with
    | true => exact ⟨_, assertRst_outside hm⟩
    | false => exact ⟨_, rfl⟩
  | writeHostIE | requestInterrupt | writePort => exact ⟨_, rfl⟩

theorem nextMove_answers {s : State} (hm : s.mode ≠ .tx) : ∃ t, nextMove s = .next t := by
  unfold nextMove
  split
  · exact hostMove_answers _ _ hm
  · exact ⟨_, rfl⟩

theorem step_idle_answers {s : State} (hr : s.rst = false) (hm : s.mode = .idle) (hready : s.Ready) :
    ∃ t, step s = .next t := by
  cases hc : s.cmd with
  | none => exact step_idle_waits hr hm hc ▸ nextMove_answers (by simp [hm])
  | some w =>
    by_cases he : s.frameEnv.headD .quiet = .rst
    · exact ⟨_, step_abandons hr hm hc he⟩
    · rw [step_runs hr hm hc he]
      exact runWord_answers w (hostEvent_ready _ ⟨hready.bound, hready.buf_wf, hready.nonzero⟩)

/-- HALT refuses the launch, but honours `rst`. -/
theorem stepHalted_answers {s : State} (hm : s.mode = .halt) :
    (∃ t, stepHalted s = .next t) ∨ stepHalted s = .refused .launchRefused := by
  unfold stepHalted
  split
  · exact .inl (nextMove_answers (by simp [hm]))
  · exact .inr rfl

/-- Settles O59: by the state of `rst` and MODE, with the ground of `tick_sound` read off the invariant. -/
theorem noStepFaults : Obligations.NoStepFaults := by
  intro s hi
  cases hr : s.rst with
  | true =>
    rw [step_held hr, hi.rst_held hr]
    exact .inl (nextMove_answers (hi.rst_mode_ne_tx hr))
  | false =>
    cases hb : busy s with
    | true =>
      obtain ⟨t, ht, -⟩ := tick_sound (φ := Config.free) hb (hi.sound fun hm => by simp [busy, hm] at hb)
      exact .inl ⟨t, (step_busy hr hb).trans ht⟩
    | false =>
      cases hm : s.mode with
      | idle => exact .inl (step_idle_answers hr hm (hi.ready (by simp [hm])))
      | halt =>
        rw [step_halted hr hm]
        exact (stepHalted_answers hm).imp_right fun h => ⟨rfl, rfl, h⟩
      | _ => simp [busy, hm] at hb

/-! ## What a segment, a command and a step keep -/

/-- A block's segment keeps `rst`, the command port, the coming moves and the parameters, and clears no FAULT bit. -/
theorem BlockStep.keeps {φ : Free} {s t : State} (h : BlockStep φ s t) :
    t.rst = s.rst ∧ t.cmd = s.cmd ∧ t.inputs = s.inputs ∧ t.params = s.params ∧ ∃ f, t.fault = s.fault ||| f := by
  cases h with
  | config b level hm hb hl => exact ⟨by simp, by simp, by simp, by simp, 0#8, by simp⟩
  | segment b d bit level f s' hm hb hl hp hd =>
    obtain ⟨g, rfl⟩ := SegmentStart.eq hd
    exact ⟨by simp, by simp, by simp, by simp, g, by simp⟩
  | last b d v s' hm hb hsv hp hl hd =>
    obtain ⟨g, rfl⟩ := SegmentStart.eq hd
    exact ⟨by simp, by simp, by simp, by simp, g, by simp⟩
  | latch hm => exact ⟨by simp, by simp, by simp, by simp, 0#8, by simp⟩
  | rest hm => exact ⟨rfl, rfl, rfl, rfl, 0#8, by simp⟩

/-- The restore of HostIE keeps the command port, the coming moves and the parameters of the state that `rst` cuts. -/
theorem CutTick.keeps {s u v : State} (h : CutTick s u v) :
    v.cmd = s.cmd ∧ v.inputs = s.inputs ∧ v.params = s.params := by
  obtain ⟨-, rfl⟩ | ⟨-, _, -, rfl⟩ := h.restore
  · exact ⟨h.cmd, h.inputs, h.params⟩
  · exact ⟨by simp [h.cmd], by simp [h.inputs], by simp [h.params]⟩

/-- A tick leaves the command port, the coming moves and the parameters alone. -/
theorem tick_keeps {φ : Free} {s t : State} (h : tick φ s = .next t) :
    t.cmd = s.cmd ∧ t.inputs = s.inputs ∧ t.params = s.params := by
  obtain ⟨u, v, hc, rfl⟩ | ⟨s₁, e, -, -, -, rfl, hb⟩ := tick_outcome h
  · exact hc.keeps
  · obtain ⟨-, hcmd, hin, hp, -⟩ := hb.keeps
    exact ⟨by simp [hcmd], by simp [hin], by simp [hp]⟩

/-- A bit of FAULT that a tick clears was cleared by `rst`. -/
theorem tick_fault {φ : Free} {s t : State} {k : Nat} (h : tick φ s = .next t)
    (hs : s.rst = true ∨ s.fault.getLsbD k = true) : t.rst = true ∨ t.fault.getLsbD k = true := by
  obtain ⟨u, v, -, rfl⟩ | ⟨s₁, e, -, -, -, rfl, hb⟩ := tick_outcome h
  · exact .inl rfl
  · obtain ⟨hr, -, -, -, f, hf⟩ := hb.keeps
    rw [hr, hf, BitVec.getLsbD_or, hostEvent_rst, hostEvent_fault]
    exact hs.imp_right fun hk => by simp only [hk, Bool.true_or]

/-- A property that every tick keeps holds after a command when it holds where the command's frame starts and is kept by a
command without a frame. -/
theorem exec_induction {P : State → Prop} {i : Instr} {s t : State} (h : exec i s = .next t)
    (htick : ∀ u v, P u → tick Config.free u = .next v → P v)
    (hbegin : P { s with mode := .config, begun := true }) (hstart : P (startFrame Config.free s))
    (hother : ∀ w f br buf,
      P { s with responses := w :: s.responses, fault := s.fault ||| f, bri := br, buf := buf }) : P t := by
  obtain ⟨-, h⟩ | ⟨-, -, h⟩ | ⟨-, -, w, f, br, buf, rfl, -⟩ := exec_cases h
  · exact runTicks_induction (fun u v _ => htick u v) _ _ _ hbegin h
  · exact runTicks_induction (fun u v _ => htick u v) _ _ _ hstart h
  · exact hother w f br buf

theorem exec_params {i : Instr} {s t : State} (h : exec i s = .next t) : t.params = s.params := by
  refine exec_induction (P := fun u => u.params = s.params) h (fun u v hu huv => ?_) rfl (by simp) fun _ _ _ _ => rfl
  obtain ⟨-, -, hp⟩ := tick_keeps huv
  exact hp.trans hu

theorem exec_fault {i : Instr} {s t : State} {k : Nat} (h : exec i s = .next t) (hk : s.fault.getLsbD k = true) :
    t.rst = true ∨ t.fault.getLsbD k = true := by
  refine exec_induction (P := fun u => u.rst = true ∨ u.fault.getLsbD k = true) h (fun _ _ hu huv => tick_fault huv hu)
    (.inr hk) (.inr (by rwa [startFrame_fault])) fun _ f _ _ => .inr ?_
  rw [BitVec.getLsbD_or, hk, Bool.true_or]

theorem runWord_params {w : Word} {s t : State} (h : runWord w s = .next t) : t.params = s.params := by
  cases hd : decode s.params.hasRawRead w with
  | ok i => exact exec_params (runWord_ok hd ▸ h)
  | error e =>
    rw [runWord_error hd] at h
    injection h with h
    exact h ▸ rfl

theorem runWord_fault {w : Word} {s t : State} {k : Nat} (h : runWord w s = .next t) (hk : s.fault.getLsbD k = true) :
    t.rst = true ∨ t.fault.getLsbD k = true := by
  cases hd : decode s.params.hasRawRead w with
  | ok i => exact exec_fault (runWord_ok hd ▸ h) hk
  | error e =>
    rw [runWord_error hd] at h
    injection h with h
    rw [← h, respond_fault, recordFault_fault, BitVec.getLsbD_or, hk]
    exact .inr rfl

theorem nextMove_params {s t : State} (hm : s.mode ≠ .tx) (h : nextMove s = .next t) : t.params = s.params := by
  obtain hs | ⟨rest, rfl⟩ | ⟨v, rest, rfl⟩ | ⟨rest, rfl⟩ := nextMove_cases hm h
  · exact hs.params
  · rfl
  · rw [platformWritesPort_eq]
  · rfl

theorem nextMove_fault {s t : State} (hm : s.mode ≠ .tx) (h : nextMove s = .next t) :
    t.rst = true ∨ t.fault = s.fault := by
  obtain hs | ⟨rest, rfl⟩ | ⟨v, rest, rfl⟩ | ⟨rest, rfl⟩ := nextMove_cases hm h
  · exact .inr hs.fault
  · exact .inr rfl
  · exact .inr (by rw [platformWritesPort_eq])
  · exact .inl rfl

/-- No step changes the elaboration parameters, in any state. -/
theorem step_params {s t : State} (h : step s = .next t) : t.params = s.params := by
  cases step_cases h with
  | held hr h => exact (nextMove_params (construct_mode_ne_tx s) h :)
  | move hr hm hc h => exact nextMove_params hm h
  | abandoned w hr hm hc he h => exact h ▸ rfl
  | word w hr hm hc he h => exact (runWord_params h).trans (hostEvent_params _ _)
  | segment hr hb h =>
    obtain ⟨-, -, hp⟩ := tick_keeps h
    exact hp

/-- Settles O56: no step changes the parameters, and the invariant, which every step keeps, makes N and BIND functions of
them. -/
theorem countAndBindingAreConstant : Obligations.CountAndBindingAreConstant := by
  intro s t hi h
  have ht := stepKeepsTheInvariant s t hi h
  have hp := step_params h
  exact ⟨by rw [ht.count_eq, hi.count_eq, hp], by rw [ht.bind_eq, hi.bind_eq, hp], hp⟩

/-- Settles O14: a step of a busy block is a tick. -/
theorem busyBlockHoldsTheCommand : Obligations.BusyBlockHoldsTheCommand := by
  intro s t hr hb h
  rw [step_busy hr hb] at h
  obtain ⟨hcmd, hin, -⟩ := tick_keeps h
  refine ⟨?_, hcmd, hin⟩
  rcases busy_iff.1 hb with hm | hm | hm <;> simp [cmdReady, hm]

theorem FaultReason.code_injective {a b : FaultReason} (h : a.code = b.code) : a = b := by
  have hcode (reason : FaultReason) : FaultReason.ofNat reason.code = reason := by cases reason <;> rfl
  rw [← hcode a, h, hcode b]

theorem step_fault {s t : State} {k : Nat} (hr : s.rst = false) (h : step s = .next t)
    (hk : s.fault.getLsbD k = true) : t.rst = true ∨ t.fault.getLsbD k = true := by
  cases step_cases h with
  | held hr' h => simp [hr] at hr'
  | move _ hm hc h => exact (nextMove_fault hm h).imp_right fun hf => by rwa [hf]
  | abandoned w _ hm hc he h => exact .inl (h ▸ rfl)
  | word w _ hm hc he h => exact runWord_fault h (by rwa [hostEvent_fault])
  | segment _ hb h => exact tick_fault h (.inr hk)

/-- Settles O33: the codes differ, and a step that clears a bit asserts `rst`. -/
theorem faultBitsAreSticky : Obligations.FaultBitsAreSticky :=
  ⟨fun _ _ => FaultReason.code_injective,
    fun _ _ _ hr h ht hk => (step_fault hr h hk).resolve_left (by simp [ht])⟩

/-! ## The sequencer's walk from the frame's start (10_state.md R20) -/

/-- SEQ is at the high segment of the k-th bit of a frame of n pixels. -/
structure AtHigh (n : Index) (k : Nat) (s : State) : Prop where
  count : s.count = n
  index : bitIndex s = k
  phase : s.seqPh = .hi
  pixel : s.seqP.toNat < n.toNat

theorem startFrame_atHigh (φ : Free) {s : State} (hn : 0 < s.count.toNat) : AtHigh s.count 0 (startFrame φ s) :=
  ⟨startFrame_count φ s, startFrame_bitIndex φ s, startFrame_seqPh φ s, by simpa using hn⟩

/-- Past the high and the low segment of a bit that is not the last, SEQ is at the next bit. -/
theorem AtHigh.advance_twice {n : Index} {k : Nat} {s : State} (h : AtHigh n k s) (hk : k + 1 < 24 * n.toNat) :
    AtHigh n (k + 1) (advance (advance s)) := by
  obtain ⟨rfl, rfl, hph, hp⟩ := h
  rw [advance_hi hph]
  have hlast : ¬ atLastBit { s with seqPh := .lo } = true :=
    mt (atLastBit_iff (s := { s with seqPh := .lo }) hp).1 (Nat.ne_of_lt hk)
  obtain ⟨hi, hph', hp'⟩ := advance_lo (s := { s with seqPh := .lo }) rfl hp hlast
  exact ⟨advance_count _, hi, hph', hp'.trans_eq (by simp)⟩

theorem advance_iterate_atHigh (φ : Free) (s : State) :
    ∀ k, k < 24 * s.count.toNat → AtHigh s.count k (advance^[2 * k] (startFrame φ s)) := by
  intro k
  induction k with
  | zero => exact fun hk => startFrame_atHigh φ (by omega)
  | succ k ih =>
    intro hk
    rw [show 2 * (k + 1) = 2 * k + 1 + 1 by omega, Function.iterate_succ_apply', Function.iterate_succ_apply']
    exact (ih (by omega)).advance_twice hk

/-- Settles O43: SEQ's place in the bit stream after 2k advances is k, and its digits are P, K and B. -/
theorem sequencerVisitsEveryBitOnce : Obligations.SequencerVisitsEveryBitOnce := by
  intro φ s k hk
  obtain ⟨hc, hi, hph, hp⟩ := advance_iterate_atHigh φ s k hk
  rw [Function.iterate_succ_apply']
  generalize advance^[2 * k] (startFrame φ s) = u at *
  have hlast : atLastBit u = true ↔ k + 1 = 24 * s.count.toNat := by
    rw [atLastBit_iff (by rwa [hc]), hi, hc]
  have hK := u.seqK.num_lt
  have hB := u.seqB.isLt
  unfold bitIndex at hi
  exact ⟨by omega, by omega, by omega, hph, advance_hi hph, hlast⟩

/-! ## Single steps of a halted and of an idle block; the `fault` output -/

/-- Settles O4: HALT reads the coming move, and `rst` constructs the block again. -/
theorem haltedBlockOnlyHonoursRst : Obligations.HaltedBlockOnlyHonoursRst := by
  intro s hr hm
  rw [step_halted hr hm]
  constructor
  · intro hno
    unfold stepHalted
    split
    · next rest hin => exact absurd hin (hno rest)
    · rfl
  · intro rest hin
    have hs : stepHalted s = assertRst { s with inputs := rest } := by simp [stepHalted, nextMove, hin, hostMove]
    refine ⟨_, hs.trans (assertRst_outside (by simp [hm])), rfl, ?_⟩
    rw [← constructionFaults_eq_zero]
    show (construct _).mode = .idle ↔ _
    rw [construct_mode]
    split <;> simp [*]

/-- Settles O12: the event at the acceptance decides between the decoded command and `rst`. -/
theorem acceptedCommandIsExecuted : Obligations.AcceptedCommandIsExecuted := by
  intro s w i hr hm hc hd
  have hruns (he : s.frameEnv.headD .quiet ≠ .rst) : step s =
      exec i (hostEvent (s.frameEnv.headD .quiet) { s with cmd := none, frameEnv := s.frameEnv.tail }) := by
    rw [step_runs hr hm hc he]
    exact runWord_ok (by simpa using hd)
  refine ⟨by simp [cmdReady, hm, hr], fun hnil => ?_, hruns, fun he => ?_⟩
  · have henv : ({ s with cmd := none, frameEnv := s.frameEnv.tail } : State) = { s with cmd := none } := by
      rw [hnil, List.tail_nil]
    rw [hruns (by simp [hnil]), henv, hnil]
    rfl
  · rw [step_abandons hr hm hc he]
    exact (assertRst_outside (by simp [hm])).symm

/-- Settles O34: the output masks FAULT with its five visible bits. -/
theorem faultOutputHidesModelOnlyBit : Obligations.FaultOutputHidesModelOnlyBit := by
  intro s k
  have hmask : (0x1F#8).getLsbD k = decide (k < 5) := by
    by_cases hk : k < 8
    · revert k; decide
    · rw [BitVec.getLsbD_of_ge _ _ (by omega)]
      simp; omega
  rw [faultOut, BitVec.getLsbD_and, Bool.and_comm]
  exact congrArg (· && s.fault.getLsbD k) hmask

end Sys2Proof.Machine

namespace Sys2Proof.Machine

/-! ## The buffer as the commands write and read it (20_memory.md R41) -/

theorem Memory.read_clear {n : Index} {buf : List Pixel} {i : Nat} (h : Memory.wf n buf = true) (hi : i < n.toNat) :
    Memory.read (Memory.clear buf) i = some Pixel.black := by
  rw [Memory.clear_eq_fresh h]
  simp [Memory.read, Memory.fresh, hi]

theorem storePixel_of_lt {s : State} {index : Index} (px : Pixel) (h : index.toNat < s.count.toNat) :
    storePixel index px s =
      .next (respond 0 { s with buf := Memory.write s.buf index.toNat (scalePixel px s.bri) }) := by
  simp [storePixel, inRange, h]

theorem execGetPixel_of_read {s : State} {index : Index} {px : Pixel} (hraw : s.params.hasRawRead = true)
    (h : index.toNat < s.count.toNat) (hpx : Memory.read s.buf index.toNat = some px) :
    execGetPixel index s = .next (respond (packPixel px) s) := by
  simp [execGetPixel, inRange, hraw, h, hpx]

theorem packPixel_black : packPixel Pixel.black = 0 := by decide

/-- Settles O30: both forms of the write leave the scaled pixel at the index and CLEAR leaves black there, and
GET_PIXEL answers what the buffer holds. -/
theorem readReturnsTheLastWrite : Obligations.ReadReturnsTheLastWrite := by
  intro s t index px hw hraw hin
  constructor
  · intro h
    have hstore : storePixel index px s = .next t := h.elim id id
    rw [storePixel_of_lt px hin] at hstore
    injection hstore with ht
    subst ht
    exact execGetPixel_of_read hraw hin (Memory.read_write_same _ (Memory.wf_iff.1 hw ▸ hin))
  · intro h
    injection h with ht
    subst ht
    have hread := execGetPixel_of_read (s := respond 0 { s with buf := Memory.clear s.buf }) hraw hin
      (Memory.read_clear hw hin)
    rwa [packPixel_black] at hread

end Sys2Proof.Machine

namespace Sys2Proof

/-! ## The decoder and the encoder, by opcode (30_encoding.md R45-R53)

A command stands for its row of the opcode map: `rsvZero` and `withOperands` read a word in the format of that row. -/

/-- The reserved bits of the command's format are 0 in a word (R46-R49). -/
def Instr.rsvZero : Instr → Word → Bool
  | .beginLine, w | .clear, w | .transmit, w | .getCount, w => Word.rsvN w
  | .setPixel _ _ _ _, w | .setPixelPx _ _, w => Word.rsvP w
  | .setBrightness _, w => Word.rsvV w
  | .getPixel _, w => Word.rsvI w

/-- The same command with the operands that its format reads in a word. -/
def Instr.withOperands : Instr → Word → Instr
  | .setPixel _ _ _ _, w => .setPixel (Word.idx w) (Word.red w) (Word.green w) (Word.low w)
  | .setPixelPx _ _, w => .setPixelPx (Word.idx w) ⟨Word.red w, Word.green w, Word.low w⟩
  | .setBrightness _, w => .setBrightness (Word.low w)
  | .getPixel _, w => .getPixel (Word.idx w)
  | i, _ => i

@[simp] theorem Instr.opcode_withOperands (i : Instr) (w : Word) : (i.withOperands w).opcode = i.opcode := by
  cases i <;> rfl

@[simp] theorem Instr.wellFormed_withOperands (raw : Bool) (i : Instr) (w : Word) :
    (i.withOperands w).wellFormed raw = i.wellFormed raw := by
  cases i <;> rfl

@[simp] theorem Instr.maskWord_withOperands (i : Instr) (w : Word) : (i.withOperands w).maskWord = i.maskWord := by
  cases i <;> rfl

@[simp] theorem Instr.matchWord_withOperands (i : Instr) (w : Word) : (i.withOperands w).matchWord = i.matchWord := by
  rw [matchWord, opcode_withOperands, matchWord]

/-- An opcode is unassigned or a command's. -/
theorem opcode_cases (o : BitVec 8) : (o = 0x00#8 ∨ 0x09#8 ≤ o) ∨ ∃ i : Instr, o = i.opcode := by
  have h : (o = 0x00#8 ∨ 0x09#8 ≤ o) ∨ o = 0x01#8 ∨ o = 0x02#8 ∨ o = 0x03#8 ∨ o = 0x04#8 ∨ o = 0x05#8 ∨ o = 0x06#8 ∨
      o = 0x07#8 ∨ o = 0x08#8 := by bv_omega
  rcases h with h | h | h | h | h | h | h | h | h
  · exact .inl h
  · exact .inr ⟨.beginLine, h⟩
  · exact .inr ⟨.setPixel 0 0 0 0, h⟩
  · exact .inr ⟨.setPixelPx 0 .black, h⟩
  · exact .inr ⟨.clear, h⟩
  · exact .inr ⟨.setBrightness 0, h⟩
  · exact .inr ⟨.transmit, h⟩
  · exact .inr ⟨.getCount, h⟩
  · exact .inr ⟨.getPixel 0, h⟩

/-- The decoder on a word with a command's opcode. -/
theorem decode_of_opc {raw : Bool} {w : Word} {i : Instr} (h : Word.opc w = i.opcode) :
    decode raw w =
      if i.wellFormed raw then decodeIf (i.rsvZero w) (i.withOperands w) else .error .rawReadAbsent := by
  unfold decode
  rw [h]
  cases i <;> rfl

theorem decode_of_unassigned {raw : Bool} {w : Word} (h : Word.opc w = 0x00#8 ∨ 0x09#8 ≤ Word.opc w) :
    decode raw w = .error .unassignedOpcode := by
  have hopc : (Word.opc w).toNat = 0 ∨ 9 ≤ (Word.opc w).toNat := by bv_omega
  unfold decode
  split
  case h_9 => rfl
  all_goals omega

/-- The OPC field of a command's word is its opcode. -/
theorem opc_encode (i : Instr) : Word.opc (encode i) = i.opcode := by
  cases i with
  | beginLine => exact Laws.OpcodeByte.beginLine
  | setPixel index r g b => exact Laws.OpcodeByte.setPixel index r g b
  | setPixelPx index px => exact Laws.OpcodeByte.setPixelPx index px
  | clear => exact Laws.OpcodeByte.clear
  | setBrightness value => exact Laws.OpcodeByte.setBrightness value
  | transmit => exact Laws.OpcodeByte.transmit
  | getCount => exact Laws.OpcodeByte.getCount
  | getPixel index => exact Laws.OpcodeByte.getPixel index

/-- A command's word has 0 in its reserved bits and the command's operands in its fields. -/
theorem fields_encode (i : Instr) : i.rsvZero (encode i) = true ∧ i.withOperands (encode i) = i := by
  cases i with
  | beginLine | clear | transmit | getCount => exact ⟨(fields_encodeN _).2, rfl⟩
  | setPixel | setPixelPx => simp [Instr.rsvZero, Instr.withOperands, encode, fields_encodeP]
  | setBrightness => simp [Instr.rsvZero, Instr.withOperands, encode, fields_encodeV]
  | getPixel => simp [Instr.rsvZero, Instr.withOperands, encode, fields_encodeI]

/-- A word with a command's opcode and 0 in its reserved bits is the word of the operands it holds. -/
theorem encode_withOperands {w : Word} {i : Instr} (h : Word.opc w = i.opcode) (hr : i.rsvZero w = true) :
    encode (i.withOperands w) = w := by
  cases i with
  | beginLine | clear | transmit | getCount => exact (congrArg encodeN h.symm).trans (encodeN_of_fields hr)
  | setPixel | setPixelPx => exact (congrArg (encodeP · _ _) h.symm).trans (encodeP_of_fields hr)
  | setBrightness => exact (congrArg (encodeV · _) h.symm).trans (encodeV_of_fields hr)
  | getPixel => exact (congrArg (encodeI · _) h.symm).trans (encodeI_of_fields hr)

/-- Settles O7: a command's word has its opcode, no reserved bit and its operands, so the decoder gives it back, except
where the build lacks the command. -/
theorem decodeOfEncodeIsTheCommand : Obligations.DecodeOfEncodeIsTheCommand := by
  intro raw i
  obtain ⟨hr, ho⟩ := fields_encode i
  rw [decode_of_opc (opc_encode i), hr, ho]
  exact ⟨fun h => by rw [if_pos h]; rfl, fun h => by rw [h]; rfl⟩

theorem decode_ok {raw : Bool} {w : Word} {i : Instr} (h : decode raw w = .ok i) :
    encode i = w ∧ i.wellFormed raw = true := by
  obtain ho | ⟨i, ho⟩ := opcode_cases (Word.opc w)
  · rw [decode_of_unassigned ho] at h
    cases h
  · rw [decode_of_opc ho] at h
    split at h
    · next hwf =>
      obtain ⟨hr, rfl⟩ := decodeIf_ok h
      exact ⟨encode_withOperands ho hr, by simpa using hwf⟩
    · cases h

/-- Settles O8: a decoded word holds the command's opcode and operands and nothing else. -/
theorem encodeOfDecodeIsTheWord : Obligations.EncodeOfDecodeIsTheWord := fun _ _ _ => decode_ok

/-! ## match and mask of the opcode map (R50) -/

/-- Where the mask is all ones, a selected word has the field of `match`. -/
theorem field_of_and_mask {w mask m : Word} {start len : Nat} (h : w &&& mask = m)
    (hmask : mask.extractLsb' start len = BitVec.allOnes len) : w.extractLsb' start len = m.extractLsb' start len := by
  rw [← h, BitVec.extractLsb'_and, hmask, BitVec.and_allOnes]

/-- Below OPC, `match` is 0. -/
theorem encodeN_field (o : BitVec 8) {start len : Nat} (h : start + len ≤ 56) :
    (encodeN o).extractLsb' start len = 0#len := by
  rw [encodeN, BitVec.extractLsb'_append_eq_of_add_le h]
  ext i hi
  simp

theorem encodeP_and_mask (o : BitVec 8) (x : Index) (p : Pixel) : encodeP o x p &&& 0xFF0000FFFF000000 = encodeN o := by
  have hm (k : Nat) (hk : k < 64) :
      (0xFF0000FFFF000000 : Word)[k] = (decide (56 ≤ k) || decide (24 ≤ k) && decide (k < 40)) := by
    revert k; decide
  ext k hk
  rw [BitVec.getElem_and, hm]
  grind [encodeP, encodeN]

theorem encodeI_and_mask (o : BitVec 8) (x : Index) : encodeI o x &&& 0xFF0000FFFFFFFFFF = encodeN o := by
  have hm (k : Nat) (hk : k < 64) : (0xFF0000FFFFFFFFFF : Word)[k] = (decide (56 ≤ k) || decide (k < 40)) := by
    revert k; decide
  ext k hk
  rw [BitVec.getElem_and, hm]
  grind [encodeI, encodeN]

theorem encodeV_and_mask (o : BitVec 8) (x : Channel) : encodeV o x &&& 0xFFFFFFFFFFFFFF00 = encodeN o := by
  have hm (k : Nat) (hk : k < 64) : (0xFFFFFFFFFFFFFF00 : Word)[k] = decide (8 ≤ k) := by
    revert k; decide
  ext k hk
  rw [BitVec.getElem_and, hm]
  grind [encodeV, encodeN]

/-- The mask of a command selects the command's own word. -/
theorem encode_and_mask (i : Instr) : encode i &&& i.maskWord = i.matchWord := by
  cases i with
  | beginLine | clear | transmit | getCount => exact BitVec.and_allOnes
  | setPixel | setPixelPx => exact encodeP_and_mask _ _ _
  | setBrightness => exact encodeV_and_mask _ _
  | getPixel => exact encodeI_and_mask _ _

/-- A word that mask and match select has the opcode: the mask covers OPC. -/
theorem opc_of_and_mask {w : Word} {i : Instr} (h : w &&& i.maskWord = i.matchWord) : Word.opc w = i.opcode := by
  have hm : i.maskWord.extractLsb' 56 8 = BitVec.allOnes 8 := by
    cases i <;> rw [Instr.maskWord] <;> decide
  exact (field_of_and_mask h hm).trans (fields_encodeN i.opcode).1

/-- A field below OPC that the mask covers is 0 in a word that mask and match select. -/
theorem field_eq_zero_of_and_mask {w : Word} {i : Instr} (start len : Nat) (hl : start + len ≤ 56)
    (hm : i.maskWord.extractLsb' start len = BitVec.allOnes len) (h : w &&& i.maskWord = i.matchWord) :
    w.extractLsb' start len = 0#len :=
  (field_of_and_mask h hm).trans (encodeN_field i.opcode hl)

/-- The mask covers the reserved bits of the command's format. -/
theorem rsvZero_of_and_mask {w : Word} {i : Instr} (h : w &&& i.maskWord = i.matchWord) : i.rsvZero w = true := by
  cases i with
  | beginLine | clear | transmit | getCount =>
    exact beq_iff_eq.2 (field_eq_zero_of_and_mask 0 56 (by decide) (by rw [Instr.maskWord]; decide) h)
  | setPixel | setPixelPx =>
    exact beq_iff_eq.2 (field_eq_zero_of_and_mask 24 16 (by decide) (by rw [Instr.maskWord]; decide) h)
  | setBrightness =>
    exact beq_iff_eq.2 (field_eq_zero_of_and_mask 8 48 (by decide) (by rw [Instr.maskWord]; decide) h)
  | getPixel =>
    exact beq_iff_eq.2 (field_eq_zero_of_and_mask 0 40 (by decide) (by rw [Instr.maskWord]; decide) h)

theorem and_mask_eq_match_iff (w : Word) (i : Instr) :
    w &&& i.maskWord = i.matchWord ↔ Word.opc w = i.opcode ∧ i.rsvZero w = true := by
  constructor
  · exact fun h => ⟨opc_of_and_mask h, rsvZero_of_and_mask h⟩
  · rintro ⟨ho, hr⟩
    have h := encode_and_mask (i.withOperands w)
    rwa [encode_withOperands ho hr, Instr.maskWord_withOperands, Instr.matchWord_withOperands] at h

/-- A command's opcode and no reserved bit are what the decoder asks of a word of the command, in a build that has it. -/
theorem decode_opcode_iff {raw : Bool} (w : Word) {i : Instr} (hwf : i.wellFormed raw = true) :
    (∃ j, decode raw w = .ok j ∧ j.opcode = i.opcode) ↔ Word.opc w = i.opcode ∧ i.rsvZero w = true := by
  constructor
  · rintro ⟨j, hd, hj⟩
    have ho : Word.opc w = i.opcode := by rw [← (decode_ok hd).1, opc_encode, hj]
    rw [decode_of_opc ho, if_pos hwf] at hd
    exact ⟨ho, (decodeIf_ok hd).1⟩
  · rintro ⟨ho, hr⟩
    refine ⟨i.withOperands w, ?_, i.opcode_withOperands w⟩
    rw [decode_of_opc ho, if_pos hwf, hr]
    rfl

/-- Settles O9: mask and match, like the decoder, ask for the command's opcode and for 0 in its reserved bits. -/
theorem opcodeMapSelectsTheCommand : Obligations.OpcodeMapSelectsTheCommand :=
  ⟨by decide, fun _ w i hwf => (and_mask_eq_match_iff w i).trans (decode_opcode_iff w hwf).symm,
    fun _ _ _ hd => (decode_ok hd).2⟩

/-! ## Illegal words (R53) -/

theorem decode_error_iff {raw : Bool} {w : Word} {i : Instr} (h : Word.opc w = i.opcode) :
    (∃ e, decode raw w = .error e) ↔ i.rsvZero w = false ∨ i.wellFormed raw = false := by
  rw [decode_of_opc h]
  cases hwf : i.wellFormed raw with
  | true => simpa using decodeIf_error _ _
  | false => simp

/-- Settles O10: an unassigned opcode is illegal, and a command's opcode is when a reserved bit of its format is 1 or the
build lacks the command. -/
theorem illegalWordsAreExactlyThese : Obligations.IllegalWordsAreExactlyThese := by
  intro raw w
  rw [show w.extractLsb' 56 8 = Word.opc w from rfl]
  obtain ho | ⟨i, ho⟩ := opcode_cases (Word.opc w)
  · exact iff_of_true ⟨_, decode_of_unassigned ho⟩ (.inl ho)
  · rw [decode_error_iff ho, ho]
    cases i with
    | beginLine | clear | transmit | getCount => simp [Instr.rsvZero, Instr.wellFormed, Instr.opcode, Word.rsvN]
    | setPixel | setPixelPx => simp [Instr.rsvZero, Instr.wellFormed, Instr.opcode, Word.rsvP]
    | setBrightness => simp [Instr.rsvZero, Instr.wellFormed, Instr.opcode, Word.rsvV]
    | getPixel => simp [Instr.rsvZero, Instr.wellFormed, Instr.opcode, Word.rsvI]

/-- Settles O6: the words are evaluated. -/
theorem sampleWordsDecode : Obligations.SampleWordsDecode := by
  unfold Obligations.SampleWordsDecode
  decide

/-! ## The assembler's operands (R57) -/

namespace Assembler

theorem operand_index (n : Nat) : operand 16 n = if n ≤ 65535 then some (BitVec.ofNat 16 n) else none := by
  simp only [operand, show n < 2 ^ 16 ↔ n ≤ 65535 by omega]

theorem operand_channel (n : Nat) : operand 8 n = if n ≤ 255 then some (BitVec.ofNat 8 n) else none := by
  simp only [operand, show n < 2 ^ 8 ↔ n ≤ 255 by omega]

theorem pixelOperands_eq (i r g b : Nat) (mk : Index → Channel → Channel → Channel → Instr) :
    pixelOperands i r g b mk = if i ≤ 65535 ∧ r ≤ 255 ∧ g ≤ 255 ∧ b ≤ 255 then
      some (mk (BitVec.ofNat 16 i) (BitVec.ofNat 8 r) (BitVec.ofNat 8 g) (BitVec.ofNat 8 b)) else none := by
  simp only [pixelOperands, operand_index, operand_channel]
  split_ifs <;> simp_all

end Assembler

/-- Settles O11: each form parses to its command with its operands read by `operand`; the plain lines are evaluated. -/
theorem assemblerRefusesWhatDoesNotFit : Obligations.AssemblerRefusesWhatDoesNotFit := by
  refine ⟨fun i r g b => ?_, fun v => ?_, fun i => ?_, by decide, by decide, by decide, by decide⟩
  · rw [← Assembler.pixelOperands_eq i r g b .setPixel,
      ← Assembler.pixelOperands_eq i r g b fun i r g b => .setPixelPx i ⟨r, g, b⟩]
    exact ⟨rfl, rfl, rfl, rfl⟩
  · have h : (Assembler.operand 8 v).map Instr.setBrightness =
        if v ≤ 255 then some (.setBrightness (BitVec.ofNat 8 v)) else none := by
      rw [Assembler.operand_channel]
      split <;> rfl
    exact ⟨h, h⟩
  · change (Assembler.operand 16 i).map Instr.getPixel = _
    rw [Assembler.operand_index]
    split <;> rfl

end Sys2Proof

namespace Sys2Proof.Machine

/-! ## One response per command (10_state.md R29, 30_encoding.md R56) -/

/-- A busy block's segment responds exactly when it ends the command. -/
theorem BlockStep.responses {φ : Free} {s t : State} (h : BlockStep φ s t) (hb : busy s = true) :
    t.responses = if busy t then s.responses else 0 :: s.responses := by
  cases h with
  | config b level hm _ _ =>
    rw [busy_iff.2 (.inr (.inl (startFrame_mode _ _))), startFrame_responses]
    simp
  | segment b d bit level f s' hm _ _ _ hd =>
    obtain ⟨g, rfl⟩ := SegmentStart.eq hd
    simp [busy, hm]
  | last b d v s' hm _ _ _ _ hd =>
    obtain ⟨g, rfl⟩ := SegmentStart.eq hd
    simp [busy]
  | latch hm => simp [busy]
  | rest hm => rcases hm with hm | hm <;> simp [busy, hm] at hb

/-- A command that was accepted with the responses `ws` is under way without a response, has ended with the response 0,
or was cut by `rst`. -/
def RespondsOnce (ws : List Word) (s : State) : Prop :=
  s.rst = true ∨ s.responses = if busy s then ws else 0 :: ws

theorem tick_respondsOnce {φ : Free} {ws : List Word} {s t : State} (hb : busy s = true) (hs : RespondsOnce ws s)
    (h : tick φ s = .next t) : RespondsOnce ws t := by
  obtain ⟨u, v, -, rfl⟩ | ⟨s₁, e, -, -, -, rfl, hstep⟩ := tick_outcome h
  · exact .inl rfl
  · obtain ⟨hr, -⟩ := hstep.keeps
    refine hs.imp (fun hs => by simp [hr, hs]) fun hs => ?_
    rw [hstep.responses (by simpa [busy] using hb), hostEvent_responses]
    simp [hs, hb]

/-- Ticks that end a command without `rst` add the one response 0. -/
theorem runTicks_responses {φ : Free} {k : Nat} {s t : State} (hs : busy s = true) (h : runTicks φ k s = .next t)
    (hd : busy t = false) (ht : t.rst = false) : t.responses = 0 :: s.responses := by
  have hstart : RespondsOnce s.responses s := .inr (by simp [hs])
  have hend := runTicks_induction (fun _ _ => tick_respondsOnce) k s t hstart h
  simpa [hd] using hend.resolve_left (by simp [ht])

/-- Settles O15: a frame responds 0 at its end, and every other command at once. -/
theorem oneResponsePerCommand : Obligations.OneResponsePerCommand := by
  intro i s t _ h ht
  obtain ⟨-, h⟩ | ⟨-, -, h⟩ | ⟨-, -, w, f, br, buf, rfl, hw, -⟩ := exec_cases h
  · have hr := runTicks_responses (s := { s with mode := .config, begun := true }) rfl h (beginFrame_finishes h) ht
    exact ⟨0, hr, by simp⟩
  · have hr := runTicks_responses (s := startFrame Config.free s) (by simp [busy]) h (transmitFrame_finishes h) ht
    exact ⟨0, by rwa [startFrame_responses] at hr, by simp⟩
  · exact ⟨w, rfl, hw⟩

end Sys2Proof.Machine

namespace Sys2Proof.Machine

/-! ## BEGIN in any environment (40_setup.md R61) -/

@[simp] theorem lowRun_cons_low (ns : Nat) (rest : List Segment) :
    lowRun (⟨.low, ns⟩ :: rest) = ns + lowRun rest := rfl

/-- How far BEGIN has brought the line: an output from the end of the configure step, LOW from the last falling edge,
and LOW for the latch hold at the end. -/
structure BeginLine (s : State) : Prop where
  begun   : s.begun = true
  running : s.mode ≠ .halt
  driven  : s.mode ≠ .config → s.lineOE = true
  low     : s.mode = .latch ∨ s.mode = .idle → s.lineLvl = .low
  hold    : s.mode = .idle → s.params.tresetMin ≤ lowRun s.trace

theorem hostEvent_beginLine {s : State} (e : FrameEvent) (h : BeginLine s) : BeginLine (hostEvent e s) := by
  constructor
  · simpa using h.begun
  · simpa using h.running
  · simpa using h.driven
  · simpa using h.low
  · simpa using h.hold

theorem BlockStep.beginLine {φ : Free} {s t : State} (hs : BeginLine s) (h : BlockStep φ s t) : BeginLine t := by
  cases h with
  | config b level hm hb hl => constructor <;> simp [hs.begun]
  | segment b d bit level f s' hm hb hl hp hd =>
    obtain ⟨g, rfl⟩ := SegmentStart.eq hd
    constructor <;> simp [hm, hs.begun, hs.driven]
  | last b d v s' hm hb hsv hp hl hd =>
    obtain ⟨g, rfl⟩ := SegmentStart.eq hd
    constructor <;> simp [hm, hs.begun, hs.driven]
  | latch hm =>
    have hdraw := drawIn_ge (φ.nat s.draws) (s.params.tresetMin - lowRun s.trace)
      (s.params.tresetMax.map (· - lowRun s.trace))
    constructor
    · simpa using hs.begun
    · simp
    · simpa using hs.driven (by simp [hm])
    · simpa using hs.low (.inl hm)
    · intro _
      simp only [respond_params, respond_trace, emit_params, emit_trace, lowRun_cons_low]
      omega
  | rest hm => exact hs

theorem tick_beginLine {φ : Free} {s t : State} (hs : s.rst = true ∨ BeginLine s) (h : tick φ s = .next t) :
    t.rst = true ∨ BeginLine t := by
  obtain ⟨u, v, -, rfl⟩ | ⟨s₁, e, -, -, -, rfl, hstep⟩ := tick_outcome h
  · exact .inl rfl
  · obtain ⟨hr, -⟩ := hstep.keeps
    have henv (hs : BeginLine s) : BeginLine { s with frameEnv := s.frameEnv.tail } :=
      ⟨hs.begun, hs.running, hs.driven, hs.low, hs.hold⟩
    exact hs.imp (fun hs => by simp [hr, hs]) fun hs => hstep.beginLine (hostEvent_beginLine e (henv hs))

/-- The low that a frame starts with prolongs the LOW before it. -/
theorem lowRun_startFrame_ge (φ : Free) (s : State) : lowRun s.trace ≤ lowRun (startFrame φ s).trace := by
  rw [startFrame_trace, lowRun_cons_low, lowRun_cons_low]
  omega

/-- Settles O51: every segment of BEGIN keeps `BeginLine`, and a BEGIN that `rst` does not cut ends idle. -/
theorem afterBeginTheLineIsLow : Obligations.AfterBeginTheLineIsLow := by
  intro s t _ h ht
  have hstart : BeginLine { s with mode := .config, begun := true } := by constructor <;> simp
  have hline := (runTicks_induction (fun _ _ _ => tick_beginLine) _ _ t (.inr hstart) h).resolve_left (by simp [ht])
  have hidle : t.mode = .idle := by
    have hdone := beginFrame_finishes h
    have hrun := hline.running
    cases hm : t.mode <;> simp [busy, hm] at hdone hrun ⊢
  have hhold : s.params.tresetMin ≤ lowRun t.trace := exec_params h ▸ hline.hold hidle
  exact ⟨hline.driven (by simp [hidle]), hline.low (.inr hidle), hhold, hline.begun,
    fun φ => hhold.trans (lowRun_startFrame_ge φ t)⟩

/-! ## BEGIN in a dutiful environment (40_setup.md R59, R60) -/

theorem mergeSegments_rawFrame_admitted {φ : Free} {p : Params} {bits : List Bool} (d : Nat)
    (hp : latchPossible p = true) (hbits : bits ≠ []) :
    admitsFrame p bits (mergeSegments (rawFrame φ p d bits)) = true := by
  obtain ⟨h, rest, hraw, hadm⟩ := rawBits_merge (φ := φ) hp (d + 2) bits hbits
  have hmerge : mergeSegments (rawFrame φ p d bits) = ⟨.low, φ.nat d + φ.nat (d + 1)⟩ :: ⟨.high, h⟩ :: rest :=
    mergeSegments_cons_eq (mergeSegments_cons_ne hraw (by simp)) rfl
  rw [hmerge]
  exact hadm

theorem State.Ready.frameBits_ne_nil {s : State} (hr : s.Ready) : frameBits s.buf ≠ [] := by
  have hlen := frameBits_length s.buf
  have hpos := hr.count_pos
  rw [Memory.wf_iff.1 hr.buf_wf] at hlen
  intro hnil
  rw [hnil, List.length_nil] at hlen
  omega

/-- The level of the transient in the configure step. -/
def transientLevel (φ : Free) (s : State) : Level := if φ.bit s.draws then .high else .low

theorem transientLevel_cases (φ : Free) (s : State) : transientLevel φ s = .low ∨ transientLevel φ s = .high := by
  unfold transientLevel
  split <;> simp

/-- BEGIN after its configure step, in which the next event of the environment happens: the line is an output, LOW after a
transient. -/
def configured (φ : Free) (b : Binding) (s : State) : State :=
  let host := hostEvent (s.frameEnv.headD .quiet)
    { s with mode := .config, begun := true, frameEnv := s.frameEnv.tail }
  portWrite b .low
    (emit φ (transientLevel φ s) 0 none { host with lineOE := true, lineLvl := transientLevel φ s })

theorem tick_configures {φ : Free} {b : Binding} {s : State} (hb : s.bind = some b)
    (he : s.frameEnv.headD .quiet ≠ .rst) :
    tick φ { s with mode := .config, begun := true } = .next (startFrame φ (configured φ b s)) := by
  rw [tick_of_ne_rst (s := { s with mode := .config, begun := true }) he, blockTick_config (by simp),
    tickConfig_some (b := b) (by simpa using hb)]
  simp [configured, transientLevel]

/-- BEGIN whose configure step is not cut by `rst` goes on with the frame. -/
theorem beginFrame_eq {φ : Free} {b : Binding} {s : State} (hb : s.bind = some b)
    (he : s.frameEnv.headD .quiet ≠ .rst) :
    beginFrame φ s = runTicks φ (48 * (s.count.toNat + 1) + 1) (startFrame φ (configured φ b s)) :=
  runTicks_busy rfl (tick_configures hb he)

theorem configured_hostIE (φ : Free) (b : Binding) (s : State) :
    (configured φ b s).hostIE = ieAfter s.hostIE (s.frameEnv.headD .quiet) := by
  simp [configured]

theorem configured_sameConfig (φ : Free) (b : Binding) (s : State) :
    SameConfig { s with begun := true, lineOE := true } (startFrame φ (configured φ b s)) := by
  constructor <;> simp [configured]

theorem configured_ready {φ : Free} {b : Binding} {s : State} (hr : s.Ready) : (configured φ b s).Ready := by
  constructor
  · simpa [configured] using hr.bound
  · simpa [configured] using hr.buf_wf
  · simpa [configured] using hr.nonzero

/-- BEGIN in an environment that keeps its duties from the end of the configure step on runs to the end of its frame. -/
theorem beginFrame_runs {φ : Free} {b : Binding} {s : State} (hr : s.Ready) (hb : s.bind = some b)
    (he : s.frameEnv.headD .quiet ≠ .rst) (hd : State.Dutiful { s with frameEnv := s.frameEnv.tail }) :
    ∃ t, beginFrame φ s = .next t ∧
      FrameDone φ b (ieAfter s.hostIE (s.frameEnv.headD .quiet)) (startFrame φ (configured φ b s)) t := by
  have hbind : (configured φ b s).bind = some b := by simpa [configured] using hb
  have hduty : (configured φ b s).Dutiful := by simpa [State.Dutiful, frameSegments, configured] using hd
  have hfuel : 48 * (configured φ b s).count.toNat + 1 ≤ 48 * (s.count.toNat + 1) + 1 := by simp [configured]
  rw [beginFrame_eq hb he, ← configured_hostIE φ b s]
  exact startFrame_runs _ hfuel (configured_ready hr) hbind hduty

/-- The trace after BEGIN's frame: the transient, then the segments of the frame. -/
theorem FrameDone.trace_configured {φ : Free} {b : Binding} {v : Bool} {s t : State}
    (h : FrameDone φ b v (startFrame φ (configured φ b s)) t) :
    t.trace = (rawFrame φ s.params (s.draws + 1) (frameBits s.buf)).reverse ++
      ⟨transientLevel φ s, φ.nat s.draws⟩ :: s.trace := by
  rw [h.trace, startFrame_trace, startFrame_bitIndex]
  simp [configured, rawFrame, drawIn]

/-- Settles O50: the configure step, then the whole frame of a dutiful environment from the state that it leaves. -/
theorem beginConfiguresAndSendsTheBuffer : Obligations.BeginConfiguresAndSendsTheBuffer := by
  rintro s u b ie hr hb he rfl rfl hd hp
  obtain ⟨t, ht, hdone⟩ := beginFrame_runs (φ := Config.free) hr hb he hd
  have hsame := (configured_sameConfig Config.free b s).trans hdone.same
  have hadm : admitsFrame s.params (frameBits s.buf)
      (mergeSegments (rawFrame Config.free s.params (s.draws + 1) (frameBits s.buf))) = true :=
    mergeSegments_rawFrame_admitted _ hp hr.frameBits_ne_nil
  have hresp : t.responses = 0 :: s.responses := by simp [hdone.responses, configured]
  have hlow : t.lineLvl = .low := by simp [hdone.level, configured]
  have hie : t.hostIE = ieAfter (ieAfter s.hostIE (s.frameEnv.headD .quiet))
      (latchEvent { s with frameEnv := s.frameEnv.tail }) := by
    rw [hdone.hostIE, startFrame_segmentsLeft]
    simp [configured, latchEvent, frameSegments]
  have hwrites : t.ieWrites = ieAfter s.hostIE (s.frameEnv.headD .quiet) :: false :: s.ieWrites := by
    simp [hdone.ieWrites, configured]
  have hport : t.port = portLow s.params.portW s.port b.mask := by
    simp [hdone.port, configured, portSet, portLow_portLow]
  have hfault : t.fault = s.fault := by simp [hdone.fault, configured]
  exact ⟨t, _, _, ht, hdone.trace_configured, transientLevel_cases _ _, by rwa [List.reverse_reverse],
    hresp, hdone.mode, hsame.begun, hsame.lineOE, hlow, hie, hdone.saved, hwrites, hport,
    hsame.count, hsame.bind, hsame.buf, hsame.bri, hfault, hsame.rst, hsame.cmd, hsame.inputs, hsame.params⟩

end Sys2Proof.Machine

namespace Sys2Proof.Machine

/-! ## Scaling by the brightness (41_buffer.md R62, R63) -/

theorem channel_mul_le (c br : Channel) : c.toNat * br.toNat ≤ 65025 :=
  Nat.mul_le_mul (by omega : c.toNat ≤ 255) (by omega : br.toNat ≤ 255)

/-- Settles O17: the product fits 16 bits, so that `scale` loses nothing but the low byte. -/
theorem scaleTruncatesTheProduct : Obligations.ScaleTruncatesTheProduct := fun c br =>
  ⟨channel_mul_le c br, scale_toNat c br⟩

theorem scale_comm (c br : Channel) : scale c br = scale br c := by
  rw [scale, scale, Nat.mul_comm]

theorem scale_zero (c : Channel) : scale c 0 = 0 := BitVec.eq_of_toNat_eq (by simp [scale_toNat])

theorem scale_mono {c c' br br' : Channel} (hc : c ≤ c') (hb : br ≤ br') : scale c br ≤ scale c' br' := by
  rw [BitVec.le_def, scale_toNat, scale_toNat]
  exact Nat.div_le_div_right (Nat.mul_le_mul hc hb)

/-- A channel is scaled by less than 256/256. -/
theorem scale_lt {c : Channel} (br : Channel) (hc : 0 < c) : scale c br < c := by
  have hpos : 0 < c.toNat := hc
  rw [BitVec.lt_def, scale_toNat, Nat.div_lt_iff_lt_mul (by decide)]
  exact Nat.mul_lt_mul_of_pos_left br.isLt hpos

theorem scale_le (c br : Channel) : scale c br ≤ c := by
  rw [BitVec.le_def, scale_toNat]
  exact Nat.div_le_of_le_mul (Nat.mul_comm c.toNat br.toNat ▸ Nat.mul_le_mul_right _ br.isLt.le)

theorem scale_le_254 (c br : Channel) : scale c br ≤ 254 := by
  have hprod := channel_mul_le c br
  rw [BitVec.le_def, scale_toNat]
  exact Nat.div_le_div_right hprod

theorem scale_full {c : Channel} (hc : 1 ≤ c) : scale c 255 = c - 1 := by
  refine BitVec.eq_of_toNat_eq ?_
  have hpos : 1 ≤ c.toNat := hc
  rw [scale_toNat, BitVec.toNat_sub_of_le hc]
  change c.toNat * 255 / 256 = c.toNat - 1
  omega

theorem scale_half (c : Channel) : scale c 128 = c >>> 1 := by
  refine BitVec.eq_of_toNat_eq ?_
  rw [scale_toNat, BitVec.toNat_ushiftRight, Nat.shiftRight_one]
  change c.toNat * 128 / 256 = c.toNat / 2
  omega

theorem scale_one (c : Channel) : scale c 1 = 0 := by
  refine BitVec.eq_of_toNat_eq ?_
  rw [scale_toNat]
  change c.toNat * 1 / 256 = 0
  omega

theorem one_le_scale_iff (c br : Channel) : 1 ≤ scale c br ↔ 256 ≤ c.toNat * br.toNat := by
  rw [BitVec.le_def, scale_toNat]
  exact Nat.le_div_iff_mul_le (by decide)

/-- Settles O18: each law is a fact about the product divided by 256, and the laws on the brightness are those on the
channel by symmetry. -/
theorem scaleLawsHold : Obligations.ScaleLawsHold :=
  ⟨fun c br => ⟨scale_comm 0 br ▸ scale_zero br, scale_zero c⟩,
   scale_comm,
   fun _ _ _ _ => scale_mono,
   fun c br => ⟨scale_le c br, scale_comm c br ▸ scale_le br c, fun hc hb =>
     ⟨scale_lt br hc, scale_comm c br ▸ scale_lt c hb⟩⟩,
   fun c br => ⟨scale_le_254 c br, scale_ne_255 c br⟩,
   scale_full (c := 255) (by decide),
   scalePixel_never_full,
   fun _ => scale_full,
   scale_comm 0 255 ▸ scale_zero 255,
   scale_half,
   scale_one,
   one_le_scale_iff⟩

/-! ## The buffer commands (41_buffer.md R64-R70) -/

/-- Both forms of the write are one write (R65: "identical in every effect"). -/
theorem exec_write {i : Instr} {index : Index} {px : Pixel} (s : State)
    (hi : i = .setPixel index px.r px.g px.b ∨ i = .setPixelPx index px) : exec i s = storePixel index px s := by
  rcases hi with rfl | rfl <;> rfl

theorem storePixel_of_le {s : State} {index : Index} (px : Pixel) (h : s.count.toNat ≤ index.toNat) :
    storePixel index px s = .next (respond 0 s) := by
  simp [storePixel, inRange, Nat.not_lt.2 h]

/-- A write completes, and changes at most the buffer. -/
theorem storePixel_answers (index : Index) (px : Pixel) (s : State) :
    ∃ buf, storePixel index px s = .next (respond 0 { s with buf := buf }) := by
  obtain hin | hout := Nat.lt_or_ge index.toNat s.count.toNat
  · exact ⟨_, storePixel_of_lt px hin⟩
  · exact ⟨s.buf, storePixel_of_le px hout⟩

/-- Settles O19: in range, the one write that both forms share stores the scaled pixel. -/
theorem setPixelStoresTheScaledPixel : Obligations.SetPixelStoresTheScaledPixel := fun _ _ r g b hin =>
  ⟨storePixel_of_lt ⟨r, g, b⟩ hin, storePixel_of_lt ⟨r, g, b⟩ hin⟩

theorem storePixel_next_of_lt {s t : State} {index : Index} {px : Pixel} (h : storePixel index px s = .next t)
    (hin : index.toNat < s.count.toNat) :
    t = respond 0 { s with buf := Memory.write s.buf index.toNat (scalePixel px s.bri) } := by
  rw [storePixel_of_lt px hin] at h
  injection h with h
  exact h.symm

theorem storePixel_next_of_le {s t : State} {index : Index} {px : Pixel} (h : storePixel index px s = .next t)
    (hout : s.count.toNat ≤ index.toNat) : t = respond 0 s := by
  rw [storePixel_of_le px hout] at h
  injection h with h
  exact h.symm

/-- Settles O21: in range, reads at other indices pass over both writes and a read at the index sees the later one; out
of range, neither write touches the buffer. -/
theorem setPixelIsLocal : Obligations.SetPixelIsLocal := by
  intro i j s t u index px px' hw hi hj ht hu
  rw [exec_write s hi] at ht
  rw [exec_write t hj] at hu
  obtain hin | hout := Nat.lt_or_ge index.toNat s.count.toNat
  · obtain rfl := storePixel_next_of_lt ht hin
    obtain rfl := storePixel_next_of_lt hu hin
    refine ⟨fun k hk => ?_, fun _ => ⟨?_, ?_⟩, fun hout => absurd hin (Nat.not_lt.2 hout)⟩
    · have hfirst := Memory.read_write_other (buf := s.buf) (scalePixel px s.bri) hk.symm
      exact ⟨hfirst, (Memory.read_write_other _ hk.symm).trans hfirst⟩
    · exact Memory.read_write_same _ (Memory.wf_iff.1 hw ▸ hin)
    · exact Memory.read_write_same _ (Memory.wf_iff.1 (Memory.wf_write _ _ hw) ▸ hin)
  · obtain rfl := storePixel_next_of_le ht hout
    obtain rfl := storePixel_next_of_le hu hout
    exact ⟨fun _ _ => ⟨rfl, rfl⟩, fun hin => absurd hin (Nat.not_lt.2 hout), fun _ => ⟨rfl, rfl⟩⟩

/-- Settles O22: a cleared buffer of N pixels is the buffer of a fresh block. -/
theorem clearBlackensEveryPixel : Obligations.ClearBlackensEveryPixel := by
  intro s hw
  change execClear s = _
  rw [execClear, Memory.clear_eq_fresh hw]
  rfl

/-- Settles O23: SET_BRIGHTNESS is that one update and the response. -/
theorem setBrightnessReplacesTheScalar : Obligations.SetBrightnessReplacesTheScalar := fun _ _ => rfl

/-- Settles O25: a buffer command responds 0 and changes at most the buffer and the brightness. -/
theorem bufferCommandsTouchNoWire : Obligations.BufferCommandsTouchNoWire := by
  intro i s hi
  have hanswer : ∃ buf br, exec i s = .next (respond 0 { s with buf := buf, bri := br }) := by
    rcases hi with ⟨index, r, g, b, rfl⟩ | ⟨index, px, rfl⟩ | rfl | ⟨value, rfl⟩
    · obtain ⟨buf, h⟩ := storePixel_answers index ⟨r, g, b⟩ s
      exact ⟨buf, s.bri, h⟩
    · obtain ⟨buf, h⟩ := storePixel_answers index px s
      exact ⟨buf, s.bri, h⟩
    · exact ⟨Memory.clear s.buf, s.bri, rfl⟩
    · exact ⟨s.buf, value, rfl⟩
  obtain ⟨buf, br, h⟩ := hanswer
  exact ⟨_, h, rfl, rfl, rfl, rfl, rfl, rfl, rfl, rfl, rfl, rfl, rfl, rfl, rfl⟩

/-! ## A frame leaves the buffer alone (41_buffer.md R68) -/

theorem BlockStep.buf {φ : Free} {s t : State} (h : BlockStep φ s t) : t.buf = s.buf := by
  cases h with
  | config b level hm hb hl => simp
  | segment b d bit level f s' hm hb hl hp hd =>
    obtain ⟨g, rfl⟩ := SegmentStart.eq hd
    simp
  | last b d v s' hm hb hsv hp hl hd =>
    obtain ⟨g, rfl⟩ := SegmentStart.eq hd
    simp
  | latch hm => simp
  | rest hm => rfl

/-- A buffer that a tick changes was made anew by `rst`. -/
theorem tick_buf {φ : Free} {s t : State} {buf : List Pixel} (h : tick φ s = .next t)
    (hs : s.rst = true ∨ s.buf = buf) : t.rst = true ∨ t.buf = buf := by
  obtain ⟨u, v, -, rfl⟩ | ⟨s₁, e, -, -, -, rfl, hb⟩ := tick_outcome h
  · exact .inl rfl
  · obtain ⟨hr, -⟩ := hb.keeps
    rw [hr, hb.buf, hostEvent_rst, hostEvent_buf]
    exact hs

theorem runTicks_buf {φ : Free} {k : Nat} {s t : State} (h : runTicks φ k s = .next t) (ht : t.rst = false) :
    t.buf = s.buf :=
  (runTicks_induction (P := fun u => u.rst = true ∨ u.buf = s.buf) (fun _ _ _ hu huv => tick_buf huv hu) k s t
    (.inr rfl) h).resolve_left (by simp [ht])

/-- Settles O24: a frame that `rst` does not cut leaves the whole buffer alone, and of the commands without a frame only
the writes and CLEAR store a pixel. -/
theorem pixelsChangeOnlyByWrites : Obligations.PixelsChangeOnlyByWrites := by
  intro i s t j _ h ht
  obtain ⟨-, hframe⟩ | ⟨-, -, hframe⟩ | ⟨-, -, w, f, br, buf, rfl, -, hread⟩ := exec_cases h
  · have hbuf := runTicks_buf (s := { s with mode := .config, begun := true }) hframe ht
    exact .inl (congrArg (Memory.read · j) hbuf)
  · have hbuf := (runTicks_buf hframe ht).trans (startFrame_buf _ s)
    exact .inl (congrArg (Memory.read · j) hbuf)
  · exact hread j

end Sys2Proof.Machine

namespace Sys2Proof.Machine

/-! ## HostIE over a command while the host does not write it (42_transmit.md R81, 70_reset_and_hazards.md R117) -/

/-- HostIE is `v`, or the critical section is open and SAVED_IE holds `v` for its end; and the host will not write it. -/
structure KeepsIE (v : Bool) (s : State) : Prop where
  silent  : ∀ w, FrameEvent.writeHostIE w ∉ s.frameEnv
  inside  : s.mode = .tx → s.savedIE = some v
  outside : s.mode ≠ .tx → s.hostIE = v

/-- A segment before or in the critical section hands HostIE over to SAVED_IE or back. -/
theorem BlockStep.keepsIE {φ : Free} {v : Bool} {s t : State} (hs : KeepsIE v s) (h : BlockStep φ s t) : KeepsIE v t := by
  obtain ⟨hq, hsaved, hie⟩ := hs
  cases h with
  | config b level hm hb hl =>
    have hv := hie (by simp [hm])
    constructor <;> simp [hq, hv]
  | segment b d bit level f s' hm hb hl hp hd =>
    obtain ⟨g, rfl⟩ := SegmentStart.eq hd
    constructor <;> simp [hq, hm, hsaved hm]
  | last b d w s' hm hb hsv hp hl hd =>
    obtain ⟨g, rfl⟩ := SegmentStart.eq hd
    have hw : w = v := Option.some.inj (hsv.symm.trans (hsaved hm))
    constructor <;> simp [hq, hw]
  | latch hm =>
    have hv := hie (by simp [hm])
    constructor <;> simp [hq, hv]
  | rest hm => exact ⟨hq, hsaved, hie⟩

theorem hostEvent_keepsIE {v : Bool} {s : State} {e : FrameEvent} (h : KeepsIE v s) (he : ∀ w, e ≠ .writeHostIE w) :
    KeepsIE v (hostEvent e s) := by
  constructor
  · simpa using h.silent
  · simpa using h.inside
  · simpa [ieAfter_of_no_write s.hostIE he] using h.outside

/-- `rst` restores HostIE from SAVED_IE where the critical section is open, and elsewhere leaves it alone. -/
theorem CutTick.keepsIE {v : Bool} {s u w : State} (h : CutTick s u w) (hs : KeepsIE v s) :
    KeepsIE v { construct w with rst := true } := by
  have hw : w.frameEnv = s.frameEnv.tail ∧ w.hostIE = v := by
    obtain ⟨hm, rfl⟩ | ⟨hm, ie, hie, rfl⟩ := h.restore
    · exact ⟨h.frameEnv, h.hostIE.trans (hs.outside hm)⟩
    · have hv : ie = v := Option.some.inj (hie.symm.trans (hs.inside hm))
      exact ⟨by simp [h.frameEnv], by simp [hv]⟩
  obtain ⟨henv, hv⟩ := hw
  refine ⟨fun x hx => hs.silent x (List.mem_of_mem_tail (henv ▸ hx)), fun hm => ?_, fun _ => hv⟩
  exact absurd hm (construct_mode_ne_tx w)

theorem tick_keepsIE {φ : Free} {v : Bool} {s t : State} (hs : KeepsIE v s) (h : tick φ s = .next t) : KeepsIE v t := by
  obtain ⟨u, w, hc, rfl⟩ | ⟨s₁, e, -, hmem, -, rfl, hb⟩ := tick_outcome h
  · exact hc.keepsIE hs
  · have he (w : Bool) : e ≠ .writeHostIE w := by
      rintro rfl
      exact hmem.elim (hs.silent w) (by simp)
    have htail : KeepsIE v { s with frameEnv := s.frameEnv.tail } :=
      ⟨fun w hw => hs.silent w (List.mem_of_mem_tail hw), hs.inside, hs.outside⟩
    exact hb.keepsIE (hostEvent_keepsIE htail he)

/-- HostIE at the end of a frame, cut or not, is the value that the frame hands over. -/
theorem runTicks_hostIE {φ : Free} {k : Nat} {v : Bool} {s t : State} (hs : KeepsIE v s)
    (h : runTicks φ k s = .next t) (hd : busy t = false) : t.hostIE = v := by
  have ht : KeepsIE v t := runTicks_induction (fun _ _ _ => tick_keepsIE) k s t hs h
  exact ht.outside fun hm => by simp [busy, hm] at hd

/-- Settles O39: every tick keeps `KeepsIE`, `rst` and disturbed segments among them, and a frame ends outside TX. -/
theorem hostIERestoredOnAllPaths : Obligations.HostIERestoredOnAllPaths := by
  intro i s t hq h
  obtain ⟨-, h⟩ | ⟨-, -, h⟩ | ⟨-, -, w, f, br, buf, rfl, -⟩ := exec_cases h
  · have hstart : KeepsIE s.hostIE { s with mode := .config, begun := true } := ⟨hq, by simp, fun _ => rfl⟩
    exact runTicks_hostIE hstart h (beginFrame_finishes h)
  · have hstart : KeepsIE s.hostIE (startFrame Config.free s) := by constructor <;> simp [hq]
    exact runTicks_hostIE hstart h (transmitFrame_finishes h)
  · rfl

/-! ## Decoding an admitted trace (42_transmit.md R75, R87, R88) -/

/-- An admitted trace is an idle LOW and then the segments of the bits. -/
theorem admitsFrame_iff {p : Params} {bits : List Bool} {segs : List Segment} :
    admitsFrame p bits segs = true ↔ ∃ pre rest, segs = ⟨.low, pre⟩ :: rest ∧ admitsBits p bits rest = true := by
  constructor
  · intro ha
    unfold admitsFrame at ha
    split at ha
    · exact ⟨_, _, rfl, ha⟩
    · simp at ha
  · rintro ⟨pre, rest, rfl, ha⟩
    exact ha

/-- One HIGH segment for each bit. -/
theorem risingEdges_of_admitsBits {p : Params} {bits : List Bool} {segs : List Segment}
    (ha : admitsBits p bits segs = true) : risingEdges segs = bits.length := by
  fun_induction admitsBits p bits segs with
  | case1 => rfl
  | case2 bit bit' bits h l rest ih =>
    simp only [Bool.and_eq_true] at ha
    obtain ⟨-, hrest⟩ := ha
    simpa [risingEdges] using ih hrest
  | case3 => simp at ha

/-- Settles O45: bit by bit along the admitted trace; the bits then regroup, whatever made them. -/
theorem admittedTraceDecodesToTheBuffer : Obligations.AdmittedTraceDecodesToTheBuffer := by
  intro p buf segs hd ha
  obtain ⟨pre, rest, rfl, hbits⟩ := admitsFrame_iff.1 ha
  have hedges : risingEdges (⟨.low, pre⟩ :: rest) = risingEdges rest := rfl
  have hdecode : decodeFrame p (⟨.low, pre⟩ :: rest) = decodeFrame p rest := by simp [decodeFrame]
  exact ⟨hdecode.trans (decodeFrame_of_admitsBits hd hbits), regroup_frameBits buf,
    by rw [hedges, risingEdges_of_admitsBits hbits, frameBits_length]⟩

/-! ## TRANSMIT in a dutiful environment (42_transmit.md R71, R72) -/

theorem startFrame_sameConfig (φ : Free) (s : State) : SameConfig s (startFrame φ s) := by
  constructor <;> simp

theorem execTransmit_begun {s : State} (h : s.begun = true) : execTransmit s = transmitFrame Config.free s :=
  if_pos h

/-- Settles O49: the whole frame of a dutiful environment from TRANSMIT's start. -/
theorem transmitSendsTheBuffer : Obligations.TransmitSendsTheBuffer := by
  intro s b hr hb hd hbegun hp
  obtain ⟨t, ht, hdone⟩ := startFrame_runs (φ := Config.free) (frameFuel s) (by unfold frameFuel; omega) hr hb hd
  obtain ⟨t', ht', htrace⟩ := transmitFrame_trace Config.free hr hd
  obtain rfl : t = t' := by injection ht.symm.trans ht'
  have hsame := (startFrame_sameConfig Config.free s).trans hdone.same
  have hadm : admitsFrame s.params (frameBits s.buf)
      (mergeSegments (rawFrame Config.free s.params s.draws (frameBits s.buf))) = true :=
    mergeSegments_rawFrame_admitted _ hp hr.frameBits_ne_nil
  have hlatch : s.params.tresetMin ≤ lowRun t.trace := by simpa using hdone.latch
  have hresp : t.responses = 0 :: s.responses := by simp [hdone.responses]
  have hie : t.hostIE = ieAfter s.hostIE (latchEvent s) := by
    rw [hdone.hostIE, startFrame_segmentsLeft, startFrame_frameEnv, latchEvent]
  have hwrites : t.ieWrites = s.hostIE :: false :: s.ieWrites := by simp [hdone.ieWrites]
  have hlevel : t.lineLvl = if s.lineOE then .low else .undef := by simp [hdone.level]
  have hport : t.port = portLow s.params.portW s.port b.mask := by simp [hdone.port]
  have hfault : t.fault = s.fault := by simp [hdone.fault]
  exact ⟨t, _, (execTransmit_begun hbegun).trans ht, htrace, by rwa [List.reverse_reverse],
    hlatch, hresp, hdone.mode, hie, hdone.saved, hwrites, hlevel, hport, hsame.count, hsame.bind, hsame.buf,
    hsame.bri, hsame.begun, hsame.lineOE, hfault, hsame.rst, hsame.cmd, hsame.inputs, hsame.params⟩

/-! ## The two views of a frame (42_transmit.md R85) -/

/-- A tick that leaves the block busy was not cut by `rst`. -/
theorem tick_busy_rst {φ : Free} {s t : State} (h : tick φ s = .next t) (hb : busy t = true) : t.rst = s.rst := by
  obtain ⟨u, v, -, rfl⟩ | ⟨s₁, e, -, -, -, rfl, hstep⟩ := tick_outcome h
  · rw [constructed_not_busy] at hb
    cases hb
  · obtain ⟨hr, -⟩ := hstep.keeps
    simpa using hr

/-- One more step of the machine, and then k. -/
theorem core_run_succ (k : Nat) (s : State) :
    Host.Core.run Sys2Proof.core (k + 1) s = andThen (step s) (Host.Core.run Sys2Proof.core k) := by
  have hs : Sys2Proof.core.step s = step s := rfl
  cases h : step s <;> simp only [Host.Core.run, hs.trans h] <;> rfl

/-- The ticks of a block that `rst` does not hold are as many single steps, up to the end of its command or a stop. -/
theorem runTicks_eq_core_run (k : Nat) (s : State) (hr : busy s = true → s.rst = false) :
    ∃ j, Host.Core.run Sys2Proof.core j s = runTicks Config.free k s := by
  induction k generalizing s with
  | zero => exact ⟨0, rfl⟩
  | succ k ih =>
    cases hb : busy s with
    | false => exact ⟨0, (runTicks_done hb).symm⟩
    | true =>
      have hstep := step_busy (hr hb) hb
      have hrun : runTicks Config.free (k + 1) s = andThen (tick Config.free s) (runTicks Config.free k) := by
        simp only [runTicks, hb, if_true]
      cases ht : tick Config.free s with
      | next t =>
        obtain ⟨j, hj⟩ := ih t fun hbt => (tick_busy_rst ht hbt).trans (hr hb)
        exact ⟨j + 1, by rw [core_run_succ, hstep, hrun, ht]; exact hj⟩
      | fault x | refused x => exact ⟨1, by rw [core_run_succ, hstep, hrun, ht]; rfl⟩

/-- Settles O54: TRANSMIT runs the ticks of its frame, and each of them is one step. -/
theorem transmitIsItsSegmentsOneByOne : Obligations.TransmitIsItsSegmentsOneByOne := by
  intro s hr hbegun
  obtain ⟨k, hk⟩ := runTicks_eq_core_run (frameFuel s) (startFrame Config.free s) fun _ => by simpa using hr
  exact ⟨k, hk.trans (execTransmit_begun hbegun).symm⟩

/-! ## A disturbed segment (42_transmit.md R90) -/

/-- A source that draws the one number `x`. -/
def Free.const (x : Nat) : Free := ⟨fun _ => x, fun _ => false⟩

/-- A disturbed frame segment of a constructed block has the length of the free number drawn, and the frame goes on. -/
theorem tickTx_disturbed {φ : Free} {s : State} (hr : s.Ready) (hm : s.mode = .tx) (hsaved : s.savedIE ≠ none)
    (hp : s.seqP.toNat < s.count.toNat) :
    ∃ t level, tickTx φ true s = .next t ∧ t.fault = s.fault ∧ (t.mode = .tx ∨ t.mode = .latch) ∧
      t.trace = ⟨level, φ.nat s.draws⟩ :: s.trace := by
  obtain ⟨b, hb⟩ := hr.bound
  obtain ⟨bit, hbit⟩ := currentBit_some hr.buf_wf hp
  cases hph : s.seqPh with
  | hi => exact ⟨_, .high, tickTx_hi hb hbit hph, by simp, by simp [hm], by simp [emitBit, drawIn]⟩
  | lo =>
    by_cases hl : atLastBit s = true
    · obtain ⟨v, hv⟩ := Option.ne_none_iff_exists'.1 hsaved
      exact ⟨_, .low, tickTx_last hb hbit hph hl hv, by simp, by simp, by simp [lastLowMax, drawIn]⟩
    · exact ⟨_, .low, tickTx_lo hb hbit hph hl, by simp, by simp [hm], by simp [emitBit, drawIn]⟩

/-- A tick of TX that an interference or HostIE = 1 disturbs is a disturbed segment with TIMING_VIOLATION recorded. -/
theorem tick_disturbed {φ : Free} {s : State} {event : FrameEvent} {rest : List FrameEvent} (hm : s.mode = .tx)
    (henv : s.frameEnv = event :: rest) (he : event ≠ .rst)
    (hd : event.interferes = true ∨ endsLate { s with frameEnv := rest } = true ∨ ieAfter s.hostIE event = true) :
    tick φ s =
      tickTx φ true (recordFault .timingViolation (hostEvent event { s with frameEnv := rest })) := by
  have hhead : s.frameEnv.headD .quiet = event := by rw [henv]; rfl
  have htail : s.frameEnv.tail = rest := by rw [henv]; rfl
  rw [tick_of_ne_rst (hhead ▸ he), hhead, htail, blockTick_tx (by simpa using hm), hostEvent_hostIE]
  refine if_pos ?_
  simpa [or_assoc] using hd

/-- Settles O35: the segment is the disturbed one, and a source that draws `ns` makes it last `ns`. -/
theorem disturbedSegmentRecordsViolation : Obligations.DisturbedSegmentRecordsViolation := by
  intro φ s event rest hr hm hsaved hp henv he hd
  let u := recordFault .timingViolation (hostEvent event { s with frameEnv := rest })
  have hu : u.Ready := ⟨by simpa [u] using hr.bound, by simpa [u] using hr.buf_wf, by simpa [u] using hr.nonzero⟩
  have hseg (ψ : Free) := tickTx_disturbed (φ := ψ) hu (by simpa [u] using hm) (by simpa [u] using hsaved)
    (by simpa [u] using hp)
  have hviolation : u.fault.getLsbD 5 = true := by simp [u, FaultReason.bit, FaultReason.code]
  have hhidden (t : State) : (faultOut t).getLsbD 5 = false := by
    rw [faultOutputHidesModelOnlyBit]
    rfl
  constructor
  · obtain ⟨t, level, ht, hf, hmode, -⟩ := hseg φ
    exact ⟨t, (tick_disturbed hm henv he hd).trans ht, hf ▸ hviolation, hhidden t, hmode⟩
  · intro ns
    obtain ⟨t, level, ht, -, -, htrace⟩ := hseg (Free.const ns)
    exact ⟨Free.const ns, t, level, (tick_disturbed hm henv he hd).trans ht, by simpa [u, Free.const] using htrace⟩

/-! ## The output write (42_transmit.md R84) -/

/-- Settles O36: bit by bit, on a register of PORT_W bits. -/
theorem outputWriteChangesOneBit : Obligations.OutputWriteChangesOneBit := by
  intro s b k hport hk hmask
  have hlt : b.mask < 2 ^ s.params.portW := hmask ▸ Nat.pow_lt_pow_right (by omega) hk
  refine ⟨portHigh_eq hport hlt, fun j => ?_, fun ho => ⟨by simp [ho], by simp [ho]⟩⟩
  have hlow : (portWrite b .low s).port = portLow s.params.portW s.port b.mask := rfl
  by_cases hj : j = k
  · rw [hlow, portLow_testBit, hmask, hj]
    simp
  · have hother := portSet_testBit_other .low hport (mask := b.mask) (k := j)
      (by rw [hmask, Nat.testBit_two_pow]; simp [Ne.symm hj])
    simpa [hj] using hother

/-! ## The critical section of a dutiful frame (42_transmit.md R78) -/

/-- A tick after the configure step never comes back to it, and never enters TX from outside. -/
theorem tick_mode_after_config {φ : Free} {s t : State} (h : tick φ s = .next t) (hc : s.mode ≠ .config) :
    t.mode ≠ .config ∧ (t.mode = .tx → s.mode = .tx) := by
  obtain ⟨u, v, -, rfl⟩ | ⟨s₁, e, -, -, -, rfl, hb⟩ := tick_outcome h
  · refine ⟨fun hm => ?_, fun hm => absurd hm (construct_mode_ne_tx v)⟩
    rcases construct_mode_cases v with h | h <;> exact absurd (h.symm.trans hm) (by simp)
  · cases hb with
    | config b level hm => exact absurd ((hostEvent_mode e _).symm.trans hm) hc
    | segment b d bit level f s' hm hb hl hp hd =>
      obtain ⟨g, rfl⟩ := SegmentStart.eq hd
      have hm : s.mode = .tx := by simpa using hm
      simp [hm]
    | last | latch => simp
    | rest hm =>
      have hm : s.mode = .idle ∨ s.mode = .halt := by simpa using hm
      rcases hm with hm | hm <;> simp [hm]

/-- As long as a frame is in TX, its environment has broken no duty, taken no interrupt and caused no fault since its
start, where `n` were taken and FAULT was `f`. -/
structure Masked (v : Bool) (n : Nat) (f : BitVec 8) (s : State) : Prop where
  started : s.mode ≠ .config
  masked  : s.mode = .tx → InTx v s ∧ s.hostTaken = n ∧ s.fault = f

theorem tick_masked {φ : Free} {v : Bool} {n : Nat} {f : BitVec 8} {s t : State} (hs : Masked v n f s)
    (h : tick φ s = .next t) : Masked v n f t := by
  obtain ⟨hc, htx⟩ := tick_mode_after_config h hs.started
  refine ⟨hc, fun hm => ?_⟩
  obtain ⟨hin, hn, hf⟩ := hs.masked (htx hm)
  obtain ⟨hin', hn', hf', -⟩ := hin.next h hm
  exact ⟨hin', hn'.trans hn, hf'.trans hf⟩

/-- Settles O38: the frame's start masks the host, and every tick of a dutiful frame keeps it so up to the restore. -/
theorem criticalSectionMasksTheHost : Obligations.CriticalSectionMasksTheHost := by
  intro φ s t k
  refine ⟨by simp, by simp, by simp, ⟨_, _, startFrame_trace φ s⟩, fun hn hd h hm => ?_⟩
  have hstart : Masked s.hostIE s.hostTaken s.fault (startFrame φ s) :=
    ⟨by simp, fun _ => ⟨startFrame_inTx hn hd, by simp, by simp⟩⟩
  have hend := runTicks_induction (fun _ _ _ => tick_masked) k _ t hstart h
  obtain ⟨hin, htaken, hfault⟩ := hend.masked hm
  exact ⟨hin.masked, hin.saved, htaken, hfault⟩

/-! ## The bit stream and the HIGH bands (42_transmit.md R73, R87) -/

/-- Bit `b` of slot `k` of pixel `i`: the slots G, R, B one after the other, each from bit 7 down. -/
theorem frameBits_channel {buf : List Pixel} {i b : Nat} {px : Pixel} (k : Slot) (h : buf[i]? = some px) (hb : b < 8) :
    (frameBits buf)[24 * i + (8 * k.num + (7 - b))]? = some ((channel px k).getLsbD b) := by
  have hk := k.num_lt
  have hbit := pixelBits_getElem? px k (BitVec.ofNat 3 b)
  rw [BitVec.toNat_ofNat, Nat.mod_eq_of_lt hb] at hbit
  rw [frameBits_getElem? (by omega), h]
  exact hbit

theorem frameBits_ne_nil {buf : List Pixel} (h : buf ≠ []) : frameBits buf ≠ [] := by
  have hpos := List.length_pos_of_ne_nil h
  have hlen := frameBits_length buf
  intro hnil
  rw [hnil, List.length_nil] at hlen
  omega

/-- Settles O42: the three slots of a pixel. -/
theorem frameBitsAreInWireOrder : Obligations.FrameBitsAreInWireOrder := by
  intro buf
  refine ⟨frameBits_length buf, fun i px b h hb => ⟨?_, ?_, ?_⟩⟩
  · simpa [Slot.num, channel] using frameBits_channel .g h hb
  · simpa [Slot.num, channel, Nat.add_assoc] using frameBits_channel .r h hb
  · simpa [Slot.num, channel, Nat.add_assoc] using frameBits_channel .b h hb

/-- Settles O44: where the bands meet, they meet at the upper edge of the lower one. -/
theorem highBandsDisjointExactlyWhenDecodable : Obligations.HighBandsDisjointExactlyWhenDecodable := by
  intro p hle
  simp only [decodable_iff, inBand_iff]
  constructor
  · rintro hd h ⟨⟨h1, -⟩, -, h0⟩
    omega
  · intro hdisjoint
    have hedge := hdisjoint (p.t0h + p.tol)
    omega

/-! ## How long an admitted trace lasts (42_transmit.md R83, R89) -/

/-- The timing figures of 00_scope.md R6. -/
structure DefaultTiming (p : Params) : Prop where
  t1h : p.t1h = 800
  t1l : p.t1l = 450
  t0h : p.t0h = 400
  t0l : p.t0l = 850
  tol : p.tol = 150

section
variable {p : Params} (hp : DefaultTiming p) {bit : Bool} {h : Nat} (hh : inBand p (highNs p bit) h = true)
include hp hh

theorem DefaultTiming.high_bounds : 250 ≤ h ∧ h ≤ 950 := by
  obtain ⟨h1, -, h0, -, htol⟩ := hp
  rw [inBand_iff, htol] at hh
  cases bit with
  | true => rw [highNs, if_pos rfl, h1] at hh; omega
  | false => rw [highNs, if_neg (by simp), h0] at hh; omega

/-- A bit's HIGH and LOW are short and long or long and short, so that together they last about the same. -/
theorem DefaultTiming.bit_bounds {l : Nat} (hl : inBand p (lowNs p bit) l = true) : 950 ≤ h + l ∧ h + l ≤ 1550 := by
  obtain ⟨h1, l1, h0, l0, htol⟩ := hp
  rw [inBand_iff, htol] at hh hl
  cases bit with
  | true => rw [highNs, if_pos rfl, h1] at hh; rw [lowNs, if_pos rfl, l1] at hl; omega
  | false => rw [highNs, if_neg (by simp), h0] at hh; rw [lowNs, if_neg (by simp), l0] at hl; omega

end

@[simp] theorem totalNs_cons (s : Segment) (segs : List Segment) : totalNs (s :: segs) = s.ns + totalNs segs := by
  simp [totalNs]

@[simp] theorem totalNs_append (xs ys : List Segment) : totalNs (xs ++ ys) = totalNs xs + totalNs ys := by
  simp [totalNs]

/-- Under the default timing the segments of a bit stream are a span of bounded length and then the latch. -/
theorem DefaultTiming.span_bounds {p : Params} (hp : DefaultTiming p) {bits : List Bool} {segs : List Segment}
    (ha : admitsBits p bits segs = true) :
    ∃ span last, segs = span ++ [last] ∧ inLatch p last.ns = true ∧
      (bits.length - 1) * 950 + 250 ≤ totalNs span ∧ totalNs span ≤ (bits.length - 1) * 1550 + 950 := by
  fun_induction admitsBits p bits segs with
  | case1 bit h l =>
    simp only [Bool.and_eq_true] at ha
    obtain ⟨hh, hl⟩ := ha
    obtain ⟨hlo, hhi⟩ := hp.high_bounds hh
    exact ⟨[⟨.high, h⟩], ⟨.low, l⟩, rfl, hl, by simpa [totalNs] using hlo, by simpa [totalNs] using hhi⟩
  | case2 bit bit' bits h l rest ih =>
    simp only [Bool.and_eq_true] at ha
    obtain ⟨⟨hh, hl⟩, hrest⟩ := ha
    obtain ⟨hlo, hhi⟩ := hp.bit_bounds hh hl
    obtain ⟨span, last, rfl, hlatch, hmin, hmax⟩ := ih hrest
    simp only [List.length_cons, Nat.add_sub_cancel] at hmin hmax
    have hns : totalNs (⟨.high, h⟩ :: ⟨.low, l⟩ :: span) = h + (l + totalNs span) := by simp
    have hlen : (bit :: bit' :: bits).length - 1 = bits.length + 1 := by simp
    refine ⟨⟨.high, h⟩ :: ⟨.low, l⟩ :: span, last, rfl, hlatch, ?_, ?_⟩
    · rw [hns, hlen]
      linarith
    · rw [hns, hlen]
      linarith
  | case3 => simp at ha

/-- Settles O46: a trace splits in one way into idle LOW, span and latch. -/
theorem criticalSpanIsBounded : Obligations.CriticalSpanIsBounded := by
  intro p buf pre last span h1 h2 h3 h4 h5 ha
  obtain ⟨_, rest, hsegs, hbits⟩ := admitsFrame_iff.1 ha
  obtain ⟨span', last', rfl, -, hmin, hmax⟩ := DefaultTiming.span_bounds ⟨h1, h2, h3, h4, h5⟩ hbits
  obtain ⟨-, htail⟩ := List.cons.inj hsegs
  obtain ⟨rfl, -⟩ := List.append_inj' htail rfl
  rw [frameBits_length] at hmin hmax
  exact ⟨hmin, hmax⟩

/-- The idle LOW alone is as long as the number drawn. -/
theorem le_totalNs_rawFrame (p : Params) (x d : Nat) (bits : List Bool) :
    x ≤ totalNs (rawFrame (Free.const x) p d bits) := by
  simp [rawFrame, Free.const]

/-- Settles O47: the idle LOW has any length, the span its lower bound, and the latch TRESET_MIN_NS. -/
theorem frameDurationIsBoundedBelow : Obligations.FrameDurationIsBoundedBelow := by
  intro p buf h1 h2 h3 h4 h5 hmax hbuf
  constructor
  · intro segs ha
    obtain ⟨pre, rest, rfl, hbits⟩ := admitsFrame_iff.1 ha
    obtain ⟨span, last, rfl, hlatch, hmin, -⟩ := DefaultTiming.span_bounds ⟨h1, h2, h3, h4, h5⟩ hbits
    obtain ⟨hreset, -⟩ := inLatch_iff.1 hlatch
    rw [frameBits_length] at hmin
    have hlast : totalNs [last] = last.ns := by simp [totalNs]
    rw [totalNs_cons, totalNs_append, hlast]
    linarith only [hmin, hreset, Nat.zero_le pre]
  · intro bound
    have hlatch : latchPossible p = true := by simp [latchPossible, hmax]
    refine ⟨_, mergeSegments_rawFrame_admitted (φ := Free.const bound) 0 hlatch (frameBits_ne_nil hbuf), ?_⟩
    rw [mergeSegments_totalNs]
    exact le_totalNs_rawFrame p bound 0 _

/-! ## The cycle-level frame (42_transmit.md R80, R85) -/

theorem inBand_of_between {p : Params} {f lo d hi : Nat} (hlo : inBand p f lo = true) (hhi : inBand p f hi = true)
    (h : lo ≤ d) (h' : d ≤ hi) : inBand p f d = true := by
  rw [inBand_iff] at *
  omega

/-- The calibration constraint, said of the segment that either bit asks for. -/
structure Calibrated (p : Params) (overhead : Nat) : Prop where
  high  : ∀ bit, calibratedSegment (inCycleUnits p) overhead (highCycles p bit) (highNs (inCycleUnits p) bit) = true
  low   : ∀ bit, calibratedSegment (inCycleUnits p) overhead (lowCycles p bit) (lowNs (inCycleUnits p) bit) = true
  reset : (inCycleUnits p).tresetMin ≤ cyclesTime p.crst

theorem Calibrated.of_calibrated {p : Params} {overhead : Nat} (h : calibrated p overhead = true) : Calibrated p overhead := by
  simp only [calibrated, Bool.and_eq_true, decide_eq_true_iff] at h
  obtain ⟨⟨⟨⟨⟨-, h1h⟩, h1l⟩, h0h⟩, h0l⟩, hreset⟩ := h
  exact ⟨Bool.forall_bool.2 ⟨h0h, h1h⟩, Bool.forall_bool.2 ⟨h0l, h1l⟩, hreset⟩

/-- A calibrated segment is in its band whatever latency and overhead add to it. -/
theorem inBand_of_calibratedSegment {q : Params} {overhead c f x : Nat}
    (h : calibratedSegment q overhead c f = true) (hx : x ≤ q.lWrite + overhead) :
    inBand q f (cyclesTime c + x) = true := by
  rw [calibratedSegment, Bool.and_eq_true] at h
  exact inBand_of_between h.1 h.2 (by omega) (by omega)

/-- The last LOW at cycle level is at least the latch of CRST cycles, and the hold is within TRESET_MAX_NS. -/
theorem inLatch_of_holdFits {p : Params} {overhead hold x : Nat} (bit : Bool) (hc : Calibrated p overhead)
    (hx : x ≤ p.lWrite * p.clkHz + overhead) (hfits : holdFits p overhead hold) :
    inLatch (inCycleUnits p) (cyclesTime (lowCycles p bit) + x + cyclesTime p.crst + hold) = true := by
  have hreset := hc.reset
  refine inLatch_iff.2 ⟨by omega, fun m hm => ?_⟩
  obtain ⟨m', hm', rfl⟩ := Option.map_eq_some_iff.1 hm
  have hmax := hfits m' hm' bit
  omega

/-- The bits of a calibrated build at cycle level are segments that R75 admits for them. -/
theorem cycleBits_admitted {p : Params} {overhead hold : Nat} {extra : Nat → Nat} (hc : Calibrated p overhead)
    (hx : ∀ k, extra k ≤ p.lWrite * p.clkHz + overhead) (hfits : holdFits p overhead hold) (k : Nat) {bits : List Bool}
    (hb : bits ≠ []) : admitsBits (inCycleUnits p) bits (cycleBits p extra hold k bits) = true := by
  fun_induction cycleBits p extra hold k bits with
  | case1 => exact absurd rfl hb
  | case2 k bit =>
    rw [admitsBits, Bool.and_eq_true]
    exact ⟨inBand_of_calibratedSegment (hc.high bit) (hx k), inLatch_of_holdFits bit hc (hx (k + 1)) hfits⟩
  | case3 k bit bit' bits ih =>
    rw [admitsBits, Bool.and_eq_true, Bool.and_eq_true]
    exact ⟨⟨inBand_of_calibratedSegment (hc.high bit) (hx k), inBand_of_calibratedSegment (hc.low bit) (hx (k + 1))⟩,
      ih (by simp)⟩

/-! ### A reading in whole ns -/

@[simp] theorem highNs_inCycleUnits (p : Params) (bit : Bool) : highNs (inCycleUnits p) bit = highNs p bit * p.clkHz := by
  cases bit <;> rfl

@[simp] theorem lowNs_inCycleUnits (p : Params) (bit : Bool) : lowNs (inCycleUnits p) bit = lowNs p bit * p.clkHz := by
  cases bit <;> rfl

/-- `whole` ns read an exact duration of `d` units of 1 / CLK_HZ ns: they are less than one ns apart. -/
def ReadsNs (clkHz d whole : Nat) : Prop := whole * clkHz < d + clkHz ∧ d < (whole + 1) * clkHz

/-- A bound in whole ns that the exact duration keeps is kept by its reading too. -/
theorem ReadsNs.le_of_le {clkHz d whole m : Nat} (h : ReadsNs clkHz d whole) (hm : d ≤ m * clkHz) :
    whole ≤ m := by
  have hlt : whole * clkHz < (m + 1) * clkHz := by
    rw [Nat.succ_mul]
    exact h.1.trans_le (by omega)
  exact Nat.lt_succ_iff.1 (Nat.lt_of_mul_lt_mul_right hlt)

theorem ReadsNs.ge_of_ge {clkHz d whole m : Nat} (h : ReadsNs clkHz d whole) (hm : m * clkHz ≤ d) :
    m ≤ whole :=
  Nat.lt_succ_iff.1 (Nat.lt_of_mul_lt_mul_right (hm.trans_lt h.2))

theorem inBand_of_readsNs {p : Params} {f d whole : Nat} (h : ReadsNs p.clkHz d whole)
    (hb : inBand (inCycleUnits p) (f * p.clkHz) d = true) : inBand p f whole = true := by
  rw [inBand_iff] at hb ⊢
  have htol : (inCycleUnits p).tol = p.tol * p.clkHz := rfl
  rw [htol, ← Nat.sub_mul, ← Nat.add_mul] at hb
  obtain ⟨hlo, hhi⟩ := hb
  exact ⟨h.ge_of_ge hlo, h.le_of_le hhi⟩

theorem inLatch_of_readsNs {p : Params} {d whole : Nat} (h : ReadsNs p.clkHz d whole)
    (hl : inLatch (inCycleUnits p) d = true) : inLatch p whole = true := by
  rw [inLatch_iff] at hl ⊢
  obtain ⟨hmin, hmax⟩ := hl
  refine ⟨h.ge_of_ge hmin, fun m hm => h.le_of_le (hmax _ ?_)⟩
  simp [inCycleUnits, hm]

/-- A reading of a trace that begins with a segment begins with a reading of that segment. -/
theorem readsInNs_cons {p : Params} {level : Level} {ns : Nat} {rest segs : List Segment}
    (h : readsInNs p (⟨level, ns⟩ :: rest) segs = true) :
    ∃ whole rest', segs = ⟨level, whole⟩ :: rest' ∧ ReadsNs p.clkHz ns whole ∧ readsInNs p rest rest' = true := by
  cases segs with
  | nil => simp [readsInNs] at h
  | cons s rest' =>
    simp only [readsInNs, Bool.and_eq_true, beq_iff_eq, decide_eq_true_iff] at h
    obtain ⟨⟨⟨rfl, hlt⟩, hgt⟩, hrest⟩ := h
    exact ⟨s.ns, rest', rfl, ⟨hlt, hgt⟩, hrest⟩

theorem readsInNs_nil {p : Params} {segs : List Segment} (h : readsInNs p [] segs = true) : segs = [] := by
  cases segs with
  | nil => rfl
  | cons => simp [readsInNs] at h

/-- Every reading in whole ns of segments that R75 admits exactly is admitted too: the bounds are whole ns. -/
theorem admitsBits_of_readsInNs {p : Params} {bits : List Bool} {cycles segs : List Segment}
    (ha : admitsBits (inCycleUnits p) bits cycles = true) (hr : readsInNs p cycles segs = true) :
    admitsBits p bits segs = true := by
  fun_induction admitsBits (inCycleUnits p) bits cycles generalizing segs with
  | case1 bit h l =>
    rw [Bool.and_eq_true, highNs_inCycleUnits] at ha
    obtain ⟨hh, hl⟩ := ha
    obtain ⟨h', _, rfl, hread, hr⟩ := readsInNs_cons hr
    obtain ⟨l', _, rfl, hread', hr⟩ := readsInNs_cons hr
    obtain rfl := readsInNs_nil hr
    rw [admitsBits, Bool.and_eq_true]
    exact ⟨inBand_of_readsNs hread hh, inLatch_of_readsNs hread' hl⟩
  | case2 bit bit' bits h l rest ih =>
    rw [Bool.and_eq_true, Bool.and_eq_true, highNs_inCycleUnits, lowNs_inCycleUnits] at ha
    obtain ⟨⟨hh, hl⟩, hrest⟩ := ha
    obtain ⟨h', _, rfl, hread, hr⟩ := readsInNs_cons hr
    obtain ⟨l', _, rfl, hread', hr⟩ := readsInNs_cons hr
    rw [admitsBits, Bool.and_eq_true, Bool.and_eq_true]
    exact ⟨⟨inBand_of_readsNs hread hh, inBand_of_readsNs hread' hl⟩, ih hrest hr⟩
  | case3 => simp at ha

theorem admitsFrame_of_readsInNs {p : Params} {bits : List Bool} {cycles segs : List Segment}
    (ha : admitsFrame (inCycleUnits p) bits cycles = true) (hr : readsInNs p cycles segs = true) :
    admitsFrame p bits segs = true := by
  obtain ⟨pre, rest, rfl, hbits⟩ := admitsFrame_iff.1 ha
  obtain ⟨pre', rest', rfl, -, hr⟩ := readsInNs_cons hr
  exact admitsFrame_iff.2 ⟨pre', rest', rfl, admitsBits_of_readsInNs hbits hr⟩

/-- Settles O48: the cycle-level frame is admitted bit by bit, and an admitted exact trace only has admitted readings. -/
theorem calibratedCycleFrameIsAdmitted : Obligations.CalibratedCycleFrameIsAdmitted := by
  intro p overhead hold pre extra buf hbuf hc hx hfits
  have hbits := cycleBits_admitted (.of_calibrated hc) hx hfits 0 (frameBits_ne_nil hbuf)
  have hadm : admitsFrame (inCycleUnits p) (frameBits buf) (cycleFrame p extra hold pre buf) = true :=
    admitsFrame_iff.2 ⟨pre, _, rfl, hbits⟩
  exact ⟨hadm, fun segs hr => admitsFrame_of_readsInNs hadm hr⟩

end Sys2Proof.Machine

namespace Sys2Proof.Machine

/-! ## The read accessors (43_readback.md R91-R93, R100) -/

theorem packCount_eq (n : Index) : packCount n = BitVec.ofNat 64 n.toNat := (BitVec.ofNat_toNat 64 n).symm

/-- The three channels of a response word do not overlap (30_encoding.md R56), so their concatenation is a sum. -/
theorem packPixel_eq (px : Pixel) :
    packPixel px = BitVec.ofNat 64 (65536 * px.r.toNat + 256 * px.g.toNat + px.b.toNat) := by
  have hr := px.r.isLt
  have hg := px.g.isLt
  have hb := px.b.isLt
  have happend : (packPixel px).toNat = (px.r.toNat <<< 8 ||| px.g.toNat) <<< 8 ||| px.b.toNat := by
    rw [packPixel, BitVec.toNat_append, BitVec.toNat_append, BitVec.toNat_append]
    simp
  apply BitVec.eq_of_toNat_eq
  rw [happend, ← Nat.shiftLeft_add_eq_or_of_lt hg, ← Nat.shiftLeft_add_eq_or_of_lt hb, BitVec.toNat_ofNat]
  omega

theorem execGetPixel_of_le {s : State} {index : Index} (hraw : s.params.hasRawRead = true)
    (h : s.count.toNat ≤ index.toNat) : execGetPixel index s = raiseFault .readOutOfRange s := by
  simp [execGetPixel, inRange, hraw, Nat.not_lt.2 h]

/-- A response that raises no fault, written as one that sets no bit of FAULT. -/
theorem respond_eq_or_zero (w : Word) (s : State) :
    respond w s = { s with responses := w :: s.responses, fault := s.fault ||| 0 } := by
  have hfault : s.fault ||| 0 = s.fault := BitVec.or_zero
  rw [hfault]
  rfl

/-- Settles O26: GET_COUNT is that one response, and its word is N. -/
theorem getCountAnswersN : Obligations.GetCountAnswersN := fun s => by
  rw [← packCount_eq]
  rfl

/-- Settles O27: GET_PIXEL responds with the packed pixel, and packing is that sum. -/
theorem getPixelAnswersTheStoredPixel : Obligations.GetPixelAnswersTheStoredPixel := by
  intro s index px hraw hin hpx
  rw [← packPixel_eq]
  exact execGetPixel_of_read hraw hin hpx

/-- Settles O29: the answer of a read is a function of the buffer, N and the parameters alone, so what holds of every state
that agrees on these holds of the state itself. -/
theorem readsHaveNoSideEffect : Obligations.ReadsHaveNoSideEffect := by
  intro i s hw hraw hi
  suffices hread : ∃ w f,
      (∀ u : State, u.buf = s.buf → u.count = s.count → u.params = s.params →
        exec i u = .next { u with responses := w :: u.responses, fault := u.fault ||| f }) ∧
      (f = 0 ∨ (w = 0 ∧ f = 0x10#8 ∧ ∃ index, i = .getPixel index ∧ s.count.toNat ≤ index.toNat)) by
    obtain ⟨w, f, hanswer, hfault⟩ := hread
    exact ⟨w, f, hanswer s rfl rfl rfl, hanswer, hfault⟩
  rcases hi with rfl | ⟨index, rfl⟩
  · refine ⟨packCount s.count, 0, fun u _ hcount _ => ?_, .inl rfl⟩
    rw [← respond_eq_or_zero, ← hcount]
    rfl
  · obtain hin | hout := Nat.lt_or_ge index.toNat s.count.toNat
    · obtain ⟨px, hpx⟩ := Memory.read_of_wf hw hin
      refine ⟨packPixel px, 0, fun u hbuf hcount hparams => ?_, .inl rfl⟩
      rw [← respond_eq_or_zero]
      exact execGetPixel_of_read (hparams ▸ hraw) (hcount ▸ hin) (hbuf ▸ hpx)
    · exact ⟨0, 0x10#8, fun u _ hcount hparams => execGetPixel_of_le (hparams ▸ hraw) (hcount ▸ hout),
        .inr ⟨rfl, rfl, index, rfl, hout⟩⟩

end Sys2Proof.Machine

namespace Sys2Proof.Machine

/-! ## Every command completes (60_exceptions.md R115) -/

/-- A command that has ended on the ground of `tick_sound` left the block ready, or in reset. -/
theorem Sound.idle_or_rst {s : State} (hs : Sound s) (hb : busy s = false) : s.mode = .idle ∨ s.rst = true := by
  cases hm : s.mode with
  | idle => exact .inl rfl
  | halt => exact .inr (hs.halt hm)
  | config | tx | latch => simp [busy, hm] at hb

theorem runTicks_idle_or_rst {φ : Free} {k : Nat} {s t : State} (hs : Sound s) (h : runTicks φ k s = .next t)
    (hd : busy t = false) : t.mode = .idle ∨ t.rst = true := by
  obtain ⟨u, hu, hsound⟩ := runTicks_sound (φ := φ) k s hs
  obtain rfl : t = u := by simpa [h] using hu
  exact hsound.idle_or_rst hd

/-- BEGIN's configure step starts on that ground. -/
theorem configure_sound {s : State} (hr : s.Ready) : Sound { s with mode := .config, begun := true } := by
  have hc : State.Ready { s with mode := .config, begun := true } := ⟨hr.bound, hr.buf_wf, hr.nonzero⟩
  exact hc.sound (by simp) (by simp) (by simp)

/-- Settles O53: a command answers, and its frame, long enough to end, ends on sound ground; a command without a frame
stays idle. -/
theorem everyCommandCompletes : Obligations.EveryCommandCompletes := by
  intro i s hr hm
  obtain ⟨t, ht⟩ := exec_answers i hr
  refine ⟨t, ht, ?_⟩
  obtain ⟨-, h⟩ | ⟨-, -, h⟩ | ⟨-, -, _, _, _, _, rfl, -⟩ := exec_cases ht
  · exact runTicks_idle_or_rst (configure_sound hr) h (beginFrame_finishes h)
  · exact runTicks_idle_or_rst (startFrame_sound hr) h (transmitFrame_finishes h)
  · exact .inl hm

/-! ## The FAULT bits of a reason and of construction (60_exceptions.md R95-R97) -/

theorem FaultReason.getLsbD_bit (reason : FaultReason) (k : Nat) :
    reason.bit.getLsbD k = decide (k = reason.code) := by
  have hlt : reason.code < 8 := by cases reason <;> decide
  rw [FaultReason.bit, ← BitVec.twoPow_eq, BitVec.getLsbD_twoPow]
  simp [hlt, eq_comm]

theorem constructionFaults_getLsbD (p : Params) (k : Nat) :
    (constructionFaults p).getLsbD k =
      (decide (p.n = 0#16 ∧ k = FaultReason.configCountZero.code) ||
        decide (resolvePin p = none ∧ k = FaultReason.configPinUnresolved.code)) := by
  rw [constructionFaults, BitVec.getLsbD_or]
  split <;> split <;> simp [FaultReason.getLsbD_bit, *]

theorem construct_mode_halt_iff (s : State) :
    (construct s).mode = .halt ↔ s.params.n = 0#16 ∨ resolvePin s.params = none := by
  rw [← not_iff_not, not_or, ← constructionFaults_eq_zero, construct_mode]
  split <;> simp [*]

/-- Settles O3: FAULT holds the failed checks' bits and no other, and a block that construction halts refuses the launch
as every halted block does. -/
theorem constructionChecksBothFaults : Obligations.ConstructionChecksBothFaults := by
  intro s
  have hbit := constructionFaults_getLsbD s.params
  refine ⟨?_, ?_, fun k hk => ?_, construct_mode_halt_iff s, fun hm => ⟨rfl, by simp only [cmdReady, hm]; rfl⟩,
    fun hm hr hin => (haltedBlockOnlyHonoursRst (construct s) hr hm).1 hin⟩
  · exact (hbit 0).trans (by simp [FaultReason.code])
  · exact (hbit 1).trans (by simp [FaultReason.code])
  · have h0 : k ≠ 0 := by omega
    have h1 : k ≠ 1 := by omega
    exact (hbit k).trans (by simp [FaultReason.code, h0, h1])

/-- Settles O31: the reason's bit is the only one that the record sets. -/
theorem raiseSetsOneBitAndResponds : Obligations.RaiseSetsOneBitAndResponds := by
  intro reason s
  refine ⟨s.fault ||| reason.bit, rfl, ?_, fun k hk => ?_⟩
  · rw [BitVec.getLsbD_or, FaultReason.getLsbD_bit, decide_eq_true rfl, Bool.or_true]
  · rw [BitVec.getLsbD_or, FaultReason.getLsbD_bit, decide_eq_false hk, Bool.or_false]

/-! ## The port register over a command (20_memory.md R31, 42_transmit.md R84) -/

/-- `port` is the port register of `s`, or that register after one output write through the binding of `s`. -/
def WrittenThroughBinding (s : State) (port : Nat) : Prop :=
  port = s.port ∨ ∃ b level, s.bind = some b ∧ port = portSet s.params.portW s.port b.mask level

theorem BlockStep.port {φ : Free} {s t : State} (h : BlockStep φ s t) :
    t.bind = s.bind ∧ WrittenThroughBinding s t.port := by
  cases h with
  | config b level hm hb hl => exact ⟨by simp, .inr ⟨b, .low, hb, by simp⟩⟩
  | segment b d bit level f s' hm hb hl hp hd =>
    obtain ⟨g, rfl⟩ := SegmentStart.eq hd
    exact ⟨by simp, .inr ⟨b, level, hb, by simp⟩⟩
  | last b d v s' hm hb hsv hp hl hd =>
    obtain ⟨g, rfl⟩ := SegmentStart.eq hd
    exact ⟨by simp, .inr ⟨b, .low, hb, by simp⟩⟩
  | latch hm => exact ⟨rfl, .inl rfl⟩
  | rest hm => exact ⟨rfl, .inl rfl⟩

theorem CutTick.port_written {s u v : State} (h : CutTick s u v) : WrittenThroughBinding s v.port := by
  have hv : v.port = u.port := by
    obtain ⟨-, rfl⟩ | ⟨-, _, -, rfl⟩ := h.restore
    · rfl
    · exact blockWritesIE_port _ u
  rw [hv]
  exact h.port.imp_right fun ⟨b, level, hb, _, hp⟩ => ⟨b, level, hb, hp⟩

/-- A tick writes the port register through the block's binding alone, and a block that it leaves busy keeps that
binding. -/
theorem tick_port {φ : Free} {s t : State} (h : tick φ s = .next t) :
    (busy t = true → t.bind = s.bind) ∧ WrittenThroughBinding s t.port := by
  obtain ⟨u, v, hc, rfl⟩ | ⟨s₁, e, -, -, -, rfl, hb⟩ := tick_outcome h
  · exact ⟨fun hbusy => absurd hbusy (by rw [constructed_not_busy]; simp), hc.port_written⟩
  · obtain ⟨hbind, hport⟩ := hb.port
    exact ⟨fun _ => hbind.trans (hostEvent_bind e _), by simpa [WrittenThroughBinding] using hport⟩

/-- Bit `j`, outside the mask of the binding through which a busy block writes, is `x`. -/
structure KeepsPortBit (j : Nat) (x : Bool) (s : State) : Prop where
  bit  : s.port.testBit j = x
  lt   : s.port < 2 ^ s.params.portW
  mask : busy s = true → ∀ b, s.bind = some b → b.mask.testBit j = false

theorem tick_keepsPortBit {φ : Free} {j : Nat} {x : Bool} {s t : State} (hb : busy s = true) (hs : KeepsPortBit j x s)
    (h : tick φ s = .next t) : KeepsPortBit j x t := by
  obtain ⟨-, -, hparams⟩ := tick_keeps h
  obtain ⟨hbind, hport⟩ := tick_port h
  have hmask : busy t = true → ∀ b, t.bind = some b → b.mask.testBit j = false := fun ht =>
    hbind ht ▸ hs.mask hb
  obtain hp | ⟨b, level, hsb, hp⟩ := hport
  · exact ⟨hp ▸ hs.bit, hparams ▸ hp ▸ hs.lt, hmask⟩
  · refine ⟨?_, hparams ▸ hp ▸ portSet_lt _ _ hs.lt, hmask⟩
    rw [hp, portSet_testBit_other level hs.lt (hs.mask hb b hsb), hs.bit]

theorem runTicks_portBit {φ : Free} {j k : Nat} {x : Bool} {s t : State} (hs : KeepsPortBit j x s)
    (h : runTicks φ k s = .next t) : t.port.testBit j = x :=
  (runTicks_induction (fun _ _ => tick_keepsPortBit) k s t hs h).bit

/-- Settles O37: every tick of a frame writes through the binding of the accepted command, and a command without a frame
writes no port bit. -/
theorem noCommandWritesAnotherPortBit : Obligations.NoCommandWritesAnotherPortBit := by
  intro i s t b j hb hlt h hj
  have hmask : ∀ b', s.bind = some b' → b'.mask.testBit j = false := fun b' hb' =>
    Option.some.inj (hb.symm.trans hb') ▸ hj
  obtain ⟨-, h⟩ | ⟨-, -, h⟩ | ⟨-, -, _, _, _, _, rfl, -⟩ := exec_cases h
  · exact runTicks_portBit (s := { s with mode := .config, begun := true }) ⟨rfl, hlt, fun _ => hmask⟩ h
  · exact runTicks_portBit (s := startFrame Config.free s) ⟨by simp, by simpa using hlt, fun _ => by simpa using hmask⟩ h
  · rfl

/-! ## Who writes HostIE, and what becomes of a masked request (60_exceptions.md R107) -/

/-- Settles O40: the commands without a frame write no HostIE. -/
theorem onlyFramesWriteHostIE : Obligations.OnlyFramesWriteHostIE := by
  intro i s t h hw
  obtain ⟨hi, -⟩ | ⟨hi, hbegun, -⟩ | ⟨-, -, _, _, _, _, rfl, -⟩ := exec_cases h
  · exact .inl hi
  · exact .inr ⟨hi, hbegun⟩
  · exact absurd rfl hw

theorem hostRequests_lose {s : State} (hie : s.hostIE = false) (hp : s.params.pending = .lose) : hostRequests s = s := by
  simp [hostRequests, hie, hp]

theorem hostRequests_keep {s : State} (hie : s.hostIE = false) (hp : s.params.pending = .keep) :
    hostRequests s = { s with hostPending := true } := by
  simp [hostRequests, hie, hp]

/-- Setting HostIE takes the pending request. -/
theorem blockWritesIE_takes {s : State} (hp : s.hostPending = true) :
    blockWritesIE true s =
      { s with hostIE := true, ieWrites := true :: s.ieWrites, hostPending := false, hostTaken := s.hostTaken + 1 } := by
  simp [blockWritesIE, hostTakesPending, hp]

/-- Settles O41: a kept request sets the pending bit, which the restoration of HostIE = 1 takes. -/
theorem maskedRequestIsKeptOrLost : Obligations.MaskedRequestIsKeptOrLost := by
  intro s hie
  refine ⟨hostRequests_lose hie, fun hp => ?_⟩
  rw [hostRequests_keep hie hp, blockWritesIE_takes rfl]
  exact ⟨rfl, rfl, rfl, rfl⟩

/-! ## Single steps and commands with a fault or without an effect -/

/-- An idle block raises ILLEGAL_COMMAND for an accepted word that does not decode, after the event at its acceptance. -/
theorem step_raises_illegalCommand {s : State} {w : Word} {e : Illegal} (hr : s.rst = false) (hm : s.mode = .idle)
    (hc : s.cmd = some w) (hd : decode s.params.hasRawRead w = .error e) (he : s.frameEnv.headD .quiet ≠ .rst) :
    step s = .next (respond 0 (recordFault .illegalCommand
      (hostEvent (s.frameEnv.headD .quiet) { s with cmd := none, frameEnv := s.frameEnv.tail }))) := by
  rw [step_runs hr hm hc he]
  exact runWord_error (by simpa using hd)

/-- Settles O13: the fault and the response come on top of the event at the acceptance, which reaches the host's side
only. -/
theorem illegalWordRaisesIllegalCommand : Obligations.IllegalWordRaisesIllegalCommand := by
  intro s w e hr hm hc hd he
  refine ⟨_, step_raises_illegalCommand hr hm hc hd he, by simp [cmdReady, hm, hr], ?_,
    fun hq => by rw [hq]; exact ⟨rfl, rfl⟩⟩
  have hevent :=
    (hostEvent_hostOnly (s.frameEnv.headD .quiet) { s with cmd := none, frameEnv := s.frameEnv.tail }).eq
  rw [hostEvent_hostIE] at hevent
  exact congrArg (fun u => respond 0 (recordFault .illegalCommand u)) hevent

/-- Settles O16: an idle block without a word makes the next move of the outside, and there is none. -/
theorem idleBlockWaits : Obligations.IdleBlockWaits := by
  intro s hr hm hc hin
  rw [step_idle_waits hr hm hc, nextMove, hin]

/-- Settles O20: out of range the one write that both forms share only responds; in range it changes the buffer besides. -/
theorem setPixelOutOfRangeIsIgnored : Obligations.SetPixelOutOfRangeIsIgnored := by
  intro i s index px hi
  rw [exec_write s hi]
  obtain ⟨buf, hanswer⟩ := storePixel_answers index px s
  exact ⟨storePixel_of_le px, _, hanswer, rfl, rfl⟩

/-- Settles O28: out of range, GET_PIXEL only raises READ_OUT_OF_RANGE, which is FAULT bit 4. -/
theorem getPixelOutOfRangeFaults : Obligations.GetPixelOutOfRangeFaults := fun _ _ => execGetPixel_of_le

theorem execTransmit_not_begun {s : State} (h : s.begun = false) : execTransmit s = raiseFault .notBegun s := by
  simp [execTransmit, h]

/-- Settles O32: TRANSMIT only raises NOT_BEGUN, which is FAULT bit 3, and a block that drives its line has begun. -/
theorem transmitBeforeBeginFaults : Obligations.TransmitBeforeBeginFaults := by
  intro s hbegun
  refine ⟨execTransmit_not_begun hbegun, fun hi => Bool.eq_false_iff.2 fun hoe => ?_⟩
  exact absurd (hi.oe_begun hoe) (by simp [hbegun])

end Sys2Proof.Machine

namespace Sys2Proof.Machine

/-! ## `rst` in every MODE and at a command's acceptance (70_reset_and_hazards.md R117) -/

/-- `t` differs from `s` at most where construction changes nothing: `rst`, HostIE and the host's side, the command port,
the port register, the coming moves and events, the logs and the counter. -/
structure SameElements (s t : State) : Prop where
  eq : t = { s with hostIE := t.hostIE, rst := t.rst, cmd := t.cmd, port := t.port, hostPending := t.hostPending,
                    hostTaken := t.hostTaken, inputs := t.inputs, frameEnv := t.frameEnv, trace := t.trace,
                    responses := t.responses, ieWrites := t.ieWrites, draws := t.draws }

theorem SameBlock.sameElements {s t : State} (h : SameBlock s t) : SameElements s t := ⟨by rw [h.eq]⟩

/-- An update of that kind leaves a constructed block constructed. -/
theorem SameElements.constructed {s t : State} (h : SameElements s t) (hs : construct s = s) : construct t = t := by
  rw [h.eq, ← hs]
  rfl

/-- No move of the outside takes a constructed block out of its construction state. -/
theorem nextMove_constructed {s t : State} (hs : construct s = s) (h : nextMove s = .next t) : construct t = t := by
  obtain hb | ⟨rest, rfl⟩ | ⟨v, rest, rfl⟩ | ⟨rest, rfl⟩ := nextMove_cases (hs ▸ construct_mode_ne_tx s) h
  · exact hb.sameElements.constructed hs
  · exact SameElements.constructed (s := s) ⟨rfl⟩ hs
  · rw [platformWritesPort_eq]
    exact SameElements.constructed (s := s) ⟨rfl⟩ hs
  · rfl

/-- A move of the outside makes no response and leaves a presented word on the port. -/
theorem hostMove_responses {move : HostMove} {rest : List HostMove} {s t : State} (hm : s.mode ≠ .tx)
    (h : hostMove move rest s = .next t) :
    t.responses = s.responses ∧ ∀ w, s.cmd = some w → t.cmd = some w := by
  cases move with
  | present w =>
    simp only [hostMove] at h
    split at h <;> cases h
    · next hfree => exact ⟨rfl, by simp [hfree]⟩
    · exact ⟨rfl, fun _ => id⟩
  | writeHostIE v | requestInterrupt =>
    cases h
    exact ⟨by simp, by simp⟩
  | setRst v =>
    cases v with
    | true =>
      cases (assertRst_outside (s := { s with inputs := rest }) hm).symm.trans h
      exact ⟨rfl, fun _ => id⟩
    | false =>
      cases h
      exact ⟨rfl, fun _ => id⟩
  | writePort v =>
    cases h
    rw [platformWritesPort_eq]
    exact ⟨rfl, fun _ => id⟩

theorem nextMove_responses {s t : State} (hm : s.mode ≠ .tx) (h : nextMove s = .next t) :
    t.responses = s.responses ∧ ∀ w, s.cmd = some w → t.cmd = some w := by
  unfold nextMove at h
  split at h
  · exact hostMove_responses hm h
  · cases h
    exact ⟨rfl, fun _ => id⟩

/-- With the critical section open, `rst` restores HostIE and then constructs. -/
theorem assertRst_inside {s : State} {v : Bool} (hm : s.mode = .tx) (hv : s.savedIE = some v) :
    assertRst s = .next { construct (blockWritesIE v s) with rst := true } := by
  simp [assertRst, hm, exitCritical_some hv]

/-- The segment that `rst` cuts leaves MODE, HostIE with its log, SAVED_IE and the responses alone. -/
theorem cutSegment_keeps (φ : Free) (s : State) :
    (cutSegment φ s).mode = s.mode ∧ (cutSegment φ s).savedIE = s.savedIE ∧ (cutSegment φ s).hostIE = s.hostIE ∧
      (cutSegment φ s).ieWrites = s.ieWrites ∧ (cutSegment φ s).responses = s.responses := by
  obtain ⟨_, _, h⟩ | ⟨_, _, _, _, -, -, h⟩ := cutSegment_cases φ s <;> rw [h] <;> exact ⟨rfl, rfl, rfl, rfl, rfl⟩

/-- `rst` in any MODE: the construction state without a response, after the restore of HostIE in TX. -/
theorem assertRst_answers {s : State} {v : Bool} (hv : s.mode = .tx → s.savedIE = some v) :
    ∃ t, assertRst s = .next t ∧ t.rst = true ∧ construct t = t ∧ t.responses = s.responses ∧ t.lineOE = false ∧
      t.hostIE = (if s.mode = .tx then v else s.hostIE) ∧
      t.ieWrites = (if s.mode = .tx then v :: s.ieWrites else s.ieWrites) := by
  by_cases hm : s.mode = .tx
  · exact ⟨_, assertRst_inside hm (hv hm), rfl, rfl, by simp, rfl, by simp [hm], by simp [hm]⟩
  · exact ⟨_, assertRst_outside hm, rfl, rfl, rfl, rfl, by simp [hm], by simp [hm]⟩

theorem tick_of_rst {φ : Free} {s : State} {rest : List FrameEvent} (he : s.frameEnv = .rst :: rest) :
    tick φ s = assertRst (cutSegment φ { s with frameEnv := rest }) := by
  simp [tick, he]

/-- Between commands, and in HALT, a block whose next move is `rst` is constructed again. -/
theorem step_between_commands_rst {s : State} {rest : List HostMove} (hr : s.rst = false)
    (hm : s.mode = .idle ∧ s.cmd = none ∨ s.mode = .halt) (hin : s.inputs = .setRst true :: rest) :
    step s = .next { construct { s with inputs := rest } with rst := true } := by
  have hmove : nextMove s = assertRst { s with inputs := rest } := by simp [nextMove, hin, hostMove]
  obtain ⟨hm, hc⟩ | hm := hm
  · rw [step_idle_waits hr hm hc, hmove, assertRst_outside (by simp [hm])]
  · have hhalt : stepHalted s = nextMove s := by simp [stepHalted, hin]
    rw [step_halted hr hm, hhalt, hmove, assertRst_outside (by simp [hm])]

/-- Settles O5: held in reset, a block only makes the moves of the outside; `rst` cuts a busy block's segment and restores
HostIE where TX has saved it; at the acceptance and between commands it only constructs. -/
theorem rstAbandonsAndRestores : Obligations.RstAbandonsAndRestores := by
  refine ⟨fun s t hr h => ?_, fun s rest v hr hb he hv => ?_, fun s rest w hr hm hc he => ?_,
    fun s rest hr hm hin => ?_⟩
  · rw [step_held hr] at h
    obtain ⟨hresp, hcmd⟩ := nextMove_responses (construct_mode_ne_tx s) h
    exact ⟨by simp [cmdReady, hr], nextMove_constructed (construct_idem s) h, hresp, hcmd⟩
  · obtain ⟨hm, hsaved, hie, hwrites, hresp⟩ := cutSegment_keeps Config.free { s with frameEnv := rest }
    rw [step_busy hr hb, tick_of_rst he]
    have hanswer := assertRst_answers fun htx => hsaved.trans (hv (hm.symm.trans htx))
    rwa [hm, hie, hwrites, hresp] at hanswer
  · exact ⟨_, step_abandons hr hm hc (by simp [he]), rfl, rfl, rfl, rfl, rfl, rfl, rfl, rfl⟩
  · exact ⟨_, step_between_commands_rst hr hm hin, rfl, rfl, rfl, rfl⟩

/-! ## The latch hold at a frame's end (70_reset_and_hazards.md R122) -/

/-- A frame that `rst` has not cut is under way, or it has ended with the line LOW for the latch hold. -/
def HeldToTheEnd (s : State) : Prop :=
  s.rst = true ∨ busy s = true ∨ (s.mode = .idle ∧ s.params.tresetMin ≤ lowRun s.trace)

/-- Only the latch ends a frame, and it tops the LOW up to TRESET_MIN_NS. -/
theorem BlockStep.heldToTheEnd {φ : Free} {s t : State} (h : BlockStep φ s t) (hb : busy s = true) :
    HeldToTheEnd t := by
  cases h with
  | config b level hm hb hl => exact .inr (.inl (by simp [busy]))
  | segment b d bit level f s' hm hb hl hp hd =>
    obtain ⟨g, rfl⟩ := SegmentStart.eq hd
    exact .inr (.inl (by simp [busy, hm]))
  | last b d v s' hm hb hsv hp hl hd => exact .inr (.inl (by simp [busy]))
  | latch hm =>
    refine .inr (.inr ⟨rfl, ?_⟩)
    have hdraw := drawIn_ge (φ.nat s.draws) (s.params.tresetMin - lowRun s.trace)
      (s.params.tresetMax.map (· - lowRun s.trace))
    simp only [respond_params, respond_trace, emit_params, emit_trace, lowRun_cons_low]
    omega
  | rest hm => rcases hm with hm | hm <;> simp [busy, hm] at hb

theorem tick_heldToTheEnd {φ : Free} {s t : State} (hb : busy s = true) (h : tick φ s = .next t) : HeldToTheEnd t := by
  obtain ⟨u, v, -, rfl⟩ | ⟨s₁, e, -, -, -, rfl, hstep⟩ := tick_outcome h
  · exact .inl rfl
  · exact hstep.heldToTheEnd (by simpa [busy] using hb)

/-- Ticks that end a frame without `rst` leave the block idle, with the latch hold behind it and the response 0. -/
theorem runTicks_latchHold {φ : Free} {k : Nat} {s t : State} (hs : busy s = true) (h : runTicks φ k s = .next t)
    (hd : busy t = false) (ht : t.rst = false) :
    t.params.tresetMin ≤ lowRun t.trace ∧ t.mode = .idle ∧ t.responses = 0 :: s.responses := by
  have hend : HeldToTheEnd t :=
    runTicks_induction (fun _ _ hb _ => tick_heldToTheEnd hb) k s t (.inr (.inl hs)) h
  obtain ⟨hidle, hhold⟩ := (hend.resolve_left (by simp [ht])).resolve_left (by simp [hd])
  exact ⟨hhold, hidle, runTicks_responses hs h hd ht⟩

/-- Settles O52: both commands run the ticks of a frame to its end. -/
theorem everyFrameEndsWithTheLatchHold : Obligations.EveryFrameEndsWithTheLatchHold := by
  rintro i s t - hi h ht
  rw [← exec_params h]
  obtain rfl | ⟨rfl, hbegun⟩ := hi
  · exact runTicks_latchHold (s := { s with mode := .config, begun := true }) rfl h (beginFrame_finishes h) ht
  · have hframe := (execTransmit_begun hbegun).symm.trans h
    exact runTicks_latchHold (s := startFrame Config.free s) (by simp [busy]) hframe (transmitFrame_finishes hframe) ht

/-! ## Construction and the state after reset (70_reset_and_hazards.md R116) -/

/-- Settles O1: construction writes each reset value, and a block whose checks pass is idle without a fault. -/
theorem constructionSetsResetValues : Obligations.ConstructionSetsResetValues := fun _ h =>
  ⟨rfl, rfl, rfl, rfl, rfl, rfl, rfl, if_pos h, rfl, h, rfl⟩

/-- Settles O2: `State.reset` is its own construction state, and its fields are evaluated. -/
theorem resetStateIsConstructed : Obligations.ResetStateIsConstructed :=
  ⟨construct_reset, rfl, rfl, rfl, rfl, rfl, rfl, rfl, fun _ hpx => List.eq_of_mem_replicate hpx, rfl⟩

/-- Settles O57: construction establishes the invariant, and `State.reset` is a construction state. -/
theorem resetMeetsTheInvariant : Obligations.ResetMeetsTheInvariant := by
  have hport : State.reset.port < 2 ^ State.reset.params.portW := Nat.two_pow_pos _
  have hinv := constructed_inv State.reset.rst hport
  rwa [construct_reset] at hinv

end Sys2Proof.Machine
